-- ==== Sys2Proof/Word.lean ====
section
/-! DEFINITION. The words the block moves, at the widths of 00_scope.md rules R8 to R10. -/

namespace Sys2Proof

/-- One byte lane of a bus word (R71). -/
abbrev Byte := BitVec 8

/-- A register word, a magnitude or a Q16.16 frequency (R8, R10). -/
abbrev Word := BitVec 32

/-- A `sint16` sample or Q1.15 coefficient (R9, R10). -/
abbrev Sample := BitVec 16

/-- A spectrum word, `uint128` (R10). -/
abbrev SpecWord := BitVec 128

/-- A byte offset of the 1 MiB aperture (R22, R70). -/
abbrev Offset := BitVec 20

end Sys2Proof
end

