-- ==== Sys2Proof/Config.lean ====
section
/-! DEFINITION. The `OPEN` parameters of rule R6, which the model leaves open, and the values the spec calls
unspecified (R12). Each is an opaque constant with no body: nothing can evaluate it, so what is proved holds for
every value. `MAG_TOL` of R6 is the argument `tol` of `MagAccurate`: a claim that needs it takes it as a variable. -/

namespace Sys2Proof.Config

/-- FREE VALUES (R12, U5, U6): the bits of the `n`-th value the machine draws where the spec says the value is
unspecified. Log entry 9. -/
opaque freeBits : Nat → BitVec 128

/-- `MAG_IMPL` (R172): the hardware's magnitude of bin `k` for the frame length `N` and the decimated frame `d`. Its
type gives M1 (an integer in `0 … 2^32 − 1`) and M3 (a function of `N` and `d` only). Log entry 14. -/
opaque magImpl : Nat → List Sample → Nat → Word

/-- `NOTE_TABLE` (R6, R48), and with its length `NOTE_COUNT`. Log entry 13. -/
opaque noteTable : List Word

/-- `FIR_COEF` (R6, R49), and with its length `FIR_NTAPS`. Log entry 13. -/
opaque firCoef : List Sample

/-- `NOTE_NAMES` (R6): the host's name of each note index, which no rule of the block reads. Log entry 17. -/
opaque noteNames : List String

/-- `T_CMD` (R6, R299): a bound on a command's execution time, which no rule reads. Log entry 17. -/
opaque tCmd : Nat

/-- FREE VALUE: the cents of a zero operand, which R191 does not define. Log entry 15. -/
opaque centsOfZero : Nat → Nat → Int

/-- `BLOCK_BASE / 2^20` (R6, R70): the base is aligned to 1 MiB. -/
opaque blockIndex : Nat

/-- `BLOCK_BASE` (R6, D3). -/
def blockBase : Nat := blockIndex * 2 ^ 20

/-- The magnitude function with M4 (an all-zero frame has magnitudes 0) put in by construction (R172). -/
def mag (N : Nat) (d : List Sample) (k : Nat) : Word :=
  if d.all (fun x => x == 0) then 0 else magImpl N d k

/-- The modulus `|X_d[k]|` of the reference transform of rule R170 is within `tol` of `v`: the unscaled DFT of the
samples taken as integers, with no window. -/
def NearReference (N : Nat) (d : List Sample) (k : Nat) (tol : ℝ) (v : Nat) : Prop :=
  |(v : ℝ) - ‖∑ n ∈ Finset.range N, (((d.getD n 0).toInt : ℤ) : ℂ) *
      Complex.exp (-2 * Real.pi * Complex.I * (k : ℂ) * (n : ℂ) / (N : ℂ))‖| ≤ tol

/-- M2 of rule R172 for the magnitude function `f` with `MAG_TOL = tol`: a claim that depends on magnitudes assumes
it by this name. -/
def MagAccurate (f : Nat → List Sample → Nat → Word) (tol : ℝ) : Prop :=
  ∀ (l : Nat) (d : List Sample) (k : Nat), 5 ≤ l → l ≤ 12 → d.length = 2 ^ l → 1 ≤ k → k < 2 ^ (l - 1) →
    NearReference (2 ^ l) d k tol (f (2 ^ l) d k).toNat

end Sys2Proof.Config
end

