-- ==== Sys2Proof/Syntax.lean ====
section
/-! DEFINITION. The command set: one constructor per row of the opcode map (30_encoding.md rule R101). A command has
no operand field (R100): its operands are latched registers. -/

namespace Sys2Proof

/-- The eleven commands written to `CMD`. -/
inductive Instr where
  | nop
  | run
  | filt
  | xform
  | hps
  | peak
  | firclr
  | b2f
  | f2b
  | note
  | cents
  deriving DecidableEq, Repr

end Sys2Proof
end

