-- ==== Sys2Proof/WellFormed.lean ====
section
/-! DEFINITION. What is well formed: a `CMD` word, and the two ROM parameters. A command carries no immediate and no
register field (R100), so every `Instr` is well formed. -/

namespace Sys2Proof

/-- R100: a command has no operand, so there is nothing in it to be ill formed. -/
def Instr.wf (_ : Instr) : Bool := true

/-- A legal `CMD` word: `RSVD = 0` and `OPCODE` at most `0x0A` (R100, R102). -/
def wfCmdWord (w : Word) : Bool :=
  w.extractLsb' 8 24 == 0#24 && decide ((w.extractLsb' 0 8).toNat ≤ 0x0A)

/-- A conforming `NOTE_TABLE` (R6, R7): 1 to 128 entries, strictly increasing, the first at least 1. -/
def wfNoteTable (nt : List Word) : Bool :=
  decide (1 ≤ nt.length) && decide (nt.length ≤ 128) &&
    decide (nt.Pairwise (fun a b => a.toNat < b.toNat)) && nt.all (fun f => decide (1 ≤ f.toNat))

/-- The table holds A2 = 110 Hz, as R7 asks for the document's end-to-end scenario. -/
def hasA2 (nt : List Word) : Bool := nt.contains 0x006E0000

/-- A conforming `FIR_COEF` (R6): 1 to 256 taps. -/
def wfFirCoef (h : List Sample) : Bool :=
  decide (1 ≤ h.length) && decide (h.length ≤ 256)

end Sys2Proof
end

