-- ==== Sys2Proof/Decode.lean ====
section
/-! DEFINITION. The decoder of `CMD` words (30_encoding.md rule R103), total on words and on bytes, and the encoder. -/

namespace Sys2Proof

/-- Why a `CMD` word is no command. Log entry 24. -/
inductive Illegal where
  /-- `RSVD ≠ 0` (R102). -/
  | reservedBits
  /-- `OPCODE` in `0x0B … 0xFF` (R102). -/
  | reservedOpcode
  /-- Fewer than the four byte lanes of a word: no bus write carries that (R72). -/
  | truncated
  deriving DecidableEq, Repr

/-- `w[7:0]`, the `OPCODE` field (R100). -/
def opcodeField (w : Word) : Byte := w.extractLsb' 0 8

/-- `w[31:8]`, the `RSVD` field (R100). -/
def rsvdField (w : Word) : BitVec 24 := w.extractLsb' 8 24

/-- The opcode map (R101), read from the opcode. -/
def decodeOpcode (op : Byte) : Option Instr :=
  match op.toNat with
  | 0x00 => some .nop
  | 0x01 => some .run
  | 0x02 => some .filt
  | 0x03 => some .xform
  | 0x04 => some .hps
  | 0x05 => some .peak
  | 0x06 => some .firclr
  | 0x07 => some .b2f
  | 0x08 => some .f2b
  | 0x09 => some .note
  | 0x0A => some .cents
  | _ => none

/-- `decode` of rule R103. -/
def decode (w : Word) : Except Illegal Instr :=
  if rsvdField w = 0 then
    match decodeOpcode (opcodeField w) with
    | some i => .ok i
    | none => .error .reservedOpcode
  else .error .reservedBits

/-- The word of four byte lanes, lane 0 the least significant (R71). -/
def wordOfLanes (b0 b1 b2 b3 : Byte) : Word := b3 ++ b2 ++ b1 ++ b0

/-- The command in the byte lanes of a bus write, with the lanes after it; one word is one command (R100). -/
def decodeBytes : List Byte → Except Illegal (Instr × List Byte)
  | b0 :: b1 :: b2 :: b3 :: rest =>
    match decode (wordOfLanes b0 b1 b2 b3) with
    | .ok i => .ok (i, rest)
    | .error e => .error e
  | _ => .error .truncated

/-- The byte lanes of a word, lane 0 first (R71). -/
def lanesOfWord (w : Word) : List Byte :=
  [w.extractLsb' 0 8, w.extractLsb' 8 8, w.extractLsb' 16 8, w.extractLsb' 24 8]

/-- The `CMD` word of a table word of `nbits` bits: every bit above `nbits` is 0. -/
def cmdWordOf (nbits w : Nat) : Word := BitVec.ofNat 32 (w % 2 ^ nbits)

/-- The command the decoder reads from a table word, laid out on the byte lanes. -/
def decodeTableWord (nbits w : Nat) : Option Instr :=
  match decodeBytes (lanesOfWord (cmdWordOf nbits w)) with
  | .ok (i, _) => some i
  | .error _ => none

/-- The opcode of each command (R101). -/
def opcode : Instr → Byte
  | .nop => 0x00
  | .run => 0x01
  | .filt => 0x02
  | .xform => 0x03
  | .hps => 0x04
  | .peak => 0x05
  | .firclr => 0x06
  | .b2f => 0x07
  | .f2b => 0x08
  | .note => 0x09
  | .cents => 0x0A

/-- The `CMD` word of a command: `RSVD = 0` above the opcode (R100). -/
def encode (i : Instr) : Word := 0#24 ++ opcode i

end Sys2Proof
end

