-- ==== Sys2Proof/Machine/State.lean ====
section
/-! DEFINITION. The state of the block (10_state.md), the inputs its environment has queued, and the state after reset
(rule R57). Plain data throughout. -/

namespace Sys2Proof.Machine

/-! ## Reasons -/

/-- The four `model_fault` reasons (R254). A step RECORDS one in `State.faults` and goes on (R56, D40; log entry 10);
no step ends in `Outcome.fault`. -/
inductive Fault where
  /-- A read, by the host or by a command, of an `IN`, `DEC` or `SPEC` entry never written since reset (R56, U2).
  Raised by `readOr`; the value read is free. Safe: a claim about what follows must hold for every value. -/
  | unwritten
  /-- A capture event begins refilling a slot that is `READY` or `CLAIMED` (R226, U1). Raised by `captureEvent`, which
  goes on as R226 allows. Unsafe beyond that step: no property holds of the hardware after it, so a claim about
  hardware carries `faults = []`. -/
  | overrun
  /-- A host write to the `DEC` window while `BUSY = 1` (R81, R292, U3). Raised by `writeTarget`; the entry then holds
  a free value. Unsafe beyond that step, as `overrun`. -/
  | decWriteWhileBusy
  /-- A host write to the `SPEC` window while `BUSY = 1` (R82, R292, U4). Raised by `writeTarget`; the entry then holds
  a free value. Unsafe beyond that step, as `overrun`. -/
  | specWriteWhileBusy
  deriving DecidableEq, Repr

/-- Why the model gives an instruction no meaning. -/
inductive Refusal where
  /-- A command with no meaning in the model. Raised by no arm: all eleven have theirs. Safe: the machine stops. -/
  | notModelled (mnemonic : String)
  deriving DecidableEq, Repr

/-- The codes of `STATUS.ERRCODE` (R250); 7 to 15 are never recorded. -/
inductive ErrCode where
  /-- 1: start requested with an illegal configuration. -/
  | cfg
  /-- 2: a locked resource was written. -/
  | locked
  /-- 3: a command was offered while busy. -/
  | busy
  /-- 4: a command that needs the block started was offered while stopped. -/
  | noten
  /-- 5: an illegal `CMD` word. -/
  | badcmd
  /-- 6: `CENTS` offered with a zero operand. -/
  | arg
  deriving DecidableEq, Repr

/-! ## Control state -/

/-- The engine state `ENG` (R20): it stands for `STATUS.BUSY` and `STATUS.WAIT` too. -/
inductive Engine where
  | idle
  | wait
  | exec
  deriving DecidableEq, Repr

/-- A slot's state (R51). -/
inductive SlotState where
  | empty
  | filling
  | ready
  | claimed
  deriving DecidableEq, Repr

/-- The stored fields of `CTRL` (R23). `SRST` is write-only and stores nothing. -/
structure Ctrl where
  en : Bool
  rnd : Bool
  rawin : Bool
  ieDone : Bool
  ieErr : Bool
  ieFrdy : Bool
  deriving DecidableEq, Repr

/-- The fields of `CONFIG` (R25). -/
structure ConfigReg where
  log2n : BitVec 4
  osf : BitVec 5
  adcw : BitVec 5
  deriving DecidableEq, Repr

/-- The command state latched at acceptance, and at the claim (R52). -/
structure Latched where
  op : Instr
  rnd : Bool
  thresh : SpecWord
  arg0 : Word
  arg1 : Word
  /-- `latched.SLOT`: `true` is slot 1. -/
  slot : Bool
  deriving DecidableEq, Repr

/-- The started configuration `cfg` (R53), captured by the start sequence. -/
structure Cfg where
  n : Nat
  b : Nat
  d : Nat
  fs : Nat
  hpslo : Nat
  adcw : Nat
  rawin : Bool
  binw : Nat
  deriving DecidableEq, Repr

/-- The ROMs: `NOTE_TABLE` with `NOTE_COUNT` its length (R48), `FIR_COEF` with `FIR_NTAPS` its length (R49). -/
structure Rom where
  noteTable : List Word
  firCoef : List Sample
  deriving DecidableEq, Repr

/-! ## The register map -/

/-- The named registers of rule R22; the limb registers carry their limb number. -/
inductive Reg where
  | id
  | ctrl
  | config
  | fs
  | hpslo
  | binw
  | cmd
  | status
  | cursor
  | thresh (limb : Fin 4)
  | arg0
  | arg1
  | out0
  | out1
  | result
  | freq
  | cents
  | peakbin
  | peakmag (limb : Fin 4)
  | sampleIn
  | notecount
  | firtaps
  deriving DecidableEq, Repr

/-- What a word-aligned offset of the aperture names (R75): a register, an entry of a window, or a reserved word. -/
inductive Target where
  | reg (r : Reg)
  | noteTab (j : Nat)
  | firCoef (k : Nat)
  | firDl (m : Nat)
  | dec (j : Nat)
  | spec (k : Nat) (limb : Nat)
  | inp (a : Nat)
  | reserved
  deriving DecidableEq, Repr

/-! ## The block's surroundings -/

/-- One step of an agent outside the engine, or the engine being given its turn (R5, R84). Log entries 1 and 21. -/
inductive Input where
  /-- A host read of `width` bits at an offset (R70). -/
  | hostRead (addr : Offset) (width : Nat)
  /-- A host write of `width` bits at an offset; `data` is the data word of a 32-bit write (R70). -/
  | hostWrite (addr : Offset) (width : Nat) (data : Word)
  /-- A capture event on the sample port (R220). -/
  | capture (v : BitVec 16)
  /-- The engine's turn, ahead of the inputs queued behind it (R84). -/
  | engine
  /-- The power-on reset input (R280). -/
  | powerOn
  deriving DecidableEq, Repr

/-- The bus response of the latest host access. Log entry 2. -/
inductive Response where
  /-- No access since power-on. -/
  | none
  /-- A read returned this word (R75). -/
  | data (v : Word)
  /-- A write was taken (R76). -/
  | ack
  /-- `BusError(addr)` (R73). -/
  | busError (addr : Offset)
  deriving DecidableEq, Repr

/-- Memory: (address, byte) cells at aperture byte offsets, strictly rising. An unlisted address reads as no value:
its entry's written bit (R56) is clear. Log entry 12. -/
abbrev Memory := List Host.Cell

/-- Every piece of state of 10_state.md, and after it the model's own fields. -/
structure State where
  /-- `CTRL` (R23). -/
  ctrl : Ctrl
  /-- `CONFIG` (R25). -/
  config : ConfigReg
  /-- `FS` (R26). -/
  fs : BitVec 17
  /-- `HPSLO` (R27). -/
  hpslo : BitVec 11
  /-- `ENG` (R20): `STATUS.BUSY` and `STATUS.WAIT`. Log entry 5. -/
  eng : Engine
  /-- `STATUS.DONE` (R30). -/
  done : Bool
  /-- `STATUS.ERR` with `STATUS.ERRCODE` (R30, R252): none is `ERR = 0`, `ERRCODE = 0`. Log entry 5. -/
  err : Option ErrCode
  /-- `SLOT[0]` (R51). -/
  slot0 : SlotState
  /-- `SLOT[1]` (R51). -/
  slot1 : SlotState
  /-- `RDSLOT` (R51): `true` is slot 1. -/
  rdslot : Bool
  /-- `STATUS.FRDY` (R30). -/
  frdy : Bool
  /-- `STATUS.CURCMD` (R30). -/
  curcmd : Byte
  /-- `CURSOR` (R31). -/
  cursor : BitVec 17
  /-- `THRESH` (R32): `THRESH0` is its least significant limb. -/
  thresh : SpecWord
  /-- `ARG0` (R33). -/
  arg0 : Word
  /-- `ARG1` (R33). -/
  arg1 : Word
  /-- `OUT0` (R34). -/
  out0 : Word
  /-- `OUT1` (R34). -/
  out1 : Word
  /-- `RESULT` (R35). -/
  result : Word
  /-- `FREQ` (R36). -/
  freq : Word
  /-- The `CENTS` register (R37). -/
  cents : Word
  /-- `PEAKBIN` (R38). -/
  peakbin : BitVec 11
  /-- `PEAKMAG` (R39): `PEAKMAG0` is its least significant limb. -/
  peakmag : SpecWord
  /-- `IN`, `DEC` and `SPEC` with their written bits (R44, R45, R46, R56). -/
  mem : Memory
  /-- `DL` (R47): `T − 1` samples, the most recent first. -/
  dl : List Sample
  /-- `latched.*` (R52). -/
  latched : Latched
  /-- `cfg` (R53). -/
  cfg : Cfg
  /-- The note-table and coefficient ROMs (R48, R49). -/
  rom : Rom
  /-- The sticky fault record (R56). -/
  faults : List Fault
  /-- The model's own: how many free values have been drawn. Log entry 9. -/
  freeCtr : Nat
  /-- The model's own: the inputs to come, the next one first. Log entry 1. -/
  inputs : List Input
  /-- The model's own: the response of the latest host access. Log entry 2. -/
  resp : Response
  deriving DecidableEq, Repr

/-! ## Reset -/

/-- `CTRL` after reset (R57). -/
def Ctrl.reset : Ctrl :=
  { en := false, rnd := false, rawin := false, ieDone := false, ieErr := false, ieFrdy := false }

/-- `CONFIG` after reset: `0x000C0000` (R25, R57). -/
def ConfigReg.reset : ConfigReg := { log2n := 0, osf := 0, adcw := 12 }

/-- `latched.*` after reset: the spec gives no value (R57, U7). Log entry 7. -/
def Latched.reset : Latched :=
  { op := .nop, rnd := false, thresh := 0, arg0 := 0, arg1 := 0, slot := false }

/-- `cfg` after reset: the spec gives no value (R57, U7). Log entry 8. -/
def Cfg.reset : Cfg :=
  { n := 0, b := 0, d := 0, fs := 0, hpslo := 0, adcw := 0, rawin := false, binw := 0 }

/-- The state of a block with the ROMs `r` after power-on reset (R57, R280, R281). -/
def State.resetWith (r : Rom) : State :=
  { ctrl := Ctrl.reset
    config := ConfigReg.reset
    fs := 0
    hpslo := 0
    eng := .idle
    done := false
    err := none
    slot0 := .empty
    slot1 := .empty
    rdslot := false
    frdy := false
    curcmd := 0
    cursor := 0
    thresh := 1
    arg0 := 0
    arg1 := 0
    out0 := 0
    out1 := 0
    result := 0
    freq := 0
    cents := 0
    peakbin := 0
    peakmag := 0
    mem := []
    dl := List.replicate (r.firCoef.length - 1) 0
    latched := Latched.reset
    cfg := Cfg.reset
    rom := r
    faults := []
    freeCtr := 0
    inputs := []
    resp := .none }

/-- The ROMs the implementation carries: two parameters the spec leaves `OPEN` (R6). -/
def Rom.configured : Rom := { noteTable := Config.noteTable, firCoef := Config.firCoef }

/-- The machine right after power-on reset. -/
def State.reset : State := State.resetWith Rom.configured

end Sys2Proof.Machine
end

