-- ==== Sys2Proof/Machine/Ops.lean ====
section
/-! DEFINITION. The shared operations: memory cells and entries, limbs, signed integers, free values, the fault record,
recording an error (the block's only exception, R252, R256) and clearing it (R257), and the slots. -/

namespace Sys2Proof.Machine

/-! ## Memory -/

/-- The byte at an address; none where nothing has written since reset (R56). -/
def Memory.byte (m : Memory) (a : Nat) : Option Byte :=
  match m with
  | [] => none
  | c :: cs => if c.1 = a then some c.2 else Memory.byte cs a

/-- The `n` bytes from `a` on, lowest address first, if all are written. -/
def Memory.bytes (m : Memory) (a : Nat) : Nat → Option (List Byte)
  | 0 => some []
  | n + 1 =>
    match Memory.byte m a, Memory.bytes m (a + 1) n with
    | some b, some bs => some (b :: bs)
    | _, _ => none

/-- The cells of the bytes `bs` placed from `a` on. -/
def cellsAt (a : Nat) : List Byte → Memory
  | [] => []
  | b :: bs => (a, b) :: cellsAt (a + 1) bs

/-- Memory with the bytes `bs` stored from `a` on. -/
def Memory.write (m : Memory) (a : Nat) (bs : List Byte) : Memory :=
  m.filter (fun c => decide (c.1 < a)) ++ cellsAt a bs ++ m.filter (fun c => decide (a + bs.length ≤ c.1))

/-- The canonical form: addresses strictly rising. (An unlisted address reads as no value, so no cell can equal it.) -/
def Memory.wf (m : Memory) : Bool := decide (m.Pairwise (fun c c' => c.1 < c'.1))

/-- The number the bytes spell, the first byte least significant (R71). -/
def bytesToNat : List Byte → Nat
  | [] => 0
  | b :: bs => b.toNat + 256 * bytesToNat bs

/-- The `n` low bytes of a number, least significant first (R71). -/
def natToBytes : Nat → Nat → List Byte
  | 0, _ => []
  | n + 1, x => BitVec.ofNat 8 x :: natToBytes n (x / 256)

/-- The `n`-byte entry at `a`, as a word of `w` bits; none if it is not written. -/
def Memory.entry (m : Memory) (w n a : Nat) : Option (BitVec w) :=
  (Memory.bytes m a n).map (fun bs => BitVec.ofNat w (bytesToNat bs))

/-- Memory with `v` stored as the `n`-byte entry at `a`. -/
def Memory.setEntry {w : Nat} (m : Memory) (n a : Nat) (v : BitVec w) : Memory :=
  Memory.write m a (natToBytes n v.toNat)

/-! ## Words -/

/-- Limb `l` of a 128-bit quantity, limb 0 least significant (R71). -/
def limb (x : SpecWord) (l : Nat) : Word := x.extractLsb' (32 * l) 32

/-- A 128-bit quantity with limb `l` replaced (R82). -/
def setLimb (x : SpecWord) (l : Nat) (v : Word) : SpecWord :=
  (x &&& ~~~((0xFFFFFFFF#128) <<< (32 * l))) ||| (v.setWidth 128 <<< (32 * l))

/-- `sext_32` (R9). -/
def sext32 (v : Sample) : Word := v.signExtend 32

/-- `clamp` (R9). -/
def clamp (v lo hi : Int) : Int := min hi (max lo v)

/-! ## Faults and free values -/

/-- `model_fault` (R11, R254): the reason joins the sticky record. -/
def recordFault (f : Fault) (fs : List Fault) : List Fault := if f ∈ fs then fs else fs ++ [f]

/-- `model_fault(f)`: nothing but the record changes; the machine goes on (D40). -/
def modelFault (f : Fault) (s : State) : State := { s with faults := recordFault f s.faults }

/-- The free value the next draw gives, at width `w` (R12). -/
def freeValue (w : Nat) (s : State) : BitVec w := (Config.freeBits s.freeCtr).setWidth w

/-- The state after one free value is drawn. -/
def drawn (s : State) : State := { s with freeCtr := s.freeCtr + 1 }

/-- The value of a memory entry: what is written there, or else a free value and `model_fault(UNWRITTEN)` (R56). -/
def readOr {w : Nat} (v : Option (BitVec w)) (s : State) : BitVec w × State :=
  match v with
  | some x => (x, s)
  | none => (freeValue w s, modelFault .unwritten (drawn s))

/-- The entries `get` names at the given indices, read in order. -/
def readAll {w : Nat} (get : Nat → Option (BitVec w)) : List Nat → State → List (BitVec w) × State
  | [], s => ([], s)
  | i :: is, s =>
    let r := readOr (get i) s
    let rs := readAll get is r.2
    (r.1 :: rs.1, rs.2)

/-! ## Errors -/

/-- `raise Error(c)` (R252), the whole of taking an exception on this block (R256): the first error since `ERR` was
last clear is recorded, and no control state changes. -/
def raiseError (c : ErrCode) (s : State) : State := { s with err := s.err.or (some c) }

/-- Clearing `ERR` and `ERRCODE`, the whole of returning from an error (R257). -/
def clearError (s : State) : State := { s with err := none }

/-! ## Slots -/

/-- `SLOT[b]` (R51). -/
def State.slot (s : State) (b : Bool) : SlotState := if b then s.slot1 else s.slot0

/-- `SLOT[b] ← v` (R51). -/
def setSlot (b : Bool) (v : SlotState) (s : State) : State :=
  { s with slot0 := if b then s.slot0 else v, slot1 := if b then v else s.slot1 }

end Sys2Proof.Machine
end

