-- ==== Sys2Proof/Machine/Operands.lean ====
section
/-! DEFINITION. Where operands lie: the entries of `IN`, `DEC`, `SPEC` and `DL` (R44 to R47, R71), the slot geometry
(R227), the register map (R22) and the address decode of the aperture (R75). A command's other operands are the
fields of `latched` and `cfg` (R104). -/

namespace Sys2Proof.Machine

/-! ## Memory entries -/

/-- The aperture offset of `DEC[j]` (R75). -/
def decAddr (j : Nat) : Nat := 0x4000 + 4 * j

/-- The aperture offset of `SPEC[k]` (R75). -/
def specAddr (k : Nat) : Nat := 0x8000 + 16 * k

/-- The aperture offset of `IN[a]` (R75). -/
def inAddr (a : Nat) : Nat := 0x80000 + 4 * a

/-- `DEC[j]`, none while its written bit is clear. -/
def State.dec (s : State) (j : Nat) : Option Sample := s.mem.entry 16 2 (decAddr j)

/-- `SPEC[k]`, none while its written bit is clear. -/
def State.spec (s : State) (k : Nat) : Option SpecWord := s.mem.entry 128 16 (specAddr k)

/-- `IN[a]`, none while its written bit is clear. -/
def State.inp (s : State) (a : Nat) : Option Sample := s.mem.entry 16 2 (inAddr a)

/-- `DEC[j] ← v`. -/
def writeDec (j : Nat) (v : Sample) (s : State) : State := { s with mem := s.mem.setEntry 2 (decAddr j) v }

/-- `SPEC[k] ← v`. -/
def writeSpec (k : Nat) (v : SpecWord) (s : State) : State := { s with mem := s.mem.setEntry 16 (specAddr k) v }

/-- `IN[a] ← v`. -/
def writeIn (a : Nat) (v : Sample) (s : State) : State := { s with mem := s.mem.setEntry 2 (inAddr a) v }

/-- `DEC[j], DEC[j+1], … ← vs`. -/
def writeDecs : Nat → List Sample → State → State
  | _, [], s => s
  | j, v :: vs, s => writeDecs (j + 1) vs (writeDec j v s)

/-- `SPEC[k], SPEC[k+1], … ← vs`. -/
def writeSpecs : Nat → List SpecWord → State → State
  | _, [], s => s
  | k, v :: vs, s => writeSpecs (k + 1) vs (writeSpec k v s)

/-! ## Slot geometry -/

/-- `ND = N·D`, the samples of a slot (R227). -/
def State.nd (s : State) : Nat := s.cfg.n * s.cfg.d

/-- The slot being filled, `CURSOR div ND` (R227). -/
def State.curSlot (s : State) : Bool := s.cursor.toNat / s.nd != 0

/-- The position in that slot, `CURSOR mod ND` (R227). -/
def State.curPos (s : State) : Nat := s.cursor.toNat % s.nd

/-- The start index of a slot, `s·ND` (R227). -/
def State.slotBase (s : State) (b : Bool) : Nat := if b then s.nd else 0

/-! ## The register map and the windows -/

/-- The register at an offset (R22). -/
def regAt (a : Nat) : Option Reg :=
  match a with
  | 0x000 => some .id
  | 0x004 => some .ctrl
  | 0x008 => some .config
  | 0x00C => some .fs
  | 0x010 => some .hpslo
  | 0x014 => some .binw
  | 0x018 => some .cmd
  | 0x01C => some .status
  | 0x020 => some .cursor
  | 0x024 => some (.thresh 0)
  | 0x028 => some (.thresh 1)
  | 0x02C => some (.thresh 2)
  | 0x030 => some (.thresh 3)
  | 0x034 => some .arg0
  | 0x038 => some .arg1
  | 0x03C => some .out0
  | 0x040 => some .out1
  | 0x044 => some .result
  | 0x048 => some .freq
  | 0x04C => some .cents
  | 0x050 => some .peakbin
  | 0x054 => some (.peakmag 0)
  | 0x058 => some (.peakmag 1)
  | 0x05C => some (.peakmag 2)
  | 0x060 => some (.peakmag 3)
  | 0x064 => some .sampleIn
  | 0x068 => some .notecount
  | 0x06C => some .firtaps
  | _ => none

/-- The register or window entry at a word-aligned offset (R22, R75). -/
def targetOf (a : Nat) : Target :=
  if a < 0x1000 then
    match regAt a with
    | some r => .reg r
    | none => .reserved
  else if a < 0x1200 then .noteTab ((a - 0x1000) / 4)
  else if a < 0x2000 then .reserved
  else if a < 0x2400 then .firCoef ((a - 0x2000) / 4)
  else if a < 0x3000 then .reserved
  else if a < 0x3400 then .firDl ((a - 0x3000) / 4)
  else if a < 0x4000 then .reserved
  else if a < 0x8000 then .dec ((a - 0x4000) / 4)
  else if a < 0x10000 then .spec ((a - 0x8000) / 16) ((a - 0x8000) / 4 % 4)
  else if a < 0x80000 then .reserved
  else .inp ((a - 0x80000) / 4)

/-- The offset of `CMD` (R29). -/
def cmdOffset : Offset := 0x018

/-- The bus address of an offset (R70). -/
def busAddress (off : Offset) : Nat := Config.blockBase + off.toNat

/-- The offset a bus address selects, none outside the aperture (R70). -/
def offsetOfBus (a : Nat) : Option Offset :=
  if Config.blockBase ≤ a ∧ a < Config.blockBase + 2 ^ 20 then some (BitVec.ofNat 20 (a - Config.blockBase)) else none

end Sys2Proof.Machine
end

