-- ==== Sys2Proof/Machine/Capture.lean ====
section
/-! DEFINITION. The sample converter and the capture step (45_capture_handoff.md). -/

namespace Sys2Proof.Machine

/-- `conv` (R222): a raw unsigned code of width `adcw` scaled about its mid-scale, or a signed sample as it is. -/
def conv (rawin : Bool) (adcw : Nat) (v : BitVec 16) : Sample :=
  if rawin then
    BitVec.ofInt 16 ((((v.toNat % 2 ^ adcw : Nat) : Int) - 2 ^ (adcw - 1)) * 2 ^ (16 - adcw))
  else v

/-- The overrun check of rule R226, for a sample at position 0 of slot `b`. -/
def checkOverrun (b : Bool) (s : State) : State := if s.slot b = .empty then s else modelFault .overrun s

/-- The first sample of slot `b` (R223, R224): an overrun if the slot is not `EMPTY`, and it is `FILLING` from here. -/
def beginSlot (b : Bool) (s : State) : State := setSlot b .filling (checkOverrun b s)

/-- The last sample of slot `b` (R225): `READY` and `FRDY` in the same step. -/
def publishSlot (b : Bool) (s : State) : State := { setSlot b .ready s with frdy := true }

/-- A capture event (R223); dropped while the block is stopped. -/
def captureEvent (v : BitVec 16) (s : State) : State :=
  if s.ctrl.en then
    let b := s.curSlot
    let n := s.curPos
    let s1 := if n = 0 then beginSlot b s else s
    let s2 := writeIn s.cursor.toNat (conv s.cfg.rawin s.cfg.adcw v) s1
    let s3 := if n + 1 = s.nd then publishSlot b s2 else s2
    { s3 with cursor := BitVec.ofNat 17 ((s.cursor.toNat + 1) % (2 * s.nd)) }
  else s

end Sys2Proof.Machine
end

