-- ==== Sys2Proof/Machine/Flags.lean ====
section
/-! DEFINITION. The status word (R30), its flags, and the interrupt output (R262). -/

namespace Sys2Proof.Machine

/-- `STATUS.BUSY` (R20). -/
def State.busy (s : State) : Bool := s.eng != .idle

/-- `STATUS.WAIT` (R20). -/
def State.waiting (s : State) : Bool := s.eng == .wait

/-- `STATUS.ERRCODE` of an error (R250). -/
def ErrCode.code : ErrCode → BitVec 4
  | .cfg => 1
  | .locked => 2
  | .busy => 3
  | .noten => 4
  | .badcmd => 5
  | .arg => 6

/-- `STATUS.ERRCODE`: 0 while no error is recorded (R250). -/
def State.errcode (s : State) : BitVec 4 :=
  match s.err with
  | none => 0
  | some c => c.code

/-- The two-bit code of a slot state (R30, R105). -/
def SlotState.code : SlotState → BitVec 2
  | .empty => 0
  | .filling => 1
  | .ready => 2
  | .claimed => 3

/-- The interrupt output (R262). Log entry 23. -/
def State.irq (s : State) : Bool :=
  (s.done && s.ctrl.ieDone) || (s.err.isSome && s.ctrl.ieErr) || (s.frdy && s.ctrl.ieFrdy)

/-- The `STATUS` word (R30), from bit 31 down to bit 0. -/
def State.statusWord (s : State) : Word :=
  0#8 ++ s.curcmd ++ 0#1 ++ BitVec.ofBool s.irq ++ BitVec.ofBool s.frdy ++ BitVec.ofBool s.rdslot ++
    s.slot1.code ++ s.slot0.code ++ s.errcode ++ BitVec.ofBool s.err.isSome ++ BitVec.ofBool s.done ++
    BitVec.ofBool s.waiting ++ BitVec.ofBool s.busy

/-- The `CTRL` word (R23): `SRST` reads 0. -/
def Ctrl.word (c : Ctrl) : Word :=
  0#26 ++ BitVec.ofBool c.ieFrdy ++ BitVec.ofBool c.ieErr ++ BitVec.ofBool c.ieDone ++ BitVec.ofBool c.rawin ++
    BitVec.ofBool c.rnd ++ BitVec.ofBool c.en

/-- The `CONFIG` word (R25). -/
def ConfigReg.word (c : ConfigReg) : Word := 0#11 ++ c.adcw ++ 0#3 ++ c.osf ++ 0#4 ++ c.log2n

/-- The fields of a word written to `CONFIG`; reserved bits are dropped (R25, R76). -/
def ConfigReg.ofWord (v : Word) : ConfigReg :=
  { log2n := v.extractLsb' 0 4, osf := v.extractLsb' 8 5, adcw := v.extractLsb' 16 5 }

/-- A `STATUS` write (R134): each W1C bit that is 1 clears its flag; every other bit is ignored. -/
def writeStatus (v : Word) (s : State) : State :=
  let s1 := if v.getLsbD 3 then clearError s else s
  { s1 with done := s1.done && !v.getLsbD 2, frdy := s1.frdy && !v.getLsbD 13 }

end Sys2Proof.Machine
end

