-- ==== Sys2Proof/Machine/Command.lean ====
section
/-! DEFINITION. The life of a command (40_command_model.md): acceptance, the claim, completion; and `NOP`. -/

namespace Sys2Proof.Machine

/-- "Needs EN" of rule R101. -/
def needsEN : Instr → Bool
  | .nop => false
  | .run => true
  | .filt => true
  | .xform => true
  | .hps => true
  | .peak => true
  | .firclr => false
  | .b2f => true
  | .f2b => true
  | .note => false
  | .cents => false

/-- "Claims a slot" of rule R101. -/
def claimsSlot : Instr → Bool
  | .nop => false
  | .run => true
  | .filt => true
  | .xform => false
  | .hps => false
  | .peak => false
  | .firclr => false
  | .b2f => false
  | .f2b => false
  | .note => false
  | .cents => false

/-- The operands captured at acceptance (R122); `latched.SLOT` is set by the claim. -/
def latch (i : Instr) (s : State) : Latched :=
  { op := i, rnd := s.ctrl.rnd, thresh := s.thresh, arg0 := s.arg0, arg1 := s.arg1, slot := s.latched.slot }

/-- The accepting part of rule R121: latch the operands, `BUSY ← 1`, `DONE ← 0`, and wait for a slot or execute. -/
def accept (i : Instr) (s : State) : State :=
  { s with latched := latch i s, curcmd := opcode i, done := false, eng := if claimsSlot i then .wait else .exec }

/-- A decoded command offered to the idle engine: checks 3 and 4 of rule R121, then acceptance. -/
def offerDecoded (i : Instr) (s : State) : State :=
  if needsEN i && !s.ctrl.en then raiseError .noten s
  else if i == .cents && (s.arg0 == 0 || s.arg1 == 0) then raiseError .arg s
  else accept i s

/-- The claim (R229), enabled only while the read slot is `READY`; until then the waiting engine changes nothing. -/
def claim (s : State) : State :=
  if s.slot s.rdslot = .ready then
    { setSlot s.rdslot .claimed s with latched := { s.latched with slot := s.rdslot }, eng := .exec }
  else s

/-- The end of the completion step (R124): `BUSY ← 0`, `WAIT ← 0`, `DONE ← 1`. -/
def complete (s : State) : State := { s with eng := .idle, done := true }

/-- One step of command `i`, by the engine state (R123, log entry 4): an idle engine is offered it (R121), a waiting
one tries its claim (R229), an executing one runs its body and completes (R124). -/
def runCommand (i : Instr) (body : State → State) (s : State) : Host.Outcome State Fault Refusal :=
  match s.eng with
  | .idle => .next (offerDecoded i s)
  | .wait => .next (claim s)
  | .exec => .next (complete (body s))

/-- `body(NOP) = skip` (R125). -/
def bodyNop (s : State) : State := s

/-- `NOP` (R125). -/
def execNop (s : State) : Host.Outcome State Fault Refusal := runCommand .nop bodyNop s

end Sys2Proof.Machine
end

