-- ==== Sys2Proof/Machine/Filter.lean ====
section
/-! DEFINITION. The decimating FIR filter (41_filter.md): `FILT` and `FIRCLR`. -/

namespace Sys2Proof.Machine

/-- The input sequence `w(n)` of rule R151: the frame from index 0 on, and before it the delay line. -/
def firInput (frame dl : List Sample) (n : Int) : Sample :=
  if 0 ≤ n then frame.getD n.toNat 0 else dl.getD (-n - 1).toNat 0

/-- The sum `h[k]·w(n − k)` over the coefficients `hs`, the first of which is `h[k]`. -/
def firSum (w : Int → Sample) (n : Int) : Nat → List Sample → Int
  | _, [] => 0
  | k, h :: hs => h.toInt * (w (n - k)).toInt + firSum w n (k + 1) hs

/-- `acc(n)` (R150): the exact integer sum. -/
def firAcc (h : List Sample) (w : Int → Sample) (n : Int) : Int := firSum w n 0 h

/-- `rnd16` (R150), as an integer: scaled by `2^15`, ties toward plus infinity, saturated. -/
def rnd16 (acc : Int) : Int := clamp ((acc + 2 ^ 14) / 2 ^ 15) (-32768) 32767

/-- The decimated frame: the filtered value at the last sample of each group of `D` (R151, R152). -/
def decimate (h : List Sample) (w : Int → Sample) (n d : Nat) : List Sample :=
  (List.range n).map (fun j => BitVec.ofInt 16 (rnd16 (firAcc h w ((j * d + d - 1 : Nat) : Int))))

/-- The delay line after a frame of `nd` samples: the last `T − 1`, the most recent first (R151, R153). -/
def nextDl (h : List Sample) (w : Int → Sample) (nd : Nat) : List Sample :=
  (List.range (h.length - 1)).map (fun m => w ((nd : Int) - 1 - m))

/-- The samples of the claimed slot (R151), and the state after reading them. -/
def readFrame (s : State) : List Sample × State :=
  readAll s.inp (List.range' (s.slotBase s.latched.slot) s.nd) s

/-- `body(FILT)` (R151). -/
def bodyFilt (s : State) : State :=
  let r := readFrame s
  let w := firInput r.1 s.dl
  let s1 := writeDecs 0 (decimate s.rom.firCoef w s.cfg.n s.cfg.d) r.2
  { setSlot s.latched.slot .empty s1 with dl := nextDl s.rom.firCoef w s.nd, rdslot := !s.rdslot }

/-- `FILT` (R151). -/
def execFilt (s : State) : Host.Outcome State Fault Refusal := runCommand .filt bodyFilt s

/-- `DL[m] ← 0` for every `m < T − 1` (R131, R155). -/
def clearDl (s : State) : State := { s with dl := List.replicate (s.rom.firCoef.length - 1) 0 }

/-- `body(FIRCLR)` (R155). -/
def bodyFirclr (s : State) : State := clearDl s

/-- `FIRCLR` (R155). -/
def execFirclr (s : State) : Host.Outcome State Fault Refusal := runCommand .firclr bodyFirclr s

end Sys2Proof.Machine
end

