-- ==== Sys2Proof/Machine/Control.lean ====
section
/-! DEFINITION. Resets (70_reset_and_hazards.md §1) and writes to `CTRL` and the configuration registers
(40_command_model.md §3). -/

namespace Sys2Proof.Machine

/-! ## Resets -/

/-- Power-on reset (R280, R281, R283). What is no state of the block stays: the inputs to come and the count of drawn
free values; and the ROMs, which are constants. Log entry 16. -/
def powerOnReset (s : State) : State :=
  { State.resetWith s.rom with inputs := s.inputs, freeCtr := s.freeCtr }

/-- Soft reset (R135, R282): as power-on reset, but the fault record stays. Log entries 16 and 18. -/
def softReset (s : State) : State := { powerOnReset s with faults := s.faults, resp := s.resp }

/-! ## Start and stop -/

/-- `legal_config()` (R131). -/
def legalConfig (s : State) : Bool :=
  decide (5 ≤ s.config.log2n.toNat) && decide (s.config.log2n.toNat ≤ 12) &&
    decide (1 ≤ s.config.osf.toNat) && decide (s.config.osf.toNat ≤ 16) &&
    decide (8 ≤ s.config.adcw.toNat) && decide (s.config.adcw.toNat ≤ 16) &&
    decide (1 ≤ s.fs.toNat) &&
    decide (1 ≤ s.hpslo.toNat) && decide (s.hpslo.toNat ≤ 2 ^ (s.config.log2n.toNat - 1) - 1)

/-- The configuration the start sequence captures from the registers (R53, R131). -/
def cfgOfRegisters (s : State) : Cfg :=
  { n := 2 ^ s.config.log2n.toNat
    b := 2 ^ s.config.log2n.toNat / 2
    d := s.config.osf.toNat
    fs := s.fs.toNat
    hpslo := s.hpslo.toNat
    adcw := s.config.adcw.toNat
    rawin := s.ctrl.rawin
    binw := s.fs.toNat * 2 ^ (16 - s.config.log2n.toNat) }

/-- `start()` (R131). -/
def startPipeline (s : State) : State :=
  let s1 := clearDl s
  { s1 with cfg := cfgOfRegisters s, cursor := 0, slot0 := .empty, slot1 := .empty, rdslot := false,
            ctrl := { s.ctrl with en := true } }

/-- `stop_pipeline()` (R132). -/
def stopPipeline (s : State) : State :=
  { s with ctrl := { s.ctrl with en := false }, slot0 := .empty, slot1 := .empty, cursor := 0 }

/-- The fields of a `CTRL` write that are never locked (R130). -/
def writeFreeCtrl (v : Word) (s : State) : State :=
  { s with ctrl := { s.ctrl with rnd := v.getLsbD 1, ieDone := v.getLsbD 3, ieErr := v.getLsbD 4, ieFrdy := v.getLsbD 5 } }

/-- The part of a `CTRL` write for a stopped block (R130): `RAWIN`, and a start if asked for. -/
def writeCtrlStopped (v : Word) (s : State) : State :=
  let s1 := { s with ctrl := { s.ctrl with rawin := v.getLsbD 2 } }
  if v.getLsbD 0 then
    if s1.busy then raiseError .locked s1
    else if !legalConfig s1 then raiseError .cfg s1
    else startPipeline s1
  else s1

/-- The part of a `CTRL` write for a started block (R130, R133): `RAWIN` is locked, and a stop if asked for. -/
def writeCtrlStarted (v : Word) (s : State) : State :=
  let s1 := if v.getLsbD 2 != s.ctrl.rawin then raiseError .locked s else s
  if v.getLsbD 0 then s1
  else if s1.busy then raiseError .locked s1
  else stopPipeline s1

/-- A `CTRL` write (R130). -/
def writeCtrl (v : Word) (s : State) : State :=
  if v.getLsbD 31 then softReset s
  else
    let s1 := writeFreeCtrl v s
    if s1.ctrl.en then writeCtrlStarted v s1 else writeCtrlStopped v s1

/-- A write to a register locked while started (R76, R133). -/
def writeLocked (write : State → State) (s : State) : State :=
  if s.ctrl.en then raiseError .locked s else write s

/-- A `CONFIG` write (R25, R76). -/
def writeConfig (v : Word) (s : State) : State := writeLocked (fun s => { s with config := ConfigReg.ofWord v }) s

/-- An `FS` write (R26, R76). -/
def writeFs (v : Word) (s : State) : State := writeLocked (fun s => { s with fs := v.extractLsb' 0 17 }) s

/-- An `HPSLO` write (R27, R76). -/
def writeHpslo (v : Word) (s : State) : State := writeLocked (fun s => { s with hpslo := v.extractLsb' 0 11 }) s

/-- `BINW`, computed from the registers at the time of the read (R28). -/
def State.binw (s : State) : Word :=
  if 5 ≤ s.config.log2n.toNat ∧ s.config.log2n.toNat ≤ 12 then
    BitVec.ofNat 32 (s.fs.toNat * 2 ^ (16 - s.config.log2n.toNat))
  else 0

end Sys2Proof.Machine
end

