-- ==== Sys2Proof/Machine/Hps.lean ====
section
/-! DEFINITION. The harmonic-product-spectrum reinforcer (43_hps.md): `HPS`. -/

namespace Sys2Proof.Machine

/-- Multiply in harmonic `k` of candidate `i` if its bin is in range (R180, R181); `p` holds the product so far,
modulo `2^128`. -/
def hpsHarmonic (i : Nat) (p : SpecWord × State) (k : Nat) : SpecWord × State :=
  if k * i < p.2.cfg.b then
    let r := readOr (p.2.spec (k * i)) p.2
    (p.1 * r.1, r.2)
  else p

/-- One candidate fundamental `i` of the scan: harmonics 2 to `K = 4` (R181). -/
def hpsCandidate (s : State) (i : Nat) : State :=
  let p := [2, 3, 4].foldl (hpsHarmonic i) (readOr (s.spec i) s)
  writeSpec i p.1 p.2

/-- The candidates: from `HPSLO` on, while the second harmonic is in range (R181). -/
def hpsScan (lo b : Nat) : List Nat := List.range' lo ((b + 1) / 2 - lo)

/-- `body(HPS)` (R181). -/
def bodyHps (s : State) : State := (hpsScan s.cfg.hpslo s.cfg.b).foldl hpsCandidate s

/-- `HPS` (R181). -/
def execHps (s : State) : Host.Outcome State Fault Refusal := runCommand .hps bodyHps s

end Sys2Proof.Machine
end

