-- ==== Sys2Proof/Machine/Mapper.lean ====
section
/-! DEFINITION. The frequency/note mapper (44_mapper.md): `PEAK`, `B2F`, `F2B`, `NOTE` and `CENTS`. -/

namespace Sys2Proof.Machine

/-! ## Functions -/

/-- The peak among the words from bin `k` on, against the best bin so far; only a greater word replaces it, so the
first of equals wins (R190). -/
def peakFrom : List SpecWord → Nat → Nat × SpecWord → Nat × SpecWord
  | [], _, best => best
  | v :: vs, k, best => peakFrom vs (k + 1) (if best.2.toNat < v.toNat then (k, v) else best)

/-- Peak selection (R190): the lowest bin that holds the greatest word, and that word. -/
def peakOf : List SpecWord → Nat × SpecWord
  | [] => (0, 0)
  | v :: vs => peakFrom vs 1 (0, v)

/-- `b2f` (R193). -/
def b2f (binw b : Nat) : Word := BitVec.ofNat 32 (b * binw)

/-- The cents of a ratio `F/R ≥ 1`: half the integer logarithm of `(F/R)^2400`, rounded (R191). -/
def centsUp (f r : Nat) : Nat := (Nat.log2 (f ^ 2400 / r ^ 2400) + 1) / 2

/-- `cents(F, R)` (R191), for `F ≥ 1` and `R ≥ 1`; a zero operand gives a free value. Log entry 15. -/
def cents (f r : Nat) : Int :=
  if f = 0 ∨ r = 0 then Config.centsOfZero f r
  else if r ≤ f then (centsUp f r : Int)
  else -(centsUp r f : Int)

/-- `nearest(F)` (R194): the note's index and the cents from it, or none. -/
def nearest (nt : List Word) (f : Nat) : Option (Nat × Int) :=
  match nt.head?, nt.getLast? with
  | some lo, some hi =>
    if f < lo.toNat ∨ hi.toNat < f then none
    else
      match nt.findIdx? (fun x => decide (f < x.toNat)) with
      | none => some (nt.length - 1, cents f hi.toNat)
      | some u =>
        let cu := cents f (nt.getD u 0).toNat
        if -50 ≤ cu then some (u, cu) else some (u - 1, cents f (nt.getD (u - 1) 0).toNat)
  | _, _ => none

/-- `f2b` (R200): the half-tie policy is `rnd`, round half up when 0 and round half down when 1. -/
def f2b (n fs f : Nat) (rnd : Bool) : Nat :=
  let q := f * n
  let d := fs * 2 ^ 16
  if rnd then (2 * q + d - 1) / (2 * d) else (2 * q + d) / (2 * d)

/-- A found note as a result word: bit 31 and the index (R192, R197). -/
def noteWord (idx : Nat) : Word := 0x80000000 ||| BitVec.ofNat 32 idx

/-- A cents value as a register word, modulo `2^32` (R104). -/
def centsWord (c : Int) : Word := BitVec.ofInt 32 c

/-! ## PEAK -/

/-- `SPEC[0 … B−1]`, and the state after reading it (R192). -/
def readSpec (s : State) : List SpecWord × State := readAll s.spec (List.range s.cfg.b) s

/-- `RESULT` and `CENTS` for the peak word `m` at the frequency `f` (R192): gated below the threshold, else mapped. -/
def pitchOf (nt : List Word) (thresh m : SpecWord) (f : Word) : Word × Word :=
  if m.toNat < thresh.toNat then (0x40000000, 0)
  else
    match nearest nt f.toNat with
    | some (idx, c) => (noteWord idx, centsWord c)
    | none => (0, 0)

/-- `body(PEAK)` (R192). -/
def bodyPeak (s : State) : State :=
  let r := readSpec s
  let pk := peakOf r.1
  let f := b2f s.cfg.binw pk.1
  let p := pitchOf s.rom.noteTable s.latched.thresh pk.2 f
  { r.2 with peakbin := BitVec.ofNat 11 pk.1, peakmag := pk.2, freq := f, result := p.1, cents := p.2 }

/-- `PEAK` (R192). -/
def execPeak (s : State) : Host.Outcome State Fault Refusal := runCommand .peak bodyPeak s

/-! ## The standalone commands -/

/-- `body(B2F)` (R195). -/
def bodyB2f (s : State) : State := { s with out0 := b2f s.cfg.binw s.latched.arg0.toNat }

/-- `B2F` (R195). -/
def execB2f (s : State) : Host.Outcome State Fault Refusal := runCommand .b2f bodyB2f s

/-- `body(F2B)` (R196). -/
def bodyF2b (s : State) : State :=
  { s with out0 := BitVec.ofNat 32 (f2b s.cfg.n s.cfg.fs s.latched.arg0.toNat s.latched.rnd) }

/-- `F2B` (R196). -/
def execF2b (s : State) : Host.Outcome State Fault Refusal := runCommand .f2b bodyF2b s

/-- `body(NOTE)` (R197). -/
def bodyNote (s : State) : State :=
  match nearest s.rom.noteTable s.latched.arg0.toNat with
  | some (idx, c) => { s with out0 := noteWord idx, out1 := centsWord c }
  | none => { s with out0 := 0, out1 := 0 }

/-- `NOTE` (R197). -/
def execNote (s : State) : Host.Outcome State Fault Refusal := runCommand .note bodyNote s

/-- `body(CENTS)` (R198). -/
def bodyCents (s : State) : State :=
  { s with out0 := centsWord (cents s.latched.arg0.toNat s.latched.arg1.toNat) }

/-- `CENTS` (R198). -/
def execCents (s : State) : Host.Outcome State Fault Refusal := runCommand .cents bodyCents s

end Sys2Proof.Machine
end

