-- ==== Sys2Proof/Machine/Transform.lean ====
section
/-! DEFINITION. The spectral-magnitude core (42_transform.md): `XFORM`. -/

namespace Sys2Proof.Machine

/-- The spectrum of a decimated frame (R171): bin 0 is 0 (R173), the others the zero-extended magnitudes (R172). -/
def magnitudes (n b : Nat) (d : List Sample) : List SpecWord :=
  (List.range b).map (fun k => if k = 0 then 0 else (Config.mag n d k).setWidth 128)

/-- `DEC[0 … N−1]`, and the state after reading it (R171). -/
def readDec (s : State) : List Sample × State := readAll s.dec (List.range s.cfg.n) s

/-- `body(XFORM)` (R171). -/
def bodyXform (s : State) : State :=
  let r := readDec s
  writeSpecs 0 (magnitudes s.cfg.n s.cfg.b r.1) r.2

/-- `XFORM` (R171). -/
def execXform (s : State) : Host.Outcome State Fault Refusal := runCommand .xform bodyXform s

end Sys2Proof.Machine
end

