-- ==== Sys2Proof/Machine/Pipeline.lean ====
section
/-! DEFINITION. The full pipeline (46_run.md): `RUN`. -/

namespace Sys2Proof.Machine

/-- `body(RUN)` (R240, R241): the four stages in order, each on the state the previous one left. -/
def bodyRun (s : State) : State := bodyPeak (bodyHps (bodyXform (bodyFilt s)))

/-- `RUN` (R241). -/
def execRun (s : State) : Host.Outcome State Fault Refusal := runCommand .run bodyRun s

end Sys2Proof.Machine
end

