-- ==== Sys2Proof/Machine/Dispatch.lean ====
section
/-! DEFINITION. The meaning of each command: one arm per row of the opcode table. -/

namespace Sys2Proof.Machine

def exec (i : Instr) (s : State) : Host.Outcome State Fault Refusal :=
  match i with
  | .nop => Sys2Proof.Machine.execNop s
  | .run => Sys2Proof.Machine.execRun s
  | .filt => Sys2Proof.Machine.execFilt s
  | .xform => Sys2Proof.Machine.execXform s
  | .hps => Sys2Proof.Machine.execHps s
  | .peak => Sys2Proof.Machine.execPeak s
  | .firclr => Sys2Proof.Machine.execFirclr s
  | .b2f => Sys2Proof.Machine.execB2f s
  | .f2b => Sys2Proof.Machine.execF2b s
  | .note => Sys2Proof.Machine.execNote s
  | .cents => Sys2Proof.Machine.execCents s

end Sys2Proof.Machine
end

