-- ==== Sys2Proof/Machine/Bus.lean ====
section
/-! DEFINITION. Host accesses to the aperture (20_memory.md rules R70 to R82). -/

namespace Sys2Proof.Machine

/-- R72: the only accesses the block takes are 32 bits wide at a word-aligned offset. -/
def accessOk (addr : Offset) (width : Nat) : Bool := width == 32 && addr.toNat % 4 == 0

/-! ## Reads -/

/-- The value of a register (R21 to R42). -/
def readReg (r : Reg) (s : State) : Word :=
  match r with
  | .id => 0x4D475431
  | .ctrl => s.ctrl.word
  | .config => s.config.word
  | .fs => s.fs.setWidth 32
  | .hpslo => s.hpslo.setWidth 32
  | .binw => s.binw
  | .cmd => 0
  | .status => s.statusWord
  | .cursor => s.cursor.setWidth 32
  | .thresh l => limb s.thresh l.val
  | .arg0 => s.arg0
  | .arg1 => s.arg1
  | .out0 => s.out0
  | .out1 => s.out1
  | .result => s.result
  | .freq => s.freq
  | .cents => s.cents
  | .peakbin => s.peakbin.setWidth 32
  | .peakmag l => limb s.peakmag l.val
  | .sampleIn => 0
  | .notecount => (BitVec.ofNat 8 s.rom.noteTable.length).setWidth 32
  | .firtaps => (BitVec.ofNat 9 s.rom.firCoef.length).setWidth 32

/-- The word at a target, and the state after reading it: only reading an entry never written changes the state, and
then only the model's own fields (R75, R79 to R82). Log entry 20. -/
def readTarget (t : Target) (s : State) : Word × State :=
  match t with
  | .reg r => (readReg r s, s)
  | .noteTab j => (s.rom.noteTable.getD j 0, s)
  | .firCoef k => (sext32 (s.rom.firCoef.getD k 0), s)
  | .firDl m => (sext32 (s.dl.getD m 0), s)
  | .dec j =>
    let r := readOr (s.dec j) s
    (sext32 r.1, r.2)
  | .spec k l =>
    let r := readOr (s.spec k) s
    (limb r.1 l, r.2)
  | .inp a =>
    let r := readOr (s.inp a) s
    (sext32 r.1, r.2)
  | .reserved => (0, s)

/-- The targets whose reads are unspecified while busy (R292). Log entry 6. -/
def unspecifiedWhileBusy (t : Target) : Bool :=
  match t with
  | .reg .out0 | .reg .out1 | .reg .result | .reg .freq | .reg .cents | .reg .peakbin | .reg (.peakmag _) => true
  | .firDl _ | .dec _ | .spec _ _ => true
  | _ => false

/-- `MemRead` of an access that passes R72 (R75), with the busy rule R292. -/
def memRead (addr : Offset) (s : State) : Word × State :=
  let t := targetOf addr.toNat
  if s.busy && unspecifiedWhileBusy t then (freeValue 32 s, drawn s) else readTarget t s

/-- A host read (R73, R75). -/
def hostRead (addr : Offset) (width : Nat) (s : State) : State :=
  if accessOk addr width then
    let r := memRead addr s
    { r.2 with resp := .data r.1 }
  else { s with resp := .busError addr }

/-! ## Writes -/

/-- A register write other than to `CMD` (R76); registers that are read-only ignore it. -/
def writeReg (r : Reg) (v : Word) (s : State) : State :=
  match r with
  | .ctrl => writeCtrl v s
  | .config => writeConfig v s
  | .fs => writeFs v s
  | .hpslo => writeHpslo v s
  | .status => writeStatus v s
  | .thresh l => { s with thresh := setLimb s.thresh l.val v }
  | .arg0 => { s with arg0 := v }
  | .arg1 => { s with arg1 := v }
  | .sampleIn => captureEvent (v.extractLsb' 0 16) s
  | .id | .binw | .cmd | .cursor | .out0 | .out1 | .result | .freq | .cents | .peakbin | .peakmag _ | .notecount
  | .firtaps => s

/-- `write_DEC` (R81); while busy a model fault, after which the entry holds a free value (log entry 11). -/
def hostWriteDec (j : Nat) (v : Word) (s : State) : State :=
  if s.busy then writeDec j (freeValue 16 s) (modelFault .decWriteWhileBusy (drawn s))
  else writeDec j (v.extractLsb' 0 16) s

/-- `write_SPEC` (R82): the other limbs of an entry never written are then 0; while busy a model fault, after which the
entry holds a free value (log entry 11). -/
def hostWriteSpec (k l : Nat) (v : Word) (s : State) : State :=
  if s.busy then writeSpec k (freeValue 128 s) (modelFault .specWriteWhileBusy (drawn s))
  else writeSpec k (setLimb ((s.spec k).getD 0) l v) s

/-- A write to a target other than `CMD` (R76). -/
def writeTarget (t : Target) (v : Word) (s : State) : State :=
  match t with
  | .reg r => writeReg r v s
  | .dec j => hostWriteDec j v s
  | .spec k l => hostWriteSpec k l v s
  | .noteTab _ | .firCoef _ | .firDl _ | .inp _ | .reserved => s

/-- A `CMD` write (R121): checks 1 and 2, then the decoded command is offered to the idle engine. -/
def offer (w : Word) (s : State) : Host.Outcome State Fault Refusal :=
  if s.busy then .next (raiseError .busy s)
  else
    match decode w with
    | .error _ => .next (raiseError .badcmd s)
    | .ok i => exec i s

/-- A host write (R73, R76). -/
def hostWrite (addr : Offset) (width : Nat) (v : Word) (s : State) : Host.Outcome State Fault Refusal :=
  if accessOk addr width then
    let s1 := { s with resp := .ack }
    let t := targetOf addr.toNat
    if t = .reg .cmd then offer v s1 else .next (writeTarget t v s1)
  else .next { s with resp := .busError addr }

end Sys2Proof.Machine
end

