-- ==== Sys2Proof/Machine/Agents.lean ====
section
/-! DEFINITION. The steps of the three agents (R5, R84). -/

namespace Sys2Proof.Machine

/-- The engine's turn (R123): while a command is held, its next step; an idle engine changes nothing. -/
def engineTurn (s : State) : Host.Outcome State Fault Refusal :=
  match s.eng with
  | .idle => .next s
  | .wait => exec s.latched.op s
  | .exec => exec s.latched.op s

/-- The step an input stands for (R84). -/
def runInput (e : Input) (s : State) : Host.Outcome State Fault Refusal :=
  match e with
  | .hostRead addr width => .next (hostRead addr width s)
  | .hostWrite addr width v => hostWrite addr width v s
  | .capture v => .next (captureEvent v s)
  | .engine => engineTurn s
  | .powerOn => .next (powerOnReset s)

/-- One step (R84): the next queued input; with none queued, the engine's turn (R123). Log entry 1. -/
def agentStep (s : State) : Host.Outcome State Fault Refusal :=
  match s.inputs with
  | [] => engineTurn s
  | e :: rest => runInput e { s with inputs := rest }

/-- The input by which a host offers the word `w` to `CMD` (R121). -/
def cmdInput (w : Word) : Input := .hostWrite cmdOffset 32 w

end Sys2Proof.Machine
end

