-- ==== Sys2Proof/Machine/Step.lean ====
section
/-! DEFINITION. One step of the machine, and how the host places a command where the next step takes it. -/

namespace Sys2Proof.Machine

/-- One step of the block and its agents (R84). -/
def step (s : State) : Host.Outcome State Fault Refusal := agentStep s

/-- `s` with a host write of a table word to `CMD` as the very next input. Log entry 3. -/
def State.withFetchWord (s : State) (nbits w : Nat) : State :=
  { s with inputs := cmdInput (cmdWordOf nbits w) :: s.inputs }

end Sys2Proof.Machine
end

