-- ==== Sys2Proof/Safety.lean ====
section
/-! DEFINITION. The terms claims use: what holds of every state the block reaches, what a claim about hardware assumes,
and runs of queued inputs. -/

namespace Sys2Proof.Safety

open Sys2Proof.Machine

/-- No `model_fault` is recorded: only then is a state the hardware's (R11, D40). -/
def FaultFree (s : State) : Prop := s.faults = []

/-- The memory cells are in canonical form. -/
def MemoryOk (s : State) : Prop := s.mem.wf = true

/-- What ties the control state together, whatever faults are recorded. -/
structure ControlOk (s : State) : Prop where
  /-- `DL` has `T − 1` entries (R47). -/
  dl : s.dl.length = s.rom.firCoef.length - 1
  /-- While started the configuration is legal (R131). -/
  legal : s.ctrl.en = true → legalConfig s = true
  /-- While started `cfg` equals the registers (R53). -/
  cfg : s.ctrl.en = true → s.cfg = cfgOfRegisters s
  /-- A running command that needs the block started runs on a started block (R121, R130). -/
  started : s.eng ≠ .idle → needsEN s.latched.op = true → s.ctrl.en = true
  /-- Only `FILT` and `RUN` wait (R121). -/
  waits : s.eng = .wait → claimsSlot s.latched.op = true
  /-- `CENTS` runs on nonzero operands (R121). -/
  cents : s.eng ≠ .idle → s.latched.op = .cents → s.latched.arg0 ≠ 0 ∧ s.latched.arg1 ≠ 0
  /-- `CURCMD` is the running command's opcode (R30). -/
  curcmd : s.eng ≠ .idle → s.curcmd = opcode s.latched.op
  /-- A stopped block has both slots empty and the cursor at 0 (R228 item 1). -/
  stopped : s.ctrl.en = false → s.slot0 = .empty ∧ s.slot1 = .empty ∧ s.cursor = 0
  /-- While started the cursor is in `0 … 2·ND − 1` (R31). -/
  cursor : s.ctrl.en = true → s.cursor.toNat < 2 * s.nd

/-- `IN[a]` has been written since reset (R56). -/
def InWritten (s : State) (a : Nat) : Prop := (s.inp a).isSome = true

/-- What has been captured is in `IN`: the part of the slot the cursor has passed, and the whole of a slot that is
`READY` or `CLAIMED` (R85, R225). -/
structure FramesWritten (s : State) : Prop where
  partly : s.ctrl.en = true → ∀ n, n < s.curPos → InWritten s (s.slotBase s.curSlot + n)
  wholly : ∀ b, s.slot b = .ready ∨ s.slot b = .claimed → ∀ n, n < s.nd → InWritten s (s.slotBase b + n)

/-- Empty, or being filled. -/
def Filling (s : State) (b : Bool) : Prop := s.slot b = .empty ∨ s.slot b = .filling

/-- Full: ready, or claimed. -/
def Full (s : State) (b : Bool) : Prop := s.slot b = .ready ∨ s.slot b = .claimed

/-- The hand-off of the slots (R228): which slot is filling, which is claimed, and that frames wait in arrival order. -/
structure HandoffOk (s : State) : Prop where
  /-- A partly written slot is `FILLING` (R228 item 2). -/
  filling : s.ctrl.en = true → s.curPos ≠ 0 → s.slot s.curSlot = .filling
  /-- Only the slot at the cursor is `FILLING`, and only between its first and last sample (R224). -/
  fillingOnly : ∀ b, s.slot b = .filling → s.curSlot = b ∧ s.curPos ≠ 0
  /-- A slot is `CLAIMED` exactly while a `FILT` or `RUN` executes, and it is `latched.SLOT` (R228 item 3). -/
  claimed : ∀ b, s.slot b = .claimed ↔ s.eng = .exec ∧ claimsSlot s.latched.op = true ∧ s.latched.slot = b
  /-- The full slots are the last frames captured, the earlier one in `RDSLOT` (R228 item 4, R85): no slot is full and
  the cursor is in `RDSLOT`; or only `RDSLOT` is full and the cursor is in the other; or both are full and the cursor is
  back at the start of `RDSLOT`. -/
  order : s.ctrl.en = true →
    (s.curSlot = s.rdslot ∧ Filling s s.rdslot ∧ s.slot (!s.rdslot) = .empty) ∨
    (s.curSlot = !s.rdslot ∧ Full s s.rdslot ∧ Filling s (!s.rdslot)) ∨
    (s.curSlot = s.rdslot ∧ s.curPos = 0 ∧ Full s s.rdslot ∧ s.slot (!s.rdslot) = .ready)

/-- The result registers agree with each other (R35, R37): `VALID` and `GATED` are never both 1, the reserved bits are
0, and without `VALID` the note index and the cents are 0. -/
structure ResultOk (s : State) : Prop where
  exclusive : ¬(s.result.getLsbD 31 = true ∧ s.result.getLsbD 30 = true)
  reservedBits : s.result.extractLsb' 7 23 = 0#23
  noNote : s.result.getLsbD 31 = false → s.result.extractLsb' 0 7 = 0#7
  noCents : s.result.getLsbD 31 = false → s.cents = 0

/-- The ROMs conform to R6 and R7. -/
def RomOk (s : State) : Prop := wfNoteTable s.rom.noteTable = true ∧ wfFirCoef s.rom.firCoef = true

/-! ## Runs of inputs -/

/-- The steps the inputs `es` stand for, one after another from `s` (R84). -/
def runInputs (es : List Input) (s : State) : Host.Outcome State Fault Refusal :=
  Sys2Proof.core.run es.length { s with inputs := es }

/-- Engine turns, capture events and host reads: no host write and no power-on reset. -/
def NoHostWrite (es : List Input) : Prop :=
  ∀ e ∈ es, e = .engine ∨ (∃ v, e = .capture v) ∨ ∃ addr width, e = .hostRead addr width

/-- The codes of the capture events among the inputs. -/
def captures (es : List Input) : List (BitVec 16) :=
  es.filterMap fun e =>
    match e with
    | .capture v => some v
    | .hostRead _ _ | .hostWrite _ _ _ | .engine | .powerOn => none

end Sys2Proof.Safety
end

