-- ==== Sys2Proof/Certificates/Slice0/Obligations.lean ====
section
/-! DEFINITION. The statements about the model: each says of the machine what a rule of the spec says of the block. A
statement about a step also says how the model's own fields move, which no rule gives: the input it takes (log entry 1),
the bus response (log entry 2), the count of free values (log entry 9), and that the machine goes on after a model fault
(log entry 10). -/

open Sys2Proof Sys2Proof.Machine Sys2Proof.Safety

/-! ## Decoding -/

/-- R103, with the opcodes of R101: a `CMD` word is a command exactly when all its 32 bits are that command's opcode
value. -/
def Obligations.DecodeIsTheOpcodeMap : Prop :=
  ∀ w : Word,
    (decode w = .ok .nop ↔ w = 0x00) ∧ (decode w = .ok .run ↔ w = 0x01) ∧ (decode w = .ok .filt ↔ w = 0x02) ∧
    (decode w = .ok .xform ↔ w = 0x03) ∧ (decode w = .ok .hps ↔ w = 0x04) ∧ (decode w = .ok .peak ↔ w = 0x05) ∧
    (decode w = .ok .firclr ↔ w = 0x06) ∧ (decode w = .ok .b2f ↔ w = 0x07) ∧ (decode w = .ok .f2b ↔ w = 0x08) ∧
    (decode w = .ok .note ↔ w = 0x09) ∧ (decode w = .ok .cents ↔ w = 0x0A)

/-- Decode and encode agree (R71, R100): byte lanes decode to a well-formed command exactly when they start with the four
lanes of its word, and leave the lanes after those; and a table word decodes to it exactly when its low 32 bits are that
word. -/
def Obligations.DecodeInvertsEncode : Prop :=
  ∀ i : Instr, i.wf = true →
    (∀ bs rest : List Byte, decodeBytes bs = .ok (i, rest) ↔ bs = lanesOfWord (encode i) ++ rest) ∧
    ∀ w : Nat, decodeTableWord 32 w = some i ↔ w % 2 ^ 32 = (encode i).toNat

/-- A few words of R101 and R108: `RUN` is `0x00000001`, `CENTS` is `0x0000000A`, and `0x0000010B` and `0x00000100` are
illegal. -/
def Obligations.SpecExampleWordsDecode : Prop :=
  decodeTableWord 32 0x00000001 = some .run ∧ decodeTableWord 32 0x0000000A = some .cents ∧
    decodeTableWord 32 0x0000010B = none ∧ decodeTableWord 32 0x00000100 = none

/-- R102: an illegal word written to `CMD` starts nothing and raises `BADCMD`, or `BUSY` while a command is held, which
R121 checks first. -/
def Obligations.IllegalWordRaisesBadCmd : Prop :=
  ∀ (s : State) (w : Word) (rest : List Input),
    s.inputs = .hostWrite 0x018 32 w :: rest → (w.toNat / 256 ≠ 0 ∨ 0x0B ≤ w.toNat % 256) →
    step s = .next { s with
      inputs := rest
      resp := .ack
      err := s.err.or (some (if s.eng = .idle then .badcmd else .busy)) }

/-! ## The step -/

/-- The step decodes the word a host writes to `CMD` of an idle block and runs that command on the state with the input
taken and the bus answered; and so does the step after `withFetchWord` (R121). -/
def Obligations.StepRunsOfferedCommand : Prop :=
  (∀ (s : State) (w : Word) (i : Instr) (rest : List Input),
    s.inputs = .hostWrite 0x018 32 w :: rest → s.eng = .idle → decode w = .ok i →
    step s = exec i { s with inputs := rest, resp := .ack }) ∧
  (∀ (s : State) (w : Nat) (i : Instr),
    s.eng = .idle → decodeTableWord 32 w = some i → step (s.withFetchWord 32 w) = exec i { s with resp := .ack })

/-- R123: the engine's turn, when no input is queued or one gives it the turn, is one step of the command it holds; an
idle engine changes nothing. -/
def Obligations.StepRunsHeldCommand : Prop :=
  ∀ s : State,
    (s.inputs = [] → step s = if s.eng = .idle then .next s else exec s.latched.op s) ∧
    (∀ rest, s.inputs = .engine :: rest →
      step s = if s.eng = .idle then .next { s with inputs := rest } else exec s.latched.op { s with inputs := rest })

/-- The machine never stops: every state has a next state (R251: once accepted a command cannot fail; D40: a model fault
is recorded, not a stop — the model's choice, log entry 10). -/
def Obligations.StepAlwaysAnswers : Prop :=
  ∀ s : State, ∃ t, step s = .next t

/-! ## The command lifecycle -/

/-- R121, R258: a word written to `CMD` runs the checks `BUSY`, `BADCMD`, `NOTEN`, `ARG` in that order; the first that
fails is raised and nothing else changes; if none fails the command is accepted and its operands latched. -/
def Obligations.CommandChecksRunInOrder : Prop :=
  ∀ (s : State) (w : Word) (rest : List Input), s.inputs = .hostWrite 0x018 32 w :: rest →
    step s = .next (
      let u : State := { s with inputs := rest, resp := .ack }
      if s.eng ≠ .idle then { u with err := s.err.or (some .busy) }
      else
        match decode w with
        | .error _ => { u with err := s.err.or (some .badcmd) }
        | .ok i =>
          if i ∈ [Instr.run, .filt, .xform, .hps, .peak, .b2f, .f2b] ∧ s.ctrl.en = false then
            { u with err := s.err.or (some .noten) }
          else if i = .cents ∧ (s.arg0 = 0 ∨ s.arg1 = 0) then { u with err := s.err.or (some .arg) }
          else
            { u with
              latched := { op := i, rnd := s.ctrl.rnd, thresh := s.thresh, arg0 := s.arg0, arg1 := s.arg1,
                           slot := s.latched.slot }
              curcmd := w.setWidth 8
              done := false
              eng := if i = .run ∨ i = .filt then .wait else .exec })

/-- R229: a waiting `FILT` or `RUN` claims the read slot once it is `READY`, and until then the engine changes nothing. -/
def Obligations.ClaimTakesTheReadySlot : Prop :=
  ∀ (s : State) (i : Instr), i = .filt ∨ i = .run → s.eng = .wait →
    (s.slot s.rdslot ≠ .ready → exec i s = .next s) ∧
    (s.slot s.rdslot = .ready →
      exec i s = .next { s with
        slot0 := if s.rdslot then s.slot0 else .claimed
        slot1 := if s.rdslot then .claimed else s.slot1
        latched := { s.latched with slot := s.rdslot }
        eng := .exec })

/-- R124, R125: an executing `NOP` completes, and changes nothing but `BUSY` and `DONE`. -/
def Obligations.NopCompletes : Prop :=
  ∀ s : State, s.eng = .exec → exec .nop s = .next { s with eng := .idle, done := true }

/-- R122: while a command is held, no step but a reset changes the operands it latched; only its claim sets the latched
slot. -/
def Obligations.HeldCommandKeepsItsOperands : Prop :=
  ∀ s t : State, s.eng ≠ .idle → (∀ rest, s.inputs ≠ .powerOn :: rest) →
    (∀ v rest, v.getLsbD 31 = true → s.inputs ≠ .hostWrite 0x004 32 v :: rest) → step s = .next t →
    t.latched = { s.latched with slot := t.latched.slot } ∧ (s.eng = .exec → t.latched.slot = s.latched.slot)

/-- R251: no capture event and no step of the engine raises an error. -/
def Obligations.EngineAndCaptureRaiseNoError : Prop :=
  ∀ s t : State,
    (s.inputs = [] ∨ (∃ rest, s.inputs = .engine :: rest) ∨ ∃ v rest, s.inputs = .capture v :: rest) →
    step s = .next t → t.err = s.err

/-! ## FIRCLR and FILT -/

/-- R155: `FIRCLR` sets the `T − 1` entries of the delay line to 0 and changes nothing else but `BUSY` and `DONE`. -/
def Obligations.FirclrClearsDelayLine : Prop :=
  ∀ s : State, s.eng = .exec →
    exec .firclr s =
      .next { s with dl := List.replicate (s.rom.firCoef.length - 1) 0, eng := .idle, done := true }

/-- R150 to R153: `FILT` on a claimed slot whose entries are written puts the rounded, saturated FIR sums at the last
sample of each group of `D` in `DEC[0 … N−1]`, keeps the last `T − 1` raw samples in `DL`, releases the slot and toggles
`RDSLOT`; no other byte and no other state changes. -/
def Obligations.FiltDecimatesTheFrame : Prop :=
  ∀ (s : State) (x : Nat → Sample),
    s.eng = .exec → 1 ≤ s.cfg.d → s.cfg.n ≤ 4096 →
    (∀ a, a < s.cfg.n * s.cfg.d →
      s.inp ((if s.latched.slot then s.cfg.n * s.cfg.d else 0) + a) = some (x a)) →
    let w : Int → Int := fun n => if 0 ≤ n then (x n.toNat).toInt else (s.dl.getD (-n - 1).toNat 0).toInt
    let acc : Int → Int := fun n =>
      ∑ k ∈ Finset.range s.rom.firCoef.length, (s.rom.firCoef.getD k 0).toInt * w (n - k)
    ∃ t, exec .filt s = .next t ∧
      (∀ j, j < s.cfg.n →
        t.dec j = some (BitVec.ofInt 16
          (min 32767 (max (-32768) ((acc (j * s.cfg.d + s.cfg.d - 1) + 2 ^ 14) / 2 ^ 15))))) ∧
      t.dl.length = s.rom.firCoef.length - 1 ∧
      (∀ m, m < s.rom.firCoef.length - 1 →
        (t.dl.getD m 0).toInt = w ((s.cfg.n * s.cfg.d : Nat) - 1 - (m : Int))) ∧
      (∀ a, (∀ j, j < s.cfg.n → a < 0x4000 + 4 * j ∨ 0x4000 + 4 * j + 2 ≤ a) → t.mem.byte a = s.mem.byte a) ∧
      t = { s with
        mem := t.mem
        dl := t.dl
        slot0 := if s.latched.slot then s.slot0 else .empty
        slot1 := if s.latched.slot then .empty else s.slot1
        rdslot := !s.rdslot
        eng := .idle
        done := true }

/-! ## XFORM -/

/-- R171, R172: `XFORM` on a written frame `d` sets `SPEC[0]` to 0 and `SPEC[k]`, `1 ≤ k < B`, to the zero-extended
magnitude of `d`; an all-zero frame gives an all-zero spectrum (M4); no other byte and no other state changes. -/
def Obligations.XformWritesMagnitudes : Prop :=
  ∀ (s : State) (d : List Sample),
    s.eng = .exec → s.cfg.b ≤ 2048 → d.length = s.cfg.n →
    (∀ j, j < s.cfg.n → s.dec j = some (d.getD j 0)) →
    ∃ t, exec .xform s = .next t ∧
      (1 ≤ s.cfg.b → t.spec 0 = some 0) ∧
      (∀ k, 1 ≤ k → k < s.cfg.b → t.spec k = some ((Config.mag s.cfg.n d k).setWidth 128)) ∧
      ((∀ j, j < s.cfg.n → d.getD j 0 = 0) → ∀ k, k < s.cfg.b → t.spec k = some 0) ∧
      (∀ a, a < 0x8000 ∨ 0x8000 + 16 * s.cfg.b ≤ a → t.mem.byte a = s.mem.byte a) ∧
      t = { s with mem := t.mem, eng := .idle, done := true }

/-- R170, R172 M2: if the block's magnitude function is within `MAG_TOL = tol` of the reference transform, then so is
every bin `1 ≤ k < B` that `XFORM` writes, for each of the eight frame lengths. -/
def Obligations.XformIsNearTheReference : Prop :=
  ∀ (tol : ℝ) (s : State) (l : Nat) (d : List Sample),
    Config.MagAccurate Config.magImpl tol →
    s.eng = .exec → 5 ≤ l → l ≤ 12 → s.cfg.n = 2 ^ l → s.cfg.b = 2 ^ (l - 1) → d.length = 2 ^ l →
    (∀ j, j < 2 ^ l → s.dec j = some (d.getD j 0)) →
    ∃ t, exec .xform s = .next t ∧
      ∀ k, 1 ≤ k → k < 2 ^ (l - 1) → ∃ v, t.spec k = some v ∧ Config.NearReference (2 ^ l) d k tol v.toNat

/-- R173: `SPEC[0]` is exactly 0 after every `XFORM` and every `RUN`, whatever was captured. -/
def Obligations.SpecZeroAfterXformAndRun : Prop :=
  ∀ s : State, s.eng = .exec → 1 ≤ s.cfg.b → s.cfg.b ≤ 2048 →
    (∃ t, exec .xform s = .next t ∧ t.spec 0 = some 0) ∧
    (1 ≤ s.cfg.hpslo → ∃ t, exec .run s = .next t ∧ t.spec 0 = some 0)

/-! ## HPS -/

/-- R181, R182: on a written spectrum `S`, the in-place scan of `HPS` leaves in every candidate bin `HPSLO ≤ i`, `2i < B`
the product, modulo `2^128`, of the ORIGINAL words at `i` and its in-range harmonics 2 to 4, and every other bin as it
was; no other byte and no other state changes. -/
def Obligations.HpsClosedForm : Prop :=
  ∀ (s : State) (S : Nat → SpecWord),
    s.eng = .exec → (∀ x, x < s.cfg.b → s.spec x = some (S x)) →
    ∃ t, exec .hps s = .next t ∧
      (∀ i, s.cfg.hpslo ≤ i → 2 * i < s.cfg.b → ∃ v, t.spec i = some v ∧
        v.toNat = ((S i).toNat *
          ∏ k ∈ ({2, 3, 4} : Finset Nat).filter (fun k => k * i < s.cfg.b), (S (k * i)).toNat) % 2 ^ 128) ∧
      (∀ x, x < s.cfg.b → ¬(s.cfg.hpslo ≤ x ∧ 2 * x < s.cfg.b) → t.spec x = some (S x)) ∧
      (∀ a, (∀ i, s.cfg.hpslo ≤ i → 2 * i < s.cfg.b → a < 0x8000 + 16 * i ∨ 0x8000 + 16 * i + 16 ≤ a) →
        t.mem.byte a = s.mem.byte a) ∧
      t = { s with mem := t.mem, eng := .idle, done := true }

/-- R183: on a spectrum of magnitudes (every word below `2^32`) no product of `HPS` wraps. -/
def Obligations.HpsOfMagnitudesNeverWraps : Prop :=
  ∀ (s : State) (S : Nat → SpecWord),
    s.eng = .exec → (∀ x, x < s.cfg.b → s.spec x = some (S x) ∧ (S x).toNat < 2 ^ 32) →
    ∃ t, exec .hps s = .next t ∧
      ∀ i, s.cfg.hpslo ≤ i → 2 * i < s.cfg.b → ∃ v, t.spec i = some v ∧
        v.toNat = (S i).toNat *
          ∏ k ∈ ({2, 3, 4} : Finset Nat).filter (fun k => k * i < s.cfg.b), (S (k * i)).toNat

/-! ## The mapper -/

/-- R190, R192: on a written spectrum `S`, `PEAK` takes the lowest bin that holds the greatest word, and writes
`PEAKBIN`, `PEAKMAG` and `FREQ` whether or not the peak is below `latched.THRESH`; below it the result is gated, else it
is the nearest note of `FREQ`, or none. -/
def Obligations.PeakPicksFirstMaximum : Prop :=
  ∀ (s : State) (S : Nat → SpecWord),
    s.eng = .exec → 1 ≤ s.cfg.b → (∀ x, x < s.cfg.b → s.spec x = some (S x)) →
    ∃ pk, pk < s.cfg.b ∧ (∀ k, k < s.cfg.b → (S k).toNat ≤ (S pk).toNat) ∧
      (∀ k, k < pk → (S k).toNat < (S pk).toNat) ∧
      let f : Word := BitVec.ofNat 32 (pk * s.cfg.binw)
      exec .peak s = .next { s with
        peakbin := BitVec.ofNat 11 pk
        peakmag := S pk
        freq := f
        result :=
          if (S pk).toNat < s.latched.thresh.toNat then 0x40000000
          else match nearest s.rom.noteTable f.toNat with
            | some (idx, _) => 0x80000000 ||| BitVec.ofNat 32 idx
            | none => 0
        cents :=
          if (S pk).toNat < s.latched.thresh.toNat then 0
          else match nearest s.rom.noteTable f.toNat with
            | some (_, c) => BitVec.ofInt 32 c
            | none => 0
        eng := .idle
        done := true }

/-- R184: a spectrum of magnitudes with energy only at bins `i`, `2i`, `3i`, `4i`, each at least 1, with `HPSLO ≤ i` and
`4i < B`: after `HPS` (and its completion) an executing `PEAK` finds bin `i`, with the product of the four. -/
def Obligations.HpsThenPeakFindsFundamental : Prop :=
  ∀ (s t : State) (S : Nat → SpecWord) (i : Nat),
    s.eng = .exec → s.cfg.b ≤ 2048 → 1 ≤ i → s.cfg.hpslo ≤ i → 4 * i < s.cfg.b →
    (∀ x, x < s.cfg.b → s.spec x = some (S x) ∧ (S x).toNat < 2 ^ 32) →
    (∀ x, x < s.cfg.b → (S x ≠ 0 ↔ x = i ∨ x = 2 * i ∨ x = 3 * i ∨ x = 4 * i)) →
    exec .hps s = .next t →
    ∃ u, exec .peak { t with eng := .exec } = .next u ∧ u.peakbin.toNat = i ∧
      u.peakmag.toNat = (S i).toNat * (S (2 * i)).toNat * (S (3 * i)).toNat * (S (4 * i)).toNat

/-- R193, R195: `B2F` writes the product of the latched bin index and the bin width to `OUT0`, modulo `2^32`; for a bin
below `B` of a started block nothing wraps, and `OUT0` is that bin's frequency in Q16.16 exactly. -/
def Obligations.B2fWritesTheBinFrequency : Prop :=
  ∀ s : State, s.eng = .exec →
    exec .b2f s = .next { s with
      out0 := BitVec.ofNat 32 (s.latched.arg0.toNat * s.cfg.binw), eng := .idle, done := true } ∧
    (ControlOk s → s.ctrl.en = true → s.latched.arg0.toNat < s.cfg.b →
      s.latched.arg0.toNat * s.cfg.binw < 2 ^ 32 ∧
      s.latched.arg0.toNat * s.cfg.binw * s.cfg.n = s.latched.arg0.toNat * s.cfg.fs * 2 ^ 16)

/-- R196, R200: `F2B` writes to `OUT0` the bin nearest the latched frequency, an exact half resolved upward when
`latched.RND` is 0 and downward when it is 1; the result is below `2^29` and nothing else changes. -/
def Obligations.F2bRoundsToNearestBin : Prop :=
  ∀ s : State, s.eng = .exec → 1 ≤ s.cfg.fs → s.cfg.n ≤ 4096 →
    let q := s.latched.arg0.toNat * s.cfg.n
    let d := s.cfg.fs * 2 ^ 16
    ∃ r, r < 2 ^ 29 ∧
      (s.latched.rnd = false → 2 * d * r ≤ 2 * q + d ∧ 2 * q < 2 * d * r + d) ∧
      (s.latched.rnd = true → 2 * d * r < 2 * q + d ∧ 2 * q ≤ 2 * d * r + d) ∧
      exec .f2b s = .next { s with out0 := BitVec.ofNat 32 r, eng := .idle, done := true }

/-- R191: `cents(F, R)` is the integer within 1/2 of `1200·log2(F/R)`, and lies within 38400 for 32-bit operands. -/
def Obligations.CentsIsTheRoundedLogarithm : Prop :=
  ∀ f r : Nat, 1 ≤ f → 1 ≤ r →
    |1200 * Real.logb 2 ((f : ℝ) / (r : ℝ)) - (cents f r : ℝ)| < 1 / 2 ∧
    (f < 2 ^ 32 → r < 2 ^ 32 → |cents f r| ≤ 38400)

/-- R198: `CENTS` on nonzero latched operands writes to `OUT0` the two's complement of the integer within 1/2 of
`1200·log2(ARG0/ARG1)`; `OUT1` and everything else are unchanged. -/
def Obligations.CentsCommandWritesDeviation : Prop :=
  ∀ s : State, s.eng = .exec → s.latched.arg0 ≠ 0 → s.latched.arg1 ≠ 0 →
    ∃ o : Word, |1200 * Real.logb 2 ((s.latched.arg0.toNat : ℝ) / (s.latched.arg1.toNat : ℝ)) - (o.toInt : ℝ)| < 1 / 2 ∧
      exec .cents s = .next { s with out0 := o, eng := .idle, done := true }

/-- R194, R197: `NOTE` on a conforming note table. Out of range gives none; the top note itself gives the top note with
0 cents; between two neighbours the upper is taken when its rounded cents are at least −50, else the lower. Only `OUT0`
and `OUT1` change. -/
def Obligations.NoteFindsNearestNote : Prop :=
  ∀ s : State, s.eng = .exec → wfNoteTable s.rom.noteTable = true →
    let L := s.rom.noteTable.length
    let NT : Nat → Nat := fun j => (s.rom.noteTable.getD j 0).toNat
    let F := s.latched.arg0.toNat
    (F < NT 0 ∨ NT (L - 1) < F →
      exec .note s = .next { s with out0 := 0, out1 := 0, eng := .idle, done := true }) ∧
    (F = NT (L - 1) →
      exec .note s = .next { s with
        out0 := 0x80000000 ||| BitVec.ofNat 32 (L - 1), out1 := 0, eng := .idle, done := true }) ∧
    (∀ u, 1 ≤ u → u < L → NT (u - 1) ≤ F → F < NT u →
      exec .note s = .next (
        if -50 ≤ cents F (NT u) then
          { s with out0 := 0x80000000 ||| BitVec.ofNat 32 u, out1 := BitVec.ofInt 32 (cents F (NT u)),
                   eng := .idle, done := true }
        else
          { s with out0 := 0x80000000 ||| BitVec.ofNat 32 (u - 1), out1 := BitVec.ofInt 32 (cents F (NT (u - 1))),
                   eng := .idle, done := true }))

/-- R199 (b): with adjacent notes at most 101 cents apart, the nearest note is at most 50 rounded cents away. -/
def Obligations.NearestNoteIsWithinFiftyCents : Prop :=
  ∀ (nt : List Word) (f idx : Nat) (c : Int), wfNoteTable nt = true →
    (∀ j, j + 1 < nt.length → (nt.getD (j + 1) 0).toNat ^ 1200 ≤ (nt.getD j 0).toNat ^ 1200 * 2 ^ 101) →
    nearest nt f = some (idx, c) → idx < nt.length ∧ -50 ≤ c ∧ c ≤ 50

/-! ## RUN -/

/-- R240, R241: `RUN` completes with the state the four stage bodies leave when each runs on what the previous one left,
in the order `FILT`, `XFORM`, `HPS`, `PEAK`. -/
def Obligations.RunIsTheFourStages : Prop :=
  ∀ s : State, s.eng = .exec →
    ∃ s1 s2 s3 s4, exec .filt s = .next s1 ∧ exec .xform { s1 with eng := .exec } = .next s2 ∧
      exec .hps { s2 with eng := .exec } = .next s3 ∧ exec .peak { s3 with eng := .exec } = .next s4 ∧
      exec .run s = .next s4

/-- R56, R241: on a started block an executing `RUN`, whose claimed slot has been captured, reads no unwritten entry: it
records no fault. A command that reads an unwritten entry of `IN`, `DEC` or `SPEC` records `UNWRITTEN` and completes all
the same (log entry 10), with every effect its rule gives without that value: `FILT` and `RUN` on a frame with an unwritten
sample, `XFORM` on such a frame of `DEC`, `HPS` on an unwritten candidate or in-range harmonic of one, `PEAK` on an
unwritten bin. -/
def Obligations.CommandReadsOfUnwrittenEntries : Prop :=
  (∀ s t : State, ControlOk s → FramesWritten s → s.ctrl.en = true → s.eng = .exec →
    s.slot s.latched.slot = .claimed → exec .run s = .next t → t.faults = s.faults) ∧
  ∀ s : State, s.eng = .exec →
    let sample : Nat → Option Sample := fun a => s.inp ((if s.latched.slot then s.cfg.n * s.cfg.d else 0) + a)
    let outsideDec : Nat → Prop := fun a => ∀ j, j < s.cfg.n → a < 0x4000 + 4 * j ∨ 0x4000 + 4 * j + 2 ≤ a
    let outsideSpec : Nat → Prop := fun a => a < 0x8000 ∨ 0x8000 + 16 * s.cfg.b ≤ a
    ((∃ a, a < s.cfg.n * s.cfg.d ∧ sample a = none) →
      (∃ t, exec .filt s = .next t ∧ Fault.unwritten ∈ t.faults ∧
        (∀ a, outsideDec a → t.mem.byte a = s.mem.byte a) ∧
        t = { s with
          mem := t.mem
          dl := t.dl
          slot0 := if s.latched.slot then s.slot0 else .empty
          slot1 := if s.latched.slot then .empty else s.slot1
          rdslot := !s.rdslot
          faults := t.faults
          freeCtr := t.freeCtr
          eng := .idle
          done := true }) ∧
      ∃ t, exec .run s = .next t ∧ Fault.unwritten ∈ t.faults ∧
        (∀ a, outsideDec a → outsideSpec a → t.mem.byte a = s.mem.byte a) ∧
        t = { s with
          mem := t.mem
          dl := t.dl
          slot0 := if s.latched.slot then s.slot0 else .empty
          slot1 := if s.latched.slot then .empty else s.slot1
          rdslot := !s.rdslot
          peakbin := t.peakbin
          peakmag := t.peakmag
          freq := t.freq
          result := t.result
          cents := t.cents
          faults := t.faults
          freeCtr := t.freeCtr
          eng := .idle
          done := true }) ∧
    ((∃ j, j < s.cfg.n ∧ s.dec j = none) →
      ∃ t, exec .xform s = .next t ∧ Fault.unwritten ∈ t.faults ∧
        (∀ a, outsideSpec a → t.mem.byte a = s.mem.byte a) ∧
        t = { s with mem := t.mem, faults := t.faults, freeCtr := t.freeCtr, eng := .idle, done := true }) ∧
    ((∃ i k, s.cfg.hpslo ≤ i ∧ 2 * i < s.cfg.b ∧ 1 ≤ k ∧ k ≤ 4 ∧ k * i < s.cfg.b ∧ s.spec (k * i) = none) →
      ∃ t, exec .hps s = .next t ∧ Fault.unwritten ∈ t.faults ∧
        (∀ a, outsideSpec a → t.mem.byte a = s.mem.byte a) ∧
        t = { s with mem := t.mem, faults := t.faults, freeCtr := t.freeCtr, eng := .idle, done := true }) ∧
    ((∃ k, k < s.cfg.b ∧ s.spec k = none) →
      ∃ t, exec .peak s = .next t ∧ Fault.unwritten ∈ t.faults ∧
        t = { s with
          peakbin := t.peakbin
          peakmag := t.peakmag
          freq := t.freq
          result := t.result
          cents := t.cents
          faults := t.faults
          freeCtr := t.freeCtr
          eng := .idle
          done := true })

/-- R241, R244 (a): `RUN` on a silent frame with a silent delay line and a threshold of at least 1 is gated: bin 0, word
0, 0 Hz, no note and 0 cents, whatever the coefficients and the magnitude function. -/
def Obligations.SilentFrameIsGated : Prop :=
  ∀ s : State, ControlOk s → s.ctrl.en = true → s.eng = .exec →
    (∀ a, a < s.nd → s.inp (s.slotBase s.latched.slot + a) = some 0) → (∀ x ∈ s.dl, x = 0) →
    s.latched.thresh ≠ 0 →
    ∃ t, exec .run s = .next t ∧ t.result = 0x40000000 ∧ t.freq = 0 ∧ t.cents = 0 ∧ t.peakbin = 0 ∧ t.peakmag = 0 ∧
      (∀ k, k < s.cfg.b → t.spec k = some 0)

/-- R242: `RUN` and the sequence `FILT`, `XFORM`, `HPS`, `PEAK`, each run to completion before the next is written, on an
idle started block. With the read slot `READY` and nothing in between, they end in states that differ only in `CURCMD` and
the latched opcode. And so they do, but for the response of the host's last access and the model's count of free values
(log entries 2 and 9), with engine turns, capture events and host reads in between in any order, and whether or not the
slot is `READY` at acceptance, provided the capture events are the same and no fault is recorded (R242's 'no overrun
occurs'). -/
def Obligations.RunEqualsStageCommands : Prop :=
  (∀ s : State, s.eng = .idle → s.ctrl.en = true → s.slot s.rdslot = .ready →
    ∃ t, Sys2Proof.core.run 3 { s with inputs := [.hostWrite 0x018 32 0x01, .engine, .engine] } = .next t ∧
      Sys2Proof.core.run 9 { s with inputs :=
        [.hostWrite 0x018 32 0x02, .engine, .engine, .hostWrite 0x018 32 0x03, .engine,
         .hostWrite 0x018 32 0x04, .engine, .hostWrite 0x018 32 0x05, .engine] } =
        .next { t with curcmd := 0x05, latched := { t.latched with op := .peak } } ∧
      t.curcmd = 0x01 ∧ t.eng = .idle ∧ t.done = true) ∧
  ∀ (s : State) (r r1 r2 r3 r4 : List Input),
    ControlOk s → HandoffOk s → s.eng = .idle → s.ctrl.en = true →
    NoHostWrite (r ++ r1 ++ r2 ++ r3 ++ r4) → captures r = captures (r1 ++ r2 ++ r3 ++ r4) →
    ∃ t u1 u2 u3 u4,
      runInputs (.hostWrite 0x018 32 0x01 :: r) s = .next t ∧
      runInputs (.hostWrite 0x018 32 0x02 :: r1) s = .next u1 ∧
      runInputs (.hostWrite 0x018 32 0x03 :: r2) u1 = .next u2 ∧
      runInputs (.hostWrite 0x018 32 0x04 :: r3) u2 = .next u3 ∧
      runInputs (.hostWrite 0x018 32 0x05 :: r4) u3 = .next u4 ∧
      (t.eng = .idle → u1.eng = .idle → u2.eng = .idle → u3.eng = .idle → u4.eng = .idle →
        FaultFree t → FaultFree u4 →
        u4 = { t with curcmd := 0x05, latched := { t.latched with op := .peak },
                      resp := u4.resp, freeCtr := u4.freeCtr } ∧
          t.curcmd = 0x01 ∧ t.done = true)

/-! ## Control registers, errors and resets -/

/-- R57, R280: what reset leaves, where the spec gives the value. -/
def Obligations.ResetValues : Prop :=
  State.reset.eng = .idle ∧ State.reset.ctrl.word = 0 ∧ State.reset.config.word = 0x000C0000 ∧
    State.reset.fs = 0 ∧ State.reset.hpslo = 0 ∧ State.reset.binw = 0 ∧ State.reset.statusWord = 0 ∧
    State.reset.cursor = 0 ∧ State.reset.thresh = 1 ∧ State.reset.arg0 = 0 ∧ State.reset.arg1 = 0 ∧
    State.reset.out0 = 0 ∧ State.reset.out1 = 0 ∧ State.reset.result = 0 ∧ State.reset.freq = 0 ∧
    State.reset.cents = 0 ∧ State.reset.peakbin = 0 ∧ State.reset.peakmag = 0 ∧
    State.reset.slot0 = .empty ∧ State.reset.slot1 = .empty ∧ State.reset.rdslot = false ∧
    (∀ x ∈ State.reset.dl, x = 0) ∧ (∀ a, State.reset.mem.byte a = none) ∧ State.reset.faults = [] ∧
    State.reset.irq = false

/-- R135, R282, R283: a `CTRL` write with bit 31 set puts the block in its reset state, whatever bits 30 to 0 are and
busy or not, but keeps the fault record; the power-on reset clears that too. Neither loses the inputs to come (log
entry 16). Of `latched` and `cfg`, which R57 and U7 leave open after both resets, the model names the values (log entries
7, 8 and 18), and this statement says that it does. -/
def Obligations.ResetsLeaveTheResetState : Prop :=
  ∀ (s : State) (rest : List Input),
    (∀ v : Word, s.inputs = .hostWrite 0x004 32 v :: rest → v.getLsbD 31 = true →
      step s = .next { State.resetWith s.rom with
        faults := s.faults, freeCtr := s.freeCtr, inputs := rest, resp := .ack }) ∧
    (s.inputs = .powerOn :: rest →
      step s = .next { State.resetWith s.rom with freeCtr := s.freeCtr, inputs := rest })

/-- R130, R131: a `CTRL` write (bit 31 clear) to a stopped block stores `RND`, `RAWIN` and the interrupt enables; with
bit 0 set it is refused with `LOCKED` while busy, else with `CFG` while the configuration is illegal, else it starts the
block: `cfg` is taken from the registers with the `RAWIN` of the same write, and the hand-off and `DL` are cleared. -/
def Obligations.CtrlWriteOfAStoppedBlock : Prop :=
  ∀ (s : State) (v : Word) (rest : List Input),
    s.inputs = .hostWrite 0x004 32 v :: rest → s.ctrl.en = false → v.getLsbD 31 = false →
    step s = .next (
      let l := s.config.log2n.toNat
      let u : State := { s with
        inputs := rest
        resp := .ack
        ctrl := { en := false, rnd := v.getLsbD 1, rawin := v.getLsbD 2, ieDone := v.getLsbD 3,
                  ieErr := v.getLsbD 4, ieFrdy := v.getLsbD 5 } }
      if v.getLsbD 0 = false then u
      else if s.eng ≠ .idle then { u with err := s.err.or (some .locked) }
      else if 5 ≤ l ∧ l ≤ 12 ∧ 1 ≤ s.config.osf.toNat ∧ s.config.osf.toNat ≤ 16 ∧ 8 ≤ s.config.adcw.toNat ∧
          s.config.adcw.toNat ≤ 16 ∧ 1 ≤ s.fs.toNat ∧ 1 ≤ s.hpslo.toNat ∧ s.hpslo.toNat ≤ 2 ^ (l - 1) - 1 then
        { u with
          ctrl := { u.ctrl with en := true }
          cfg := { n := 2 ^ l, b := 2 ^ (l - 1), d := s.config.osf.toNat, fs := s.fs.toNat, hpslo := s.hpslo.toNat,
                   adcw := s.config.adcw.toNat, rawin := v.getLsbD 2, binw := s.fs.toNat * 2 ^ (16 - l) }
          cursor := 0
          slot0 := .empty
          slot1 := .empty
          rdslot := false
          dl := List.replicate (s.rom.firCoef.length - 1) 0 }
      else { u with err := s.err.or (some .cfg) })

/-- R24, R130, R132, R133: a `CTRL` write (bit 31 clear) to a started block stores `RND` and the interrupt enables; a
change of `RAWIN` is dropped and raises `LOCKED`; with bit 0 clear it is refused with `LOCKED` while busy, else it stops
the block: both slots empty, the cursor at 0, and `RDSLOT`, `DL`, the memories and the results kept. -/
def Obligations.CtrlWriteOfAStartedBlock : Prop :=
  ∀ (s : State) (v : Word) (rest : List Input),
    s.inputs = .hostWrite 0x004 32 v :: rest → s.ctrl.en = true → v.getLsbD 31 = false →
    step s = .next (
      let u : State := { s with
        inputs := rest
        resp := .ack
        ctrl := { en := true, rnd := v.getLsbD 1, rawin := s.ctrl.rawin, ieDone := v.getLsbD 3,
                  ieErr := v.getLsbD 4, ieFrdy := v.getLsbD 5 }
        err := if v.getLsbD 2 = s.ctrl.rawin then s.err else s.err.or (some .locked) }
      if v.getLsbD 0 = true then u
      else if s.eng ≠ .idle then { u with err := s.err.or (some .locked) }
      else { u with ctrl := { u.ctrl with en := false }, slot0 := .empty, slot1 := .empty, cursor := 0 })

/-- R25 to R27, R76, R133: `CONFIG`, `FS` and `HPSLO` take a written word's defined fields while the block is stopped;
while it is started the write is ignored and raises `LOCKED`. -/
def Obligations.ConfigurationIsLockedWhileStarted : Prop :=
  ∀ (s : State) (off : Offset) (v : Word) (rest : List Input),
    s.inputs = .hostWrite off 32 v :: rest → off = 0x008 ∨ off = 0x00C ∨ off = 0x010 →
    step s = .next (
      let u : State := { s with inputs := rest, resp := .ack }
      if s.ctrl.en = true then { u with err := s.err.or (some .locked) }
      else if off = 0x008 then
        { u with config := { log2n := v.extractLsb' 0 4, osf := v.extractLsb' 8 5, adcw := v.extractLsb' 16 5 } }
      else if off = 0x00C then { u with fs := v.extractLsb' 0 17 }
      else { u with hpslo := v.extractLsb' 0 11 })

/-- R134: a `STATUS` write clears the W1C flags whose bits are 1, `ERR` together with `ERRCODE`, and nothing else. -/
def Obligations.StatusWriteClearsFlags : Prop :=
  ∀ (s : State) (v : Word) (rest : List Input), s.inputs = .hostWrite 0x01C 32 v :: rest →
    step s = .next { s with
      inputs := rest
      resp := .ack
      done := if v.getLsbD 2 = true then false else s.done
      err := if v.getLsbD 3 = true then none else s.err
      frdy := if v.getLsbD 13 = true then false else s.frdy }

/-- R252, R257: a recorded error is kept, whatever else is raised, until a `STATUS` write with bit 3 set or a reset clears
it. -/
def Obligations.FirstErrorIsKept : Prop :=
  ∀ (s t : State) (c : ErrCode), s.err = some c → step s = .next t →
    t.err = some c ∨
    (t.err = none ∧
      ((∃ rest, s.inputs = .powerOn :: rest) ∨
        (∃ v rest, s.inputs = .hostWrite 0x004 32 v :: rest ∧ v.getLsbD 31 = true) ∨
        ∃ v rest, s.inputs = .hostWrite 0x01C 32 v :: rest ∧ v.getLsbD 3 = true))

/-- R30, R262: a read of `STATUS`, busy or not, shows every field in its place, the slot states by their codes, bit 14 the
interrupt output, and reserved bits 0. -/
def Obligations.StatusReadShowsTheFlags : Prop :=
  ∀ (s : State) (rest : List Input), s.inputs = .hostRead 0x01C 32 :: rest →
    ∃ w : Word, step s = .next { s with inputs := rest, resp := .data w } ∧
      (w.getLsbD 0 = true ↔ s.eng ≠ .idle) ∧ (w.getLsbD 1 = true ↔ s.eng = .wait) ∧
      w.getLsbD 2 = s.done ∧ w.getLsbD 3 = s.err.isSome ∧
      (s.err = none → w.extractLsb' 4 4 = 0) ∧ (s.err = some .cfg → w.extractLsb' 4 4 = 1) ∧
      (s.err = some .locked → w.extractLsb' 4 4 = 2) ∧ (s.err = some .busy → w.extractLsb' 4 4 = 3) ∧
      (s.err = some .noten → w.extractLsb' 4 4 = 4) ∧ (s.err = some .badcmd → w.extractLsb' 4 4 = 5) ∧
      (s.err = some .arg → w.extractLsb' 4 4 = 6) ∧
      (s.slot0 = .empty → w.extractLsb' 8 2 = 0) ∧ (s.slot0 = .filling → w.extractLsb' 8 2 = 1) ∧
      (s.slot0 = .ready → w.extractLsb' 8 2 = 2) ∧ (s.slot0 = .claimed → w.extractLsb' 8 2 = 3) ∧
      (s.slot1 = .empty → w.extractLsb' 10 2 = 0) ∧ (s.slot1 = .filling → w.extractLsb' 10 2 = 1) ∧
      (s.slot1 = .ready → w.extractLsb' 10 2 = 2) ∧ (s.slot1 = .claimed → w.extractLsb' 10 2 = 3) ∧
      w.getLsbD 12 = s.rdslot ∧ w.getLsbD 13 = s.frdy ∧
      (w.getLsbD 14 = true ↔
        s.done = true ∧ s.ctrl.ieDone = true ∨ s.err ≠ none ∧ s.ctrl.ieErr = true ∨
          s.frdy = true ∧ s.ctrl.ieFrdy = true) ∧
      w.getLsbD 15 = false ∧ w.extractLsb' 16 8 = s.curcmd ∧ w.extractLsb' 24 8 = 0

/-- R21 to R40, R75, R292, R22, R76: the registers as a host reads them (`STATUS`, `NOTECOUNT` and `FIRTAPS` have
statements of their own), and writes to the read-only ones. Busy or not, `ID`, `CTRL`, `CONFIG`, `FS`, `HPSLO`, `CURSOR`,
the limbs of `THRESH` and the operands read exactly, `CMD` and `SAMPLE_IN` read 0, and `BINW` is computed from the current
registers: for a legal `LOG2N` it is `FS·2^(16−LOG2N)` exactly, so that `BINW·B = FS·2^15`, and else 0. The result
registers read exactly while idle; while busy such a read gives some word, for which the model counts one free value (log
entry 9). A write to a read-only register is acknowledged and ignored. -/
def Obligations.RegisterReadsAndReadOnlyWrites : Prop :=
  ∀ (s : State) (v : Word) (rest : List Input),
    (∀ p ∈ ([(0x000, 0x4D475431),
        (0x004, BitVec.ofNat 32 (s.ctrl.en.toNat + 2 * s.ctrl.rnd.toNat + 4 * s.ctrl.rawin.toNat +
          8 * s.ctrl.ieDone.toNat + 16 * s.ctrl.ieErr.toNat + 32 * s.ctrl.ieFrdy.toNat)),
        (0x008, BitVec.ofNat 32 (s.config.log2n.toNat + 2 ^ 8 * s.config.osf.toNat + 2 ^ 16 * s.config.adcw.toNat)),
        (0x00C, BitVec.ofNat 32 s.fs.toNat), (0x010, BitVec.ofNat 32 s.hpslo.toNat), (0x018, 0),
        (0x020, BitVec.ofNat 32 s.cursor.toNat), (0x024, BitVec.ofNat 32 s.thresh.toNat),
        (0x028, BitVec.ofNat 32 (s.thresh.toNat / 2 ^ 32)), (0x02C, BitVec.ofNat 32 (s.thresh.toNat / 2 ^ 64)),
        (0x030, BitVec.ofNat 32 (s.thresh.toNat / 2 ^ 96)), (0x034, s.arg0), (0x038, s.arg1), (0x064, 0)] :
        List (Offset × Word)),
      s.inputs = .hostRead p.1 32 :: rest → step s = .next { s with inputs := rest, resp := .data p.2 }) ∧
    (s.inputs = .hostRead 0x014 32 :: rest →
      ∃ w : Word, step s = .next { s with inputs := rest, resp := .data w } ∧
        let l := s.config.log2n.toNat
        (5 ≤ l ∧ l ≤ 12 → w.toNat = s.fs.toNat * 2 ^ (16 - l) ∧ w.toNat * 2 ^ (l - 1) = s.fs.toNat * 2 ^ 15) ∧
        (¬(5 ≤ l ∧ l ≤ 12) → w = 0)) ∧
    (∀ p ∈ ([(0x03C, s.out0), (0x040, s.out1), (0x044, s.result), (0x048, s.freq), (0x04C, s.cents),
        (0x050, BitVec.ofNat 32 s.peakbin.toNat), (0x054, BitVec.ofNat 32 s.peakmag.toNat),
        (0x058, BitVec.ofNat 32 (s.peakmag.toNat / 2 ^ 32)), (0x05C, BitVec.ofNat 32 (s.peakmag.toNat / 2 ^ 64)),
        (0x060, BitVec.ofNat 32 (s.peakmag.toNat / 2 ^ 96))] : List (Offset × Word)),
      s.inputs = .hostRead p.1 32 :: rest →
      (s.eng = .idle → step s = .next { s with inputs := rest, resp := .data p.2 }) ∧
      (s.eng ≠ .idle →
        ∃ u : Word, step s = .next { s with inputs := rest, resp := .data u, freeCtr := s.freeCtr + 1 })) ∧
    (∀ off ∈ ([0x000, 0x014, 0x020, 0x03C, 0x040, 0x044, 0x048, 0x04C, 0x050, 0x054, 0x058, 0x05C, 0x060, 0x068,
        0x06C] : List Offset),
      s.inputs = .hostWrite off 32 v :: rest → step s = .next { s with inputs := rest, resp := .ack })

/-- R136: a write to `ARG0`, `ARG1` or a limb of `THRESH` stores the word and has no other effect, at any time; of
`THRESH` the other limbs stay. -/
def Obligations.OperandRegisterWrites : Prop :=
  ∀ (s : State) (v : Word) (rest : List Input),
    (s.inputs = .hostWrite 0x034 32 v :: rest → step s = .next { s with inputs := rest, resp := .ack, arg0 := v }) ∧
    (s.inputs = .hostWrite 0x038 32 v :: rest → step s = .next { s with inputs := rest, resp := .ack, arg1 := v }) ∧
    (∀ l : Nat, l < 4 → s.inputs = .hostWrite (BitVec.ofNat 20 (0x024 + 4 * l)) 32 v :: rest →
      ∃ x : SpecWord, step s = .next { s with inputs := rest, resp := .ack, thresh := x } ∧
        ∀ m : Nat, m < 4 →
          x.extractLsb' (32 * m) 32 = if m = l then v else s.thresh.extractLsb' (32 * m) 32)

/-! ## The bus and the windows -/

/-- R73: an access of another width, or at an offset that is not word aligned, ends with a bus error and changes no
state of the block. -/
def Obligations.BadAccessIsABusError : Prop :=
  ∀ (s : State) (addr : Offset) (width : Nat) (v : Word) (rest : List Input),
    width ≠ 32 ∨ addr.toNat % 4 ≠ 0 →
    s.inputs = .hostRead addr width :: rest ∨ s.inputs = .hostWrite addr width v :: rest →
    step s = .next { s with inputs := rest, resp := .busError addr }

/-- R75, R77: a host read has no side effect on any state of the block: only the bus response and the model's own fault
record and count of free values can change, `UNWRITTEN` is the only fault a read can add, and below the memory windows it
adds none. -/
def Obligations.ReadsChangeNoBlockState : Prop :=
  ∀ (s : State) (addr : Offset) (width : Nat) (rest : List Input), s.inputs = .hostRead addr width :: rest →
    ∃ t, step s = .next t ∧
      t = { s with inputs := rest, resp := t.resp, faults := t.faults, freeCtr := t.freeCtr } ∧
      (∀ f ∈ t.faults, f ∈ s.faults ∨ f = .unwritten) ∧
      (addr.toNat < 0x4000 → t.faults = s.faults)

/-- R43: a reserved offset, or one inside a window beyond its entries, reads 0 and ignores writes, busy or not; but a read
of the `FIRDL` window beyond its entries reads 0 while idle only. (While busy the model reads a free word there too: log
entry 6.) -/
def Obligations.ReservedOffsetsReadZero : Prop :=
  ∀ (s : State) (addr : Offset) (v : Word) (rest : List Input), addr.toNat % 4 = 0 →
    let gap : Prop :=
      (0x070 ≤ addr.toNat ∧ addr.toNat < 0x1000) ∨
      (0x1000 + 4 * s.rom.noteTable.length ≤ addr.toNat ∧ addr.toNat < 0x2000) ∨
      (0x2000 + 4 * s.rom.firCoef.length ≤ addr.toNat ∧ addr.toNat < 0x3000) ∨
      (0x3400 ≤ addr.toNat ∧ addr.toNat < 0x4000) ∨
      (0x10000 ≤ addr.toNat ∧ addr.toNat < 0x80000)
    let firdlTail : Prop := 0x3000 + 4 * (s.rom.firCoef.length - 1) ≤ addr.toNat ∧ addr.toNat < 0x3400
    (s.inputs = .hostRead addr 32 :: rest →
      gap ∨ firdlTail ∧ s.eng = .idle ∧ s.dl.length = s.rom.firCoef.length - 1 →
      step s = .next { s with inputs := rest, resp := .data 0 }) ∧
    (s.inputs = .hostWrite addr 32 v :: rest → gap ∨ firdlTail →
      step s = .next { s with inputs := rest, resp := .ack })

/-- R41, R42, R47 to R49, R76, R79: `NOTECOUNT`, `FIRTAPS` and the ROM windows read the tables, exactly and busy or not;
an entry of the `FIRDL` window reads `DL[m]`, sign-extended, while idle, and some word while busy (R292), for which the
model counts one free value (log entry 9) and which covers the whole window (log entry 6); the three windows ignore
writes. -/
def Obligations.ReadOnlyWindowsReadTheirEntries : Prop :=
  ∀ (s : State) (v : Word) (rest : List Input), RomOk s →
    (s.inputs = .hostRead 0x068 32 :: rest →
      step s = .next { s with inputs := rest, resp := .data (BitVec.ofNat 32 s.rom.noteTable.length) }) ∧
    (s.inputs = .hostRead 0x06C 32 :: rest →
      step s = .next { s with inputs := rest, resp := .data (BitVec.ofNat 32 s.rom.firCoef.length) }) ∧
    (∀ j, j < s.rom.noteTable.length →
      (s.inputs = .hostRead (BitVec.ofNat 20 (0x1000 + 4 * j)) 32 :: rest →
        step s = .next { s with inputs := rest, resp := .data (s.rom.noteTable.getD j 0) }) ∧
      (s.inputs = .hostWrite (BitVec.ofNat 20 (0x1000 + 4 * j)) 32 v :: rest →
        step s = .next { s with inputs := rest, resp := .ack })) ∧
    (∀ k, k < s.rom.firCoef.length →
      (s.inputs = .hostRead (BitVec.ofNat 20 (0x2000 + 4 * k)) 32 :: rest →
        step s = .next { s with inputs := rest, resp := .data ((s.rom.firCoef.getD k 0).signExtend 32) }) ∧
      (s.inputs = .hostWrite (BitVec.ofNat 20 (0x2000 + 4 * k)) 32 v :: rest →
        step s = .next { s with inputs := rest, resp := .ack })) ∧
    (∀ m, m < 256 →
      (∀ x : Sample, s.inputs = .hostRead (BitVec.ofNat 20 (0x3000 + 4 * m)) 32 :: rest → s.eng = .idle →
        m < s.rom.firCoef.length - 1 → s.dl[m]? = some x →
        step s = .next { s with inputs := rest, resp := .data (x.signExtend 32) }) ∧
      (s.inputs = .hostRead (BitVec.ofNat 20 (0x3000 + 4 * m)) 32 :: rest → s.eng ≠ .idle →
        ∃ u : Word, step s = .next { s with inputs := rest, resp := .data u, freeCtr := s.freeCtr + 1 }) ∧
      (s.inputs = .hostWrite (BitVec.ofNat 20 (0x3000 + 4 * m)) 32 v :: rest →
        step s = .next { s with inputs := rest, resp := .ack }))

/-- R48, R49: no step of any agent changes the ROMs. -/
def Obligations.StepKeepsTheRoms : Prop :=
  ∀ s t : State, step s = .next t → t.rom = s.rom

/-- R81: the `DEC` window. Idle, a read of a written entry gives its sign extension and a write stores the low 16 bits,
changing nothing else; busy, a read of any entry, written or not, gives an unspecified value and a write is a model fault;
an idle read of an unwritten entry is a model fault. That a busy read records no fault even of an unwritten entry is log
entry 6; the free value it counts is log entry 9. -/
def Obligations.DecWindow : Prop :=
  ∀ (s : State) (j : Nat) (v : Word) (rest : List Input), j < 4096 →
    (s.inputs = .hostRead (BitVec.ofNat 20 (0x4000 + 4 * j)) 32 :: rest → s.eng = .idle →
      (∀ x : Sample, s.dec j = some x →
        step s = .next { s with inputs := rest, resp := .data (x.signExtend 32) }) ∧
      (s.dec j = none → ∃ t, step s = .next t ∧ Fault.unwritten ∈ t.faults)) ∧
    (s.inputs = .hostRead (BitVec.ofNat 20 (0x4000 + 4 * j)) 32 :: rest → s.eng ≠ .idle →
      ∃ u : Word, step s = .next { s with inputs := rest, resp := .data u, freeCtr := s.freeCtr + 1 }) ∧
    (s.inputs = .hostWrite (BitVec.ofNat 20 (0x4000 + 4 * j)) 32 v :: rest → s.eng = .idle →
      ∃ t, step s = .next t ∧ t.dec j = some (v.extractLsb' 0 16) ∧
        (∀ a, a < 0x4000 + 4 * j ∨ 0x4000 + 4 * j + 2 ≤ a → t.mem.byte a = s.mem.byte a) ∧
        t = { s with inputs := rest, resp := .ack, mem := t.mem }) ∧
    (s.inputs = .hostWrite (BitVec.ofNat 20 (0x4000 + 4 * j)) 32 v :: rest → s.eng ≠ .idle →
      ∃ t, step s = .next t ∧ Fault.decWriteWhileBusy ∈ t.faults)

/-- R82: the `SPEC` window. Idle, a read of a written entry gives the limb and a write replaces it, the other limbs kept,
or 0 if the entry was never written; busy, a read of any entry, written or not, gives an unspecified value and a write is a
model fault; an idle read of an unwritten entry is a model fault (R56). That a busy read records no fault even of an
unwritten entry is log entry 6; the free value it counts is log entry 9. -/
def Obligations.SpecWindow : Prop :=
  ∀ (s : State) (k l : Nat) (v : Word) (rest : List Input), k < 2048 → l < 4 →
    (s.inputs = .hostRead (BitVec.ofNat 20 (0x8000 + 16 * k + 4 * l)) 32 :: rest → s.eng = .idle →
      (∀ x : SpecWord, s.spec k = some x →
        step s = .next { s with inputs := rest, resp := .data (x.extractLsb' (32 * l) 32) }) ∧
      (s.spec k = none → ∃ t, step s = .next t ∧ Fault.unwritten ∈ t.faults)) ∧
    (s.inputs = .hostRead (BitVec.ofNat 20 (0x8000 + 16 * k + 4 * l)) 32 :: rest → s.eng ≠ .idle →
      ∃ u : Word, step s = .next { s with inputs := rest, resp := .data u, freeCtr := s.freeCtr + 1 }) ∧
    (s.inputs = .hostWrite (BitVec.ofNat 20 (0x8000 + 16 * k + 4 * l)) 32 v :: rest → s.eng = .idle →
      ∃ t x, step s = .next t ∧ t.spec k = some x ∧
        (∀ m, m < 4 → x.extractLsb' (32 * m) 32 =
          if m = l then v else ((s.spec k).getD 0).extractLsb' (32 * m) 32) ∧
        (∀ a, a < 0x8000 + 16 * k ∨ 0x8000 + 16 * k + 16 ≤ a → t.mem.byte a = s.mem.byte a) ∧
        t = { s with inputs := rest, resp := .ack, mem := t.mem }) ∧
    (s.inputs = .hostWrite (BitVec.ofNat 20 (0x8000 + 16 * k + 4 * l)) 32 v :: rest → s.eng ≠ .idle →
      ∃ t, step s = .next t ∧ Fault.specWriteWhileBusy ∈ t.faults)

/-- R76, R80: the `IN` window. Busy or not, a read of a written entry gives its sign extension, a read of an unwritten one
is a model fault, and a write is ignored. -/
def Obligations.InWindow : Prop :=
  ∀ (s : State) (a : Nat) (v : Word) (rest : List Input), a < 131072 →
    (s.inputs = .hostRead (BitVec.ofNat 20 (0x80000 + 4 * a)) 32 :: rest →
      (∀ x : Sample, s.inp a = some x →
        step s = .next { s with inputs := rest, resp := .data (x.signExtend 32) }) ∧
      (s.inp a = none → ∃ t, step s = .next t ∧ Fault.unwritten ∈ t.faults)) ∧
    (s.inputs = .hostWrite (BitVec.ofNat 20 (0x80000 + 4 * a)) 32 v :: rest →
      step s = .next { s with inputs := rest, resp := .ack })

/-! ## Capture -/

/-- R222: the converter. A raw code of width 8 to 16 maps to its low bits less mid-scale, scaled to 16 bits without
wrapping; a signed sample passes through. -/
def Obligations.ConverterMapsCodes : Prop :=
  ∀ (W : Nat) (v : BitVec 16), 8 ≤ W → W ≤ 16 →
    (conv true W v).toInt = (((v.toNat % 2 ^ W : Nat) : Int) - 2 ^ (W - 1)) * 2 ^ (16 - W) ∧ conv false W v = v

/-- R223 to R226: a capture event. While stopped it is dropped. While started with the cursor in range, it stores the
converted sample at the cursor and advances it, circling after two slots; the first sample makes its slot `FILLING`, the
last makes it `READY` and sets `FRDY`; no other byte and no other state changes, but that starting a slot that is not
`EMPTY` is an overrun, which is recorded. -/
def Obligations.CaptureStoresTheSample : Prop :=
  ∀ (s : State) (v : BitVec 16) (rest : List Input), s.inputs = .capture v :: rest →
    (s.ctrl.en = false → step s = .next { s with inputs := rest }) ∧
    (s.ctrl.en = true → 2 ≤ s.nd → 2 * s.nd ≤ 131072 → s.cursor.toNat < 2 * s.nd →
      let c := s.cursor.toNat
      let b := decide (s.nd ≤ c)
      let n := c % s.nd
      ∃ t, step s = .next t ∧ t.inp c = some (conv s.cfg.rawin s.cfg.adcw v) ∧
        t.cursor.toNat = (c + 1) % (2 * s.nd) ∧
        t.slot b = (if n = s.nd - 1 then .ready else if n = 0 then .filling else s.slot b) ∧
        t.slot (!b) = s.slot (!b) ∧ (t.frdy = true ↔ s.frdy = true ∨ n = s.nd - 1) ∧
        (n ≠ 0 ∨ s.slot b = .empty → t.faults = s.faults) ∧
        (n = 0 ∧ s.slot b ≠ .empty → Fault.overrun ∈ t.faults) ∧
        (∀ a, a < 0x80000 + 4 * c ∨ 0x80000 + 4 * c + 2 ≤ a → t.mem.byte a = s.mem.byte a) ∧
        t = { s with inputs := rest, mem := t.mem, cursor := t.cursor, slot0 := t.slot0, slot1 := t.slot1,
                     frdy := t.frdy, faults := t.faults })

/-- R221: a host write to `SAMPLE_IN` is a capture event carrying its low 16 bits: the two steps leave the same state,
but for the bus response. -/
def Obligations.SampleInIsACapture : Prop :=
  ∀ (s : State) (w : Word) (rest : List Input),
    ∃ t, step { s with inputs := .capture (w.extractLsb' 0 16) :: rest } = .next t ∧
      step { s with inputs := .hostWrite 0x064 32 w :: rest } = .next { t with resp := .ack }

/-- R230: absent a fault no capture event changes an entry of a claimed slot, and no step of the engine changes a byte of
`IN`. -/
def Obligations.ClaimedFrameIsUndisturbed : Prop :=
  ∀ s t : State, ControlOk s → HandoffOk s → step s = .next t →
    (∀ v rest, s.inputs = .capture v :: rest → t.faults = [] →
      ∀ b n, s.slot b = .claimed → n < s.nd → t.inp (s.slotBase b + n) = s.inp (s.slotBase b + n)) ∧
    (s.inputs = [] ∨ (∃ rest, s.inputs = .engine :: rest) →
      ∀ a, 0x80000 ≤ a → t.mem.byte a = s.mem.byte a)

/-! ## Invariants -/

/-- Every step keeps what ties the control state together: the delay line's length (R47), the legality and the copy of the
started configuration (R53, R131), what the running command needs (R121), and what holds of a stopped block and of the
cursor (R31, R228). -/
def Obligations.StepKeepsControl : Prop :=
  ∀ s t : State, ControlOk s → step s = .next t → ControlOk t

/-- Every step keeps the captured part of each frame written in `IN`: whoever sees a slot `READY` or `CLAIMED` can read
all its samples (R85, R225). -/
def Obligations.StepKeepsFramesWritten : Prop :=
  ∀ s t : State, ControlOk s → FramesWritten s → step s = .next t → FramesWritten t

/-- Every step that records no fault keeps the hand-off of R228: the filling slot, the claimed slot, and the arrival
order of the full slots. -/
def Obligations.StepKeepsHandoff : Prop :=
  ∀ s t : State, ControlOk s → HandoffOk s → step s = .next t → FaultFree t → HandoffOk t

/-- Every step keeps the memory in canonical form: addresses strictly rising. -/
def Obligations.StepKeepsMemoryForm : Prop :=
  ∀ s t : State, MemoryOk s → step s = .next t → MemoryOk t

/-- R35, R37: with conforming ROMs, every step keeps the result registers in agreement. -/
def Obligations.StepKeepsResults : Prop :=
  ∀ s t : State, RomOk s → ResultOk s → step s = .next t → ResultOk t

/-- R56, R283: a recorded fault stays recorded, whatever step is taken but a power-on reset. -/
def Obligations.FaultRecordIsSticky : Prop :=
  ∀ s t : State, (∀ rest, s.inputs ≠ .powerOn :: rest) → step s = .next t → ∀ f ∈ s.faults, f ∈ t.faults

/-- The invariants hold right after reset. -/
def Obligations.ResetMeetsTheInvariants : Prop :=
  ControlOk State.reset ∧ FramesWritten State.reset ∧ HandoffOk State.reset ∧ MemoryOk State.reset ∧
    ResultOk State.reset ∧ FaultFree State.reset
end

