-- ==== Sys2Proof/Laws/Memory.lean ====
section
/-! SUPPORT. Laws of the memory cells and entries: reading after writing, disjointness, and the canonical form. -/

namespace Sys2Proof.Machine

/-! ## One byte -/

@[simp] theorem byte_nil (a : Nat) : Memory.byte [] a = none := rfl

theorem byte_cons (c : Host.Cell) (cs : Memory) (a : Nat) :
    Memory.byte (c :: cs) a = if c.1 = a then some c.2 else Memory.byte cs a := rfl

theorem byte_append (m m' : Memory) (a : Nat) :
    Memory.byte (m ++ m') a = (Memory.byte m a).or (Memory.byte m' a) := by
  induction m with
  | nil => simp
  | cons c cs ih => by_cases h : c.1 = a <;> simp [byte_cons, h, ih]

theorem byte_filter (p : Nat → Bool) (m : Memory) (a : Nat) :
    Memory.byte (m.filter (fun c => p c.1)) a = if p a then Memory.byte m a else none := by
  induction m with
  | nil => simp
  | cons c cs ih =>
    by_cases hp : p c.1 <;> by_cases h : c.1 = a
    · subst h; simp [hp, byte_cons]
    · simp [hp, byte_cons, h, ih]
    · subst h; simp [hp, ih]
    · simp [hp, byte_cons, h, ih]

theorem byte_cellsAt (bs : List Byte) (a x : Nat) :
    Memory.byte (cellsAt a bs) x = if a ≤ x then bs[x - a]? else none := by
  induction bs generalizing a with
  | nil => simp [cellsAt]
  | cons b bs ih =>
    rw [cellsAt, byte_cons, ih]
    rcases Nat.lt_trichotomy a x with h | h | h
    · obtain ⟨k, rfl⟩ : ∃ k, x = a + 1 + k := ⟨x - a - 1, by omega⟩
      simp [show a ≤ a + 1 + k by omega, show a + 1 + k - a = k + 1 by omega, show a ≠ a + 1 + k by omega]
    · subst h; simp
    · simp [show ¬ a ≤ x by omega, show ¬ a + 1 ≤ x by omega, show a ≠ x by omega]

/-- A write gives its own bytes back and leaves every other address alone. -/
theorem byte_write (m : Memory) (a x : Nat) (bs : List Byte) :
    (m.write a bs).byte x = if a ≤ x ∧ x < a + bs.length then bs[x - a]? else m.byte x := by
  rw [Memory.write, byte_append, byte_append, byte_filter (fun y => decide (y < a)),
    byte_filter (fun y => decide (a + bs.length ≤ y)), byte_cellsAt]
  by_cases h1 : x < a
  · simp [h1, show ¬ a ≤ x by omega, show ¬ a + bs.length ≤ x by omega]
  · by_cases h2 : x < a + bs.length
    · have : x - a < bs.length := by omega
      simp [h1, show a ≤ x by omega, h2, List.getElem?_eq_getElem this]
    · have : bs[x - a]? = none := List.getElem?_eq_none (by omega)
      simp [h1, show a ≤ x by omega, h2, show a + bs.length ≤ x by omega, this]

theorem byte_write_of_outside {m : Memory} {a x : Nat} {bs : List Byte} (h : x < a ∨ a + bs.length ≤ x) :
    (m.write a bs).byte x = m.byte x := by
  rw [byte_write, if_neg (by omega)]

/-! ## Runs of bytes -/

theorem bytes_succ (m : Memory) (a n : Nat) :
    m.bytes a (n + 1) = (m.byte a).bind (fun b => (m.bytes (a + 1) n).map (b :: ·)) := by
  rw [Memory.bytes]
  cases m.byte a <;> cases m.bytes (a + 1) n <;> rfl

theorem bytes_congr {m m' : Memory} {a n : Nat} (h : ∀ x, a ≤ x → x < a + n → m.byte x = m'.byte x) :
    m.bytes a n = m'.bytes a n := by
  induction n generalizing a with
  | zero => rfl
  | succ n ih =>
    rw [bytes_succ, bytes_succ, h a (by omega) (by omega), ih (fun x h1 h2 => h x (by omega) (by omega))]

theorem bytes_of_getElem {m : Memory} {a : Nat} {bs : List Byte}
    (h : ∀ i, i < bs.length → m.byte (a + i) = bs[i]?) : m.bytes a bs.length = some bs := by
  induction bs generalizing a with
  | nil => rfl
  | cons b bs ih =>
    have h0 := h 0 (by simp)
    rw [List.length_cons, bytes_succ,
      ih (fun i hi => by simpa [Nat.add_assoc, Nat.add_comm 1] using h (i + 1) (by simpa using hi))]
    simp only [Nat.add_zero] at h0
    simp [h0]

theorem bytes_write_same (m : Memory) (a : Nat) (bs : List Byte) : (m.write a bs).bytes a bs.length = some bs :=
  bytes_of_getElem fun i hi => by rw [byte_write, if_pos (by omega), Nat.add_sub_cancel_left]

theorem bytes_isSome_iff {m : Memory} {a n : Nat} :
    (m.bytes a n).isSome = true ↔ ∀ x, a ≤ x → x < a + n → (m.byte x).isSome = true := by
  induction n generalizing a with
  | zero => simp [Memory.bytes]; omega
  | succ n ih =>
    rw [bytes_succ]
    constructor
    · intro h x h1 h2
      cases hb : m.byte a with
      | none => simp [hb] at h
      | some b =>
        have h3 : (m.bytes (a + 1) n).isSome = true := by simpa [hb] using h
        rcases Nat.eq_or_lt_of_le h1 with rfl | h4
        · simp [hb]
        · exact ih.1 h3 x h4 (by omega)
    · intro h
      obtain ⟨b, hb⟩ := Option.isSome_iff_exists.1 (h a (by omega) (by omega))
      have h3 : (m.bytes (a + 1) n).isSome = true := ih.2 fun x h1 h2 => h x (by omega) (by omega)
      simpa [hb] using h3

/-! ## Numbers and bytes -/

@[simp] theorem length_natToBytes (n x : Nat) : (natToBytes n x).length = n := by
  induction n generalizing x with
  | zero => rfl
  | succ n ih => simp [natToBytes, ih]

theorem bytesToNat_natToBytes (n x : Nat) : bytesToNat (natToBytes n x) = x % 256 ^ n := by
  induction n generalizing x with
  | zero => simp [natToBytes, bytesToNat, Nat.mod_one]
  | succ n ih =>
    have h : 256 ^ (n + 1) = 256 * 256 ^ n := Nat.pow_succ'
    rw [natToBytes, bytesToNat, ih, BitVec.toNat_ofNat, h, Nat.mod_mul]

/-! ## Entries -/

/-- An entry reads back what was stored in it. -/
theorem entry_setEntry_same {w n : Nat} (m : Memory) (a : Nat) (v : BitVec w) (h : w ≤ 8 * n) :
    (m.setEntry n a v).entry w n a = some v := by
  have hb := bytes_write_same m a (natToBytes n v.toNat)
  rw [length_natToBytes] at hb
  have hv : v.toNat < 256 ^ n :=
    lt_of_lt_of_le v.isLt (by rw [show (256 : Nat) = 2 ^ 8 by rfl, ← Nat.pow_mul]; exact Nat.pow_le_pow_right (by omega) h)
  simp [Memory.entry, Memory.setEntry, hb, bytesToNat_natToBytes, Nat.mod_eq_of_lt hv]

theorem byte_setEntry_of_outside {w : Nat} {m : Memory} {n a x : Nat} {v : BitVec w} (h : x < a ∨ a + n ≤ x) :
    (m.setEntry n a v).byte x = m.byte x :=
  byte_write_of_outside (by simpa using h)

/-- Storing an entry leaves every entry that does not overlap it alone. -/
theorem entry_setEntry_disjoint {w w' : Nat} {m : Memory} {n n' a a' : Nat} {v : BitVec w}
    (h : a + n ≤ a' ∨ a' + n' ≤ a) : (m.setEntry n a v).entry w' n' a' = m.entry w' n' a' := by
  rw [Memory.entry, Memory.entry, bytes_congr fun x h1 h2 => byte_setEntry_of_outside (by omega)]

theorem entry_congr {m m' : Memory} {w n a : Nat} (h : ∀ x, a ≤ x → x < a + n → m.byte x = m'.byte x) :
    m.entry w n a = m'.entry w n a := by
  rw [Memory.entry, Memory.entry, bytes_congr h]

theorem entry_isSome_iff {m : Memory} {w n a : Nat} :
    (m.entry w n a).isSome = true ↔ ∀ x, a ≤ x → x < a + n → (m.byte x).isSome = true := by
  rw [Memory.entry, Option.isSome_map, bytes_isSome_iff]

/-- Storing an entry never makes another unwritten (R56). -/
theorem entry_isSome_setEntry {w w' : Nat} {m : Memory} {n n' a a' : Nat} (v : BitVec w)
    (h : (m.entry w' n' a').isSome = true) : ((m.setEntry n a v).entry w' n' a').isSome = true := by
  rw [entry_isSome_iff] at h ⊢
  intro x h1 h2
  rw [Memory.setEntry, byte_write]
  split
  · next hx => rw [length_natToBytes] at hx; simp [show x - a < n by omega]
  · exact h x h1 h2

/-! ## The canonical form -/

theorem wf_iff {m : Memory} : m.wf = true ↔ m.Pairwise (fun c c' => c.1 < c'.1) := decide_eq_true_iff

theorem wf_nil : Memory.wf [] = true := rfl

theorem mem_cellsAt {bs : List Byte} {a : Nat} {c : Host.Cell} (h : c ∈ cellsAt a bs) :
    a ≤ c.1 ∧ c.1 < a + bs.length := by
  induction bs generalizing a with
  | nil => simp [cellsAt] at h
  | cons b bs ih =>
    rcases List.mem_cons.1 h with rfl | h
    · simp
    · have := ih h; rw [List.length_cons]; omega

theorem pairwise_cellsAt (bs : List Byte) (a : Nat) : (cellsAt a bs).Pairwise (fun c c' => c.1 < c'.1) := by
  induction bs generalizing a with
  | nil => exact .nil
  | cons b bs ih => exact List.pairwise_cons.2 ⟨fun c hc => (mem_cellsAt hc).1, ih (a + 1)⟩

/-- A write keeps the canonical form. -/
theorem wf_write {m : Memory} (h : m.wf = true) (a : Nat) (bs : List Byte) : (m.write a bs).wf = true := by
  rw [wf_iff] at h ⊢
  refine List.pairwise_append.2 ⟨List.pairwise_append.2 ⟨h.filter _, pairwise_cellsAt bs a, ?_⟩, h.filter _, ?_⟩
  · intro c hc c' hc'
    have h1 := (List.mem_filter.1 hc).2
    have h2 := mem_cellsAt hc'
    simp only [decide_eq_true_eq] at h1
    omega
  · intro c hc c' hc'
    have h2 := (List.mem_filter.1 hc').2
    simp only [decide_eq_true_eq] at h2
    rcases List.mem_append.1 hc with hc | hc
    · have h1 := (List.mem_filter.1 hc).2
      simp only [decide_eq_true_eq] at h1
      omega
    · have h1 := mem_cellsAt hc
      omega

/-- Storing an entry keeps the canonical form. -/
theorem wf_setEntry {w : Nat} {m : Memory} (h : m.wf = true) (n a : Nat) (v : BitVec w) :
    (m.setEntry n a v).wf = true := wf_write h a _

theorem wf_reset : State.reset.mem.wf = true := rfl

end Sys2Proof.Machine
end

