-- ==== Sys2Proof/Laws/State.lean ====
section
/-! SUPPORT. What each named update leaves in each field of the state. -/

namespace Sys2Proof.Machine

/-! ### raiseError: `raise Error` (R252) changes `ERR`/`ERRCODE` only (R256) -/

@[simp] theorem raiseError_ctrl (c : ErrCode) (s : State) : (raiseError c s).ctrl = s.ctrl := rfl
@[simp] theorem raiseError_config (c : ErrCode) (s : State) : (raiseError c s).config = s.config := rfl
@[simp] theorem raiseError_fs (c : ErrCode) (s : State) : (raiseError c s).fs = s.fs := rfl
@[simp] theorem raiseError_hpslo (c : ErrCode) (s : State) : (raiseError c s).hpslo = s.hpslo := rfl
@[simp] theorem raiseError_eng (c : ErrCode) (s : State) : (raiseError c s).eng = s.eng := rfl
@[simp] theorem raiseError_done (c : ErrCode) (s : State) : (raiseError c s).done = s.done := rfl
@[simp] theorem raiseError_err (c : ErrCode) (s : State) : (raiseError c s).err = s.err.or (some c) := rfl
@[simp] theorem raiseError_slot0 (c : ErrCode) (s : State) : (raiseError c s).slot0 = s.slot0 := rfl
@[simp] theorem raiseError_slot1 (c : ErrCode) (s : State) : (raiseError c s).slot1 = s.slot1 := rfl
@[simp] theorem raiseError_rdslot (c : ErrCode) (s : State) : (raiseError c s).rdslot = s.rdslot := rfl
@[simp] theorem raiseError_frdy (c : ErrCode) (s : State) : (raiseError c s).frdy = s.frdy := rfl
@[simp] theorem raiseError_curcmd (c : ErrCode) (s : State) : (raiseError c s).curcmd = s.curcmd := rfl
@[simp] theorem raiseError_cursor (c : ErrCode) (s : State) : (raiseError c s).cursor = s.cursor := rfl
@[simp] theorem raiseError_thresh (c : ErrCode) (s : State) : (raiseError c s).thresh = s.thresh := rfl
@[simp] theorem raiseError_arg0 (c : ErrCode) (s : State) : (raiseError c s).arg0 = s.arg0 := rfl
@[simp] theorem raiseError_arg1 (c : ErrCode) (s : State) : (raiseError c s).arg1 = s.arg1 := rfl
@[simp] theorem raiseError_out0 (c : ErrCode) (s : State) : (raiseError c s).out0 = s.out0 := rfl
@[simp] theorem raiseError_out1 (c : ErrCode) (s : State) : (raiseError c s).out1 = s.out1 := rfl
@[simp] theorem raiseError_result (c : ErrCode) (s : State) : (raiseError c s).result = s.result := rfl
@[simp] theorem raiseError_freq (c : ErrCode) (s : State) : (raiseError c s).freq = s.freq := rfl
@[simp] theorem raiseError_cents (c : ErrCode) (s : State) : (raiseError c s).cents = s.cents := rfl
@[simp] theorem raiseError_peakbin (c : ErrCode) (s : State) : (raiseError c s).peakbin = s.peakbin := rfl
@[simp] theorem raiseError_peakmag (c : ErrCode) (s : State) : (raiseError c s).peakmag = s.peakmag := rfl
@[simp] theorem raiseError_mem (c : ErrCode) (s : State) : (raiseError c s).mem = s.mem := rfl
@[simp] theorem raiseError_dl (c : ErrCode) (s : State) : (raiseError c s).dl = s.dl := rfl
@[simp] theorem raiseError_latched (c : ErrCode) (s : State) : (raiseError c s).latched = s.latched := rfl
@[simp] theorem raiseError_cfg (c : ErrCode) (s : State) : (raiseError c s).cfg = s.cfg := rfl
@[simp] theorem raiseError_rom (c : ErrCode) (s : State) : (raiseError c s).rom = s.rom := rfl
@[simp] theorem raiseError_faults (c : ErrCode) (s : State) : (raiseError c s).faults = s.faults := rfl
@[simp] theorem raiseError_freeCtr (c : ErrCode) (s : State) : (raiseError c s).freeCtr = s.freeCtr := rfl
@[simp] theorem raiseError_inputs (c : ErrCode) (s : State) : (raiseError c s).inputs = s.inputs := rfl
@[simp] theorem raiseError_resp (c : ErrCode) (s : State) : (raiseError c s).resp = s.resp := rfl

/-! ### clearError: clearing `ERR` changes nothing else (R257) -/

@[simp] theorem clearError_ctrl (s : State) : (clearError s).ctrl = s.ctrl := rfl
@[simp] theorem clearError_config (s : State) : (clearError s).config = s.config := rfl
@[simp] theorem clearError_fs (s : State) : (clearError s).fs = s.fs := rfl
@[simp] theorem clearError_hpslo (s : State) : (clearError s).hpslo = s.hpslo := rfl
@[simp] theorem clearError_eng (s : State) : (clearError s).eng = s.eng := rfl
@[simp] theorem clearError_done (s : State) : (clearError s).done = s.done := rfl
@[simp] theorem clearError_err (s : State) : (clearError s).err = none := rfl
@[simp] theorem clearError_slot0 (s : State) : (clearError s).slot0 = s.slot0 := rfl
@[simp] theorem clearError_slot1 (s : State) : (clearError s).slot1 = s.slot1 := rfl
@[simp] theorem clearError_rdslot (s : State) : (clearError s).rdslot = s.rdslot := rfl
@[simp] theorem clearError_frdy (s : State) : (clearError s).frdy = s.frdy := rfl
@[simp] theorem clearError_curcmd (s : State) : (clearError s).curcmd = s.curcmd := rfl
@[simp] theorem clearError_cursor (s : State) : (clearError s).cursor = s.cursor := rfl
@[simp] theorem clearError_thresh (s : State) : (clearError s).thresh = s.thresh := rfl
@[simp] theorem clearError_arg0 (s : State) : (clearError s).arg0 = s.arg0 := rfl
@[simp] theorem clearError_arg1 (s : State) : (clearError s).arg1 = s.arg1 := rfl
@[simp] theorem clearError_out0 (s : State) : (clearError s).out0 = s.out0 := rfl
@[simp] theorem clearError_out1 (s : State) : (clearError s).out1 = s.out1 := rfl
@[simp] theorem clearError_result (s : State) : (clearError s).result = s.result := rfl
@[simp] theorem clearError_freq (s : State) : (clearError s).freq = s.freq := rfl
@[simp] theorem clearError_cents (s : State) : (clearError s).cents = s.cents := rfl
@[simp] theorem clearError_peakbin (s : State) : (clearError s).peakbin = s.peakbin := rfl
@[simp] theorem clearError_peakmag (s : State) : (clearError s).peakmag = s.peakmag := rfl
@[simp] theorem clearError_mem (s : State) : (clearError s).mem = s.mem := rfl
@[simp] theorem clearError_dl (s : State) : (clearError s).dl = s.dl := rfl
@[simp] theorem clearError_latched (s : State) : (clearError s).latched = s.latched := rfl
@[simp] theorem clearError_cfg (s : State) : (clearError s).cfg = s.cfg := rfl
@[simp] theorem clearError_rom (s : State) : (clearError s).rom = s.rom := rfl
@[simp] theorem clearError_faults (s : State) : (clearError s).faults = s.faults := rfl
@[simp] theorem clearError_freeCtr (s : State) : (clearError s).freeCtr = s.freeCtr := rfl
@[simp] theorem clearError_inputs (s : State) : (clearError s).inputs = s.inputs := rfl
@[simp] theorem clearError_resp (s : State) : (clearError s).resp = s.resp := rfl

/-! ### modelFault: `model_fault` changes the fault record only -/

@[simp] theorem modelFault_ctrl (f : Fault) (s : State) : (modelFault f s).ctrl = s.ctrl := rfl
@[simp] theorem modelFault_config (f : Fault) (s : State) : (modelFault f s).config = s.config := rfl
@[simp] theorem modelFault_fs (f : Fault) (s : State) : (modelFault f s).fs = s.fs := rfl
@[simp] theorem modelFault_hpslo (f : Fault) (s : State) : (modelFault f s).hpslo = s.hpslo := rfl
@[simp] theorem modelFault_eng (f : Fault) (s : State) : (modelFault f s).eng = s.eng := rfl
@[simp] theorem modelFault_done (f : Fault) (s : State) : (modelFault f s).done = s.done := rfl
@[simp] theorem modelFault_err (f : Fault) (s : State) : (modelFault f s).err = s.err := rfl
@[simp] theorem modelFault_slot0 (f : Fault) (s : State) : (modelFault f s).slot0 = s.slot0 := rfl
@[simp] theorem modelFault_slot1 (f : Fault) (s : State) : (modelFault f s).slot1 = s.slot1 := rfl
@[simp] theorem modelFault_rdslot (f : Fault) (s : State) : (modelFault f s).rdslot = s.rdslot := rfl
@[simp] theorem modelFault_frdy (f : Fault) (s : State) : (modelFault f s).frdy = s.frdy := rfl
@[simp] theorem modelFault_curcmd (f : Fault) (s : State) : (modelFault f s).curcmd = s.curcmd := rfl
@[simp] theorem modelFault_cursor (f : Fault) (s : State) : (modelFault f s).cursor = s.cursor := rfl
@[simp] theorem modelFault_thresh (f : Fault) (s : State) : (modelFault f s).thresh = s.thresh := rfl
@[simp] theorem modelFault_arg0 (f : Fault) (s : State) : (modelFault f s).arg0 = s.arg0 := rfl
@[simp] theorem modelFault_arg1 (f : Fault) (s : State) : (modelFault f s).arg1 = s.arg1 := rfl
@[simp] theorem modelFault_out0 (f : Fault) (s : State) : (modelFault f s).out0 = s.out0 := rfl
@[simp] theorem modelFault_out1 (f : Fault) (s : State) : (modelFault f s).out1 = s.out1 := rfl
@[simp] theorem modelFault_result (f : Fault) (s : State) : (modelFault f s).result = s.result := rfl
@[simp] theorem modelFault_freq (f : Fault) (s : State) : (modelFault f s).freq = s.freq := rfl
@[simp] theorem modelFault_cents (f : Fault) (s : State) : (modelFault f s).cents = s.cents := rfl
@[simp] theorem modelFault_peakbin (f : Fault) (s : State) : (modelFault f s).peakbin = s.peakbin := rfl
@[simp] theorem modelFault_peakmag (f : Fault) (s : State) : (modelFault f s).peakmag = s.peakmag := rfl
@[simp] theorem modelFault_mem (f : Fault) (s : State) : (modelFault f s).mem = s.mem := rfl
@[simp] theorem modelFault_dl (f : Fault) (s : State) : (modelFault f s).dl = s.dl := rfl
@[simp] theorem modelFault_latched (f : Fault) (s : State) : (modelFault f s).latched = s.latched := rfl
@[simp] theorem modelFault_cfg (f : Fault) (s : State) : (modelFault f s).cfg = s.cfg := rfl
@[simp] theorem modelFault_rom (f : Fault) (s : State) : (modelFault f s).rom = s.rom := rfl
@[simp] theorem modelFault_faults (f : Fault) (s : State) : (modelFault f s).faults = recordFault f s.faults := rfl
@[simp] theorem modelFault_freeCtr (f : Fault) (s : State) : (modelFault f s).freeCtr = s.freeCtr := rfl
@[simp] theorem modelFault_inputs (f : Fault) (s : State) : (modelFault f s).inputs = s.inputs := rfl
@[simp] theorem modelFault_resp (f : Fault) (s : State) : (modelFault f s).resp = s.resp := rfl

/-! ### drawn: drawing a free value changes the count only -/

@[simp] theorem drawn_ctrl (s : State) : (drawn s).ctrl = s.ctrl := rfl
@[simp] theorem drawn_config (s : State) : (drawn s).config = s.config := rfl
@[simp] theorem drawn_fs (s : State) : (drawn s).fs = s.fs := rfl
@[simp] theorem drawn_hpslo (s : State) : (drawn s).hpslo = s.hpslo := rfl
@[simp] theorem drawn_eng (s : State) : (drawn s).eng = s.eng := rfl
@[simp] theorem drawn_done (s : State) : (drawn s).done = s.done := rfl
@[simp] theorem drawn_err (s : State) : (drawn s).err = s.err := rfl
@[simp] theorem drawn_slot0 (s : State) : (drawn s).slot0 = s.slot0 := rfl
@[simp] theorem drawn_slot1 (s : State) : (drawn s).slot1 = s.slot1 := rfl
@[simp] theorem drawn_rdslot (s : State) : (drawn s).rdslot = s.rdslot := rfl
@[simp] theorem drawn_frdy (s : State) : (drawn s).frdy = s.frdy := rfl
@[simp] theorem drawn_curcmd (s : State) : (drawn s).curcmd = s.curcmd := rfl
@[simp] theorem drawn_cursor (s : State) : (drawn s).cursor = s.cursor := rfl
@[simp] theorem drawn_thresh (s : State) : (drawn s).thresh = s.thresh := rfl
@[simp] theorem drawn_arg0 (s : State) : (drawn s).arg0 = s.arg0 := rfl
@[simp] theorem drawn_arg1 (s : State) : (drawn s).arg1 = s.arg1 := rfl
@[simp] theorem drawn_out0 (s : State) : (drawn s).out0 = s.out0 := rfl
@[simp] theorem drawn_out1 (s : State) : (drawn s).out1 = s.out1 := rfl
@[simp] theorem drawn_result (s : State) : (drawn s).result = s.result := rfl
@[simp] theorem drawn_freq (s : State) : (drawn s).freq = s.freq := rfl
@[simp] theorem drawn_cents (s : State) : (drawn s).cents = s.cents := rfl
@[simp] theorem drawn_peakbin (s : State) : (drawn s).peakbin = s.peakbin := rfl
@[simp] theorem drawn_peakmag (s : State) : (drawn s).peakmag = s.peakmag := rfl
@[simp] theorem drawn_mem (s : State) : (drawn s).mem = s.mem := rfl
@[simp] theorem drawn_dl (s : State) : (drawn s).dl = s.dl := rfl
@[simp] theorem drawn_latched (s : State) : (drawn s).latched = s.latched := rfl
@[simp] theorem drawn_cfg (s : State) : (drawn s).cfg = s.cfg := rfl
@[simp] theorem drawn_rom (s : State) : (drawn s).rom = s.rom := rfl
@[simp] theorem drawn_faults (s : State) : (drawn s).faults = s.faults := rfl
@[simp] theorem drawn_freeCtr (s : State) : (drawn s).freeCtr = s.freeCtr + 1 := rfl
@[simp] theorem drawn_inputs (s : State) : (drawn s).inputs = s.inputs := rfl
@[simp] theorem drawn_resp (s : State) : (drawn s).resp = s.resp := rfl

/-! ### setSlot: `SLOT[b] ← v` -/

@[simp] theorem setSlot_ctrl (b : Bool) (v : SlotState) (s : State) : (setSlot b v s).ctrl = s.ctrl := rfl
@[simp] theorem setSlot_config (b : Bool) (v : SlotState) (s : State) : (setSlot b v s).config = s.config := rfl
@[simp] theorem setSlot_fs (b : Bool) (v : SlotState) (s : State) : (setSlot b v s).fs = s.fs := rfl
@[simp] theorem setSlot_hpslo (b : Bool) (v : SlotState) (s : State) : (setSlot b v s).hpslo = s.hpslo := rfl
@[simp] theorem setSlot_eng (b : Bool) (v : SlotState) (s : State) : (setSlot b v s).eng = s.eng := rfl
@[simp] theorem setSlot_done (b : Bool) (v : SlotState) (s : State) : (setSlot b v s).done = s.done := rfl
@[simp] theorem setSlot_err (b : Bool) (v : SlotState) (s : State) : (setSlot b v s).err = s.err := rfl
@[simp] theorem setSlot_slot0 (b : Bool) (v : SlotState) (s : State) : (setSlot b v s).slot0 = if b then s.slot0 else v := rfl
@[simp] theorem setSlot_slot1 (b : Bool) (v : SlotState) (s : State) : (setSlot b v s).slot1 = if b then v else s.slot1 := rfl
@[simp] theorem setSlot_rdslot (b : Bool) (v : SlotState) (s : State) : (setSlot b v s).rdslot = s.rdslot := rfl
@[simp] theorem setSlot_frdy (b : Bool) (v : SlotState) (s : State) : (setSlot b v s).frdy = s.frdy := rfl
@[simp] theorem setSlot_curcmd (b : Bool) (v : SlotState) (s : State) : (setSlot b v s).curcmd = s.curcmd := rfl
@[simp] theorem setSlot_cursor (b : Bool) (v : SlotState) (s : State) : (setSlot b v s).cursor = s.cursor := rfl
@[simp] theorem setSlot_thresh (b : Bool) (v : SlotState) (s : State) : (setSlot b v s).thresh = s.thresh := rfl
@[simp] theorem setSlot_arg0 (b : Bool) (v : SlotState) (s : State) : (setSlot b v s).arg0 = s.arg0 := rfl
@[simp] theorem setSlot_arg1 (b : Bool) (v : SlotState) (s : State) : (setSlot b v s).arg1 = s.arg1 := rfl
@[simp] theorem setSlot_out0 (b : Bool) (v : SlotState) (s : State) : (setSlot b v s).out0 = s.out0 := rfl
@[simp] theorem setSlot_out1 (b : Bool) (v : SlotState) (s : State) : (setSlot b v s).out1 = s.out1 := rfl
@[simp] theorem setSlot_result (b : Bool) (v : SlotState) (s : State) : (setSlot b v s).result = s.result := rfl
@[simp] theorem setSlot_freq (b : Bool) (v : SlotState) (s : State) : (setSlot b v s).freq = s.freq := rfl
@[simp] theorem setSlot_cents (b : Bool) (v : SlotState) (s : State) : (setSlot b v s).cents = s.cents := rfl
@[simp] theorem setSlot_peakbin (b : Bool) (v : SlotState) (s : State) : (setSlot b v s).peakbin = s.peakbin := rfl
@[simp] theorem setSlot_peakmag (b : Bool) (v : SlotState) (s : State) : (setSlot b v s).peakmag = s.peakmag := rfl
@[simp] theorem setSlot_mem (b : Bool) (v : SlotState) (s : State) : (setSlot b v s).mem = s.mem := rfl
@[simp] theorem setSlot_dl (b : Bool) (v : SlotState) (s : State) : (setSlot b v s).dl = s.dl := rfl
@[simp] theorem setSlot_latched (b : Bool) (v : SlotState) (s : State) : (setSlot b v s).latched = s.latched := rfl
@[simp] theorem setSlot_cfg (b : Bool) (v : SlotState) (s : State) : (setSlot b v s).cfg = s.cfg := rfl
@[simp] theorem setSlot_rom (b : Bool) (v : SlotState) (s : State) : (setSlot b v s).rom = s.rom := rfl
@[simp] theorem setSlot_faults (b : Bool) (v : SlotState) (s : State) : (setSlot b v s).faults = s.faults := rfl
@[simp] theorem setSlot_freeCtr (b : Bool) (v : SlotState) (s : State) : (setSlot b v s).freeCtr = s.freeCtr := rfl
@[simp] theorem setSlot_inputs (b : Bool) (v : SlotState) (s : State) : (setSlot b v s).inputs = s.inputs := rfl
@[simp] theorem setSlot_resp (b : Bool) (v : SlotState) (s : State) : (setSlot b v s).resp = s.resp := rfl

/-! ### writeDec: `DEC[j] ← v` -/

@[simp] theorem writeDec_ctrl (j : Nat) (v : Sample) (s : State) : (writeDec j v s).ctrl = s.ctrl := rfl
@[simp] theorem writeDec_config (j : Nat) (v : Sample) (s : State) : (writeDec j v s).config = s.config := rfl
@[simp] theorem writeDec_fs (j : Nat) (v : Sample) (s : State) : (writeDec j v s).fs = s.fs := rfl
@[simp] theorem writeDec_hpslo (j : Nat) (v : Sample) (s : State) : (writeDec j v s).hpslo = s.hpslo := rfl
@[simp] theorem writeDec_eng (j : Nat) (v : Sample) (s : State) : (writeDec j v s).eng = s.eng := rfl
@[simp] theorem writeDec_done (j : Nat) (v : Sample) (s : State) : (writeDec j v s).done = s.done := rfl
@[simp] theorem writeDec_err (j : Nat) (v : Sample) (s : State) : (writeDec j v s).err = s.err := rfl
@[simp] theorem writeDec_slot0 (j : Nat) (v : Sample) (s : State) : (writeDec j v s).slot0 = s.slot0 := rfl
@[simp] theorem writeDec_slot1 (j : Nat) (v : Sample) (s : State) : (writeDec j v s).slot1 = s.slot1 := rfl
@[simp] theorem writeDec_rdslot (j : Nat) (v : Sample) (s : State) : (writeDec j v s).rdslot = s.rdslot := rfl
@[simp] theorem writeDec_frdy (j : Nat) (v : Sample) (s : State) : (writeDec j v s).frdy = s.frdy := rfl
@[simp] theorem writeDec_curcmd (j : Nat) (v : Sample) (s : State) : (writeDec j v s).curcmd = s.curcmd := rfl
@[simp] theorem writeDec_cursor (j : Nat) (v : Sample) (s : State) : (writeDec j v s).cursor = s.cursor := rfl
@[simp] theorem writeDec_thresh (j : Nat) (v : Sample) (s : State) : (writeDec j v s).thresh = s.thresh := rfl
@[simp] theorem writeDec_arg0 (j : Nat) (v : Sample) (s : State) : (writeDec j v s).arg0 = s.arg0 := rfl
@[simp] theorem writeDec_arg1 (j : Nat) (v : Sample) (s : State) : (writeDec j v s).arg1 = s.arg1 := rfl
@[simp] theorem writeDec_out0 (j : Nat) (v : Sample) (s : State) : (writeDec j v s).out0 = s.out0 := rfl
@[simp] theorem writeDec_out1 (j : Nat) (v : Sample) (s : State) : (writeDec j v s).out1 = s.out1 := rfl
@[simp] theorem writeDec_result (j : Nat) (v : Sample) (s : State) : (writeDec j v s).result = s.result := rfl
@[simp] theorem writeDec_freq (j : Nat) (v : Sample) (s : State) : (writeDec j v s).freq = s.freq := rfl
@[simp] theorem writeDec_cents (j : Nat) (v : Sample) (s : State) : (writeDec j v s).cents = s.cents := rfl
@[simp] theorem writeDec_peakbin (j : Nat) (v : Sample) (s : State) : (writeDec j v s).peakbin = s.peakbin := rfl
@[simp] theorem writeDec_peakmag (j : Nat) (v : Sample) (s : State) : (writeDec j v s).peakmag = s.peakmag := rfl
@[simp] theorem writeDec_mem (j : Nat) (v : Sample) (s : State) : (writeDec j v s).mem = s.mem.setEntry 2 (decAddr j) v := rfl
@[simp] theorem writeDec_dl (j : Nat) (v : Sample) (s : State) : (writeDec j v s).dl = s.dl := rfl
@[simp] theorem writeDec_latched (j : Nat) (v : Sample) (s : State) : (writeDec j v s).latched = s.latched := rfl
@[simp] theorem writeDec_cfg (j : Nat) (v : Sample) (s : State) : (writeDec j v s).cfg = s.cfg := rfl
@[simp] theorem writeDec_rom (j : Nat) (v : Sample) (s : State) : (writeDec j v s).rom = s.rom := rfl
@[simp] theorem writeDec_faults (j : Nat) (v : Sample) (s : State) : (writeDec j v s).faults = s.faults := rfl
@[simp] theorem writeDec_freeCtr (j : Nat) (v : Sample) (s : State) : (writeDec j v s).freeCtr = s.freeCtr := rfl
@[simp] theorem writeDec_inputs (j : Nat) (v : Sample) (s : State) : (writeDec j v s).inputs = s.inputs := rfl
@[simp] theorem writeDec_resp (j : Nat) (v : Sample) (s : State) : (writeDec j v s).resp = s.resp := rfl

/-! ### writeSpec: `SPEC[k] ← v` -/

@[simp] theorem writeSpec_ctrl (k : Nat) (v : SpecWord) (s : State) : (writeSpec k v s).ctrl = s.ctrl := rfl
@[simp] theorem writeSpec_config (k : Nat) (v : SpecWord) (s : State) : (writeSpec k v s).config = s.config := rfl
@[simp] theorem writeSpec_fs (k : Nat) (v : SpecWord) (s : State) : (writeSpec k v s).fs = s.fs := rfl
@[simp] theorem writeSpec_hpslo (k : Nat) (v : SpecWord) (s : State) : (writeSpec k v s).hpslo = s.hpslo := rfl
@[simp] theorem writeSpec_eng (k : Nat) (v : SpecWord) (s : State) : (writeSpec k v s).eng = s.eng := rfl
@[simp] theorem writeSpec_done (k : Nat) (v : SpecWord) (s : State) : (writeSpec k v s).done = s.done := rfl
@[simp] theorem writeSpec_err (k : Nat) (v : SpecWord) (s : State) : (writeSpec k v s).err = s.err := rfl
@[simp] theorem writeSpec_slot0 (k : Nat) (v : SpecWord) (s : State) : (writeSpec k v s).slot0 = s.slot0 := rfl
@[simp] theorem writeSpec_slot1 (k : Nat) (v : SpecWord) (s : State) : (writeSpec k v s).slot1 = s.slot1 := rfl
@[simp] theorem writeSpec_rdslot (k : Nat) (v : SpecWord) (s : State) : (writeSpec k v s).rdslot = s.rdslot := rfl
@[simp] theorem writeSpec_frdy (k : Nat) (v : SpecWord) (s : State) : (writeSpec k v s).frdy = s.frdy := rfl
@[simp] theorem writeSpec_curcmd (k : Nat) (v : SpecWord) (s : State) : (writeSpec k v s).curcmd = s.curcmd := rfl
@[simp] theorem writeSpec_cursor (k : Nat) (v : SpecWord) (s : State) : (writeSpec k v s).cursor = s.cursor := rfl
@[simp] theorem writeSpec_thresh (k : Nat) (v : SpecWord) (s : State) : (writeSpec k v s).thresh = s.thresh := rfl
@[simp] theorem writeSpec_arg0 (k : Nat) (v : SpecWord) (s : State) : (writeSpec k v s).arg0 = s.arg0 := rfl
@[simp] theorem writeSpec_arg1 (k : Nat) (v : SpecWord) (s : State) : (writeSpec k v s).arg1 = s.arg1 := rfl
@[simp] theorem writeSpec_out0 (k : Nat) (v : SpecWord) (s : State) : (writeSpec k v s).out0 = s.out0 := rfl
@[simp] theorem writeSpec_out1 (k : Nat) (v : SpecWord) (s : State) : (writeSpec k v s).out1 = s.out1 := rfl
@[simp] theorem writeSpec_result (k : Nat) (v : SpecWord) (s : State) : (writeSpec k v s).result = s.result := rfl
@[simp] theorem writeSpec_freq (k : Nat) (v : SpecWord) (s : State) : (writeSpec k v s).freq = s.freq := rfl
@[simp] theorem writeSpec_cents (k : Nat) (v : SpecWord) (s : State) : (writeSpec k v s).cents = s.cents := rfl
@[simp] theorem writeSpec_peakbin (k : Nat) (v : SpecWord) (s : State) : (writeSpec k v s).peakbin = s.peakbin := rfl
@[simp] theorem writeSpec_peakmag (k : Nat) (v : SpecWord) (s : State) : (writeSpec k v s).peakmag = s.peakmag := rfl
@[simp] theorem writeSpec_mem (k : Nat) (v : SpecWord) (s : State) : (writeSpec k v s).mem = s.mem.setEntry 16 (specAddr k) v := rfl
@[simp] theorem writeSpec_dl (k : Nat) (v : SpecWord) (s : State) : (writeSpec k v s).dl = s.dl := rfl
@[simp] theorem writeSpec_latched (k : Nat) (v : SpecWord) (s : State) : (writeSpec k v s).latched = s.latched := rfl
@[simp] theorem writeSpec_cfg (k : Nat) (v : SpecWord) (s : State) : (writeSpec k v s).cfg = s.cfg := rfl
@[simp] theorem writeSpec_rom (k : Nat) (v : SpecWord) (s : State) : (writeSpec k v s).rom = s.rom := rfl
@[simp] theorem writeSpec_faults (k : Nat) (v : SpecWord) (s : State) : (writeSpec k v s).faults = s.faults := rfl
@[simp] theorem writeSpec_freeCtr (k : Nat) (v : SpecWord) (s : State) : (writeSpec k v s).freeCtr = s.freeCtr := rfl
@[simp] theorem writeSpec_inputs (k : Nat) (v : SpecWord) (s : State) : (writeSpec k v s).inputs = s.inputs := rfl
@[simp] theorem writeSpec_resp (k : Nat) (v : SpecWord) (s : State) : (writeSpec k v s).resp = s.resp := rfl

/-! ### writeIn: `IN[a] ← v` -/

@[simp] theorem writeIn_ctrl (a : Nat) (v : Sample) (s : State) : (writeIn a v s).ctrl = s.ctrl := rfl
@[simp] theorem writeIn_config (a : Nat) (v : Sample) (s : State) : (writeIn a v s).config = s.config := rfl
@[simp] theorem writeIn_fs (a : Nat) (v : Sample) (s : State) : (writeIn a v s).fs = s.fs := rfl
@[simp] theorem writeIn_hpslo (a : Nat) (v : Sample) (s : State) : (writeIn a v s).hpslo = s.hpslo := rfl
@[simp] theorem writeIn_eng (a : Nat) (v : Sample) (s : State) : (writeIn a v s).eng = s.eng := rfl
@[simp] theorem writeIn_done (a : Nat) (v : Sample) (s : State) : (writeIn a v s).done = s.done := rfl
@[simp] theorem writeIn_err (a : Nat) (v : Sample) (s : State) : (writeIn a v s).err = s.err := rfl
@[simp] theorem writeIn_slot0 (a : Nat) (v : Sample) (s : State) : (writeIn a v s).slot0 = s.slot0 := rfl
@[simp] theorem writeIn_slot1 (a : Nat) (v : Sample) (s : State) : (writeIn a v s).slot1 = s.slot1 := rfl
@[simp] theorem writeIn_rdslot (a : Nat) (v : Sample) (s : State) : (writeIn a v s).rdslot = s.rdslot := rfl
@[simp] theorem writeIn_frdy (a : Nat) (v : Sample) (s : State) : (writeIn a v s).frdy = s.frdy := rfl
@[simp] theorem writeIn_curcmd (a : Nat) (v : Sample) (s : State) : (writeIn a v s).curcmd = s.curcmd := rfl
@[simp] theorem writeIn_cursor (a : Nat) (v : Sample) (s : State) : (writeIn a v s).cursor = s.cursor := rfl
@[simp] theorem writeIn_thresh (a : Nat) (v : Sample) (s : State) : (writeIn a v s).thresh = s.thresh := rfl
@[simp] theorem writeIn_arg0 (a : Nat) (v : Sample) (s : State) : (writeIn a v s).arg0 = s.arg0 := rfl
@[simp] theorem writeIn_arg1 (a : Nat) (v : Sample) (s : State) : (writeIn a v s).arg1 = s.arg1 := rfl
@[simp] theorem writeIn_out0 (a : Nat) (v : Sample) (s : State) : (writeIn a v s).out0 = s.out0 := rfl
@[simp] theorem writeIn_out1 (a : Nat) (v : Sample) (s : State) : (writeIn a v s).out1 = s.out1 := rfl
@[simp] theorem writeIn_result (a : Nat) (v : Sample) (s : State) : (writeIn a v s).result = s.result := rfl
@[simp] theorem writeIn_freq (a : Nat) (v : Sample) (s : State) : (writeIn a v s).freq = s.freq := rfl
@[simp] theorem writeIn_cents (a : Nat) (v : Sample) (s : State) : (writeIn a v s).cents = s.cents := rfl
@[simp] theorem writeIn_peakbin (a : Nat) (v : Sample) (s : State) : (writeIn a v s).peakbin = s.peakbin := rfl
@[simp] theorem writeIn_peakmag (a : Nat) (v : Sample) (s : State) : (writeIn a v s).peakmag = s.peakmag := rfl
@[simp] theorem writeIn_mem (a : Nat) (v : Sample) (s : State) : (writeIn a v s).mem = s.mem.setEntry 2 (inAddr a) v := rfl
@[simp] theorem writeIn_dl (a : Nat) (v : Sample) (s : State) : (writeIn a v s).dl = s.dl := rfl
@[simp] theorem writeIn_latched (a : Nat) (v : Sample) (s : State) : (writeIn a v s).latched = s.latched := rfl
@[simp] theorem writeIn_cfg (a : Nat) (v : Sample) (s : State) : (writeIn a v s).cfg = s.cfg := rfl
@[simp] theorem writeIn_rom (a : Nat) (v : Sample) (s : State) : (writeIn a v s).rom = s.rom := rfl
@[simp] theorem writeIn_faults (a : Nat) (v : Sample) (s : State) : (writeIn a v s).faults = s.faults := rfl
@[simp] theorem writeIn_freeCtr (a : Nat) (v : Sample) (s : State) : (writeIn a v s).freeCtr = s.freeCtr := rfl
@[simp] theorem writeIn_inputs (a : Nat) (v : Sample) (s : State) : (writeIn a v s).inputs = s.inputs := rfl
@[simp] theorem writeIn_resp (a : Nat) (v : Sample) (s : State) : (writeIn a v s).resp = s.resp := rfl

/-! ### clearDl: clearing the delay line (R131, R155) -/

@[simp] theorem clearDl_ctrl (s : State) : (clearDl s).ctrl = s.ctrl := rfl
@[simp] theorem clearDl_config (s : State) : (clearDl s).config = s.config := rfl
@[simp] theorem clearDl_fs (s : State) : (clearDl s).fs = s.fs := rfl
@[simp] theorem clearDl_hpslo (s : State) : (clearDl s).hpslo = s.hpslo := rfl
@[simp] theorem clearDl_eng (s : State) : (clearDl s).eng = s.eng := rfl
@[simp] theorem clearDl_done (s : State) : (clearDl s).done = s.done := rfl
@[simp] theorem clearDl_err (s : State) : (clearDl s).err = s.err := rfl
@[simp] theorem clearDl_slot0 (s : State) : (clearDl s).slot0 = s.slot0 := rfl
@[simp] theorem clearDl_slot1 (s : State) : (clearDl s).slot1 = s.slot1 := rfl
@[simp] theorem clearDl_rdslot (s : State) : (clearDl s).rdslot = s.rdslot := rfl
@[simp] theorem clearDl_frdy (s : State) : (clearDl s).frdy = s.frdy := rfl
@[simp] theorem clearDl_curcmd (s : State) : (clearDl s).curcmd = s.curcmd := rfl
@[simp] theorem clearDl_cursor (s : State) : (clearDl s).cursor = s.cursor := rfl
@[simp] theorem clearDl_thresh (s : State) : (clearDl s).thresh = s.thresh := rfl
@[simp] theorem clearDl_arg0 (s : State) : (clearDl s).arg0 = s.arg0 := rfl
@[simp] theorem clearDl_arg1 (s : State) : (clearDl s).arg1 = s.arg1 := rfl
@[simp] theorem clearDl_out0 (s : State) : (clearDl s).out0 = s.out0 := rfl
@[simp] theorem clearDl_out1 (s : State) : (clearDl s).out1 = s.out1 := rfl
@[simp] theorem clearDl_result (s : State) : (clearDl s).result = s.result := rfl
@[simp] theorem clearDl_freq (s : State) : (clearDl s).freq = s.freq := rfl
@[simp] theorem clearDl_cents (s : State) : (clearDl s).cents = s.cents := rfl
@[simp] theorem clearDl_peakbin (s : State) : (clearDl s).peakbin = s.peakbin := rfl
@[simp] theorem clearDl_peakmag (s : State) : (clearDl s).peakmag = s.peakmag := rfl
@[simp] theorem clearDl_mem (s : State) : (clearDl s).mem = s.mem := rfl
@[simp] theorem clearDl_dl (s : State) : (clearDl s).dl = List.replicate (s.rom.firCoef.length - 1) 0 := rfl
@[simp] theorem clearDl_latched (s : State) : (clearDl s).latched = s.latched := rfl
@[simp] theorem clearDl_cfg (s : State) : (clearDl s).cfg = s.cfg := rfl
@[simp] theorem clearDl_rom (s : State) : (clearDl s).rom = s.rom := rfl
@[simp] theorem clearDl_faults (s : State) : (clearDl s).faults = s.faults := rfl
@[simp] theorem clearDl_freeCtr (s : State) : (clearDl s).freeCtr = s.freeCtr := rfl
@[simp] theorem clearDl_inputs (s : State) : (clearDl s).inputs = s.inputs := rfl
@[simp] theorem clearDl_resp (s : State) : (clearDl s).resp = s.resp := rfl

/-! ### accept: acceptance (R121, R122) -/

@[simp] theorem accept_ctrl (i : Instr) (s : State) : (accept i s).ctrl = s.ctrl := rfl
@[simp] theorem accept_config (i : Instr) (s : State) : (accept i s).config = s.config := rfl
@[simp] theorem accept_fs (i : Instr) (s : State) : (accept i s).fs = s.fs := rfl
@[simp] theorem accept_hpslo (i : Instr) (s : State) : (accept i s).hpslo = s.hpslo := rfl
@[simp] theorem accept_eng (i : Instr) (s : State) : (accept i s).eng = if claimsSlot i then .wait else .exec := rfl
@[simp] theorem accept_done (i : Instr) (s : State) : (accept i s).done = false := rfl
@[simp] theorem accept_err (i : Instr) (s : State) : (accept i s).err = s.err := rfl
@[simp] theorem accept_slot0 (i : Instr) (s : State) : (accept i s).slot0 = s.slot0 := rfl
@[simp] theorem accept_slot1 (i : Instr) (s : State) : (accept i s).slot1 = s.slot1 := rfl
@[simp] theorem accept_rdslot (i : Instr) (s : State) : (accept i s).rdslot = s.rdslot := rfl
@[simp] theorem accept_frdy (i : Instr) (s : State) : (accept i s).frdy = s.frdy := rfl
@[simp] theorem accept_curcmd (i : Instr) (s : State) : (accept i s).curcmd = opcode i := rfl
@[simp] theorem accept_cursor (i : Instr) (s : State) : (accept i s).cursor = s.cursor := rfl
@[simp] theorem accept_thresh (i : Instr) (s : State) : (accept i s).thresh = s.thresh := rfl
@[simp] theorem accept_arg0 (i : Instr) (s : State) : (accept i s).arg0 = s.arg0 := rfl
@[simp] theorem accept_arg1 (i : Instr) (s : State) : (accept i s).arg1 = s.arg1 := rfl
@[simp] theorem accept_out0 (i : Instr) (s : State) : (accept i s).out0 = s.out0 := rfl
@[simp] theorem accept_out1 (i : Instr) (s : State) : (accept i s).out1 = s.out1 := rfl
@[simp] theorem accept_result (i : Instr) (s : State) : (accept i s).result = s.result := rfl
@[simp] theorem accept_freq (i : Instr) (s : State) : (accept i s).freq = s.freq := rfl
@[simp] theorem accept_cents (i : Instr) (s : State) : (accept i s).cents = s.cents := rfl
@[simp] theorem accept_peakbin (i : Instr) (s : State) : (accept i s).peakbin = s.peakbin := rfl
@[simp] theorem accept_peakmag (i : Instr) (s : State) : (accept i s).peakmag = s.peakmag := rfl
@[simp] theorem accept_mem (i : Instr) (s : State) : (accept i s).mem = s.mem := rfl
@[simp] theorem accept_dl (i : Instr) (s : State) : (accept i s).dl = s.dl := rfl
@[simp] theorem accept_latched (i : Instr) (s : State) : (accept i s).latched = latch i s := rfl
@[simp] theorem accept_cfg (i : Instr) (s : State) : (accept i s).cfg = s.cfg := rfl
@[simp] theorem accept_rom (i : Instr) (s : State) : (accept i s).rom = s.rom := rfl
@[simp] theorem accept_faults (i : Instr) (s : State) : (accept i s).faults = s.faults := rfl
@[simp] theorem accept_freeCtr (i : Instr) (s : State) : (accept i s).freeCtr = s.freeCtr := rfl
@[simp] theorem accept_inputs (i : Instr) (s : State) : (accept i s).inputs = s.inputs := rfl
@[simp] theorem accept_resp (i : Instr) (s : State) : (accept i s).resp = s.resp := rfl

/-! ### complete: the end of a completion step (R124) -/

@[simp] theorem complete_ctrl (s : State) : (complete s).ctrl = s.ctrl := rfl
@[simp] theorem complete_config (s : State) : (complete s).config = s.config := rfl
@[simp] theorem complete_fs (s : State) : (complete s).fs = s.fs := rfl
@[simp] theorem complete_hpslo (s : State) : (complete s).hpslo = s.hpslo := rfl
@[simp] theorem complete_eng (s : State) : (complete s).eng = .idle := rfl
@[simp] theorem complete_done (s : State) : (complete s).done = true := rfl
@[simp] theorem complete_err (s : State) : (complete s).err = s.err := rfl
@[simp] theorem complete_slot0 (s : State) : (complete s).slot0 = s.slot0 := rfl
@[simp] theorem complete_slot1 (s : State) : (complete s).slot1 = s.slot1 := rfl
@[simp] theorem complete_rdslot (s : State) : (complete s).rdslot = s.rdslot := rfl
@[simp] theorem complete_frdy (s : State) : (complete s).frdy = s.frdy := rfl
@[simp] theorem complete_curcmd (s : State) : (complete s).curcmd = s.curcmd := rfl
@[simp] theorem complete_cursor (s : State) : (complete s).cursor = s.cursor := rfl
@[simp] theorem complete_thresh (s : State) : (complete s).thresh = s.thresh := rfl
@[simp] theorem complete_arg0 (s : State) : (complete s).arg0 = s.arg0 := rfl
@[simp] theorem complete_arg1 (s : State) : (complete s).arg1 = s.arg1 := rfl
@[simp] theorem complete_out0 (s : State) : (complete s).out0 = s.out0 := rfl
@[simp] theorem complete_out1 (s : State) : (complete s).out1 = s.out1 := rfl
@[simp] theorem complete_result (s : State) : (complete s).result = s.result := rfl
@[simp] theorem complete_freq (s : State) : (complete s).freq = s.freq := rfl
@[simp] theorem complete_cents (s : State) : (complete s).cents = s.cents := rfl
@[simp] theorem complete_peakbin (s : State) : (complete s).peakbin = s.peakbin := rfl
@[simp] theorem complete_peakmag (s : State) : (complete s).peakmag = s.peakmag := rfl
@[simp] theorem complete_mem (s : State) : (complete s).mem = s.mem := rfl
@[simp] theorem complete_dl (s : State) : (complete s).dl = s.dl := rfl
@[simp] theorem complete_latched (s : State) : (complete s).latched = s.latched := rfl
@[simp] theorem complete_cfg (s : State) : (complete s).cfg = s.cfg := rfl
@[simp] theorem complete_rom (s : State) : (complete s).rom = s.rom := rfl
@[simp] theorem complete_faults (s : State) : (complete s).faults = s.faults := rfl
@[simp] theorem complete_freeCtr (s : State) : (complete s).freeCtr = s.freeCtr := rfl
@[simp] theorem complete_inputs (s : State) : (complete s).inputs = s.inputs := rfl
@[simp] theorem complete_resp (s : State) : (complete s).resp = s.resp := rfl

/-! ### Slots -/

@[simp] theorem slot_setSlot_same (b : Bool) (v : SlotState) (s : State) : (setSlot b v s).slot b = v := by
  cases b <;> rfl

@[simp] theorem slot_setSlot_other (b : Bool) (v : SlotState) (s : State) : (setSlot b v s).slot (!b) = s.slot (!b) := by
  cases b <;> rfl

theorem slot_setSlot (b b' : Bool) (v : SlotState) (s : State) :
    (setSlot b v s).slot b' = if b' = b then v else s.slot b' := by
  cases b <;> cases b' <;> rfl

/-! ### The error record -/

/-- R252: with no error recorded, the code is recorded. -/
theorem raiseError_of_none {c : ErrCode} {s : State} (h : s.err = none) : (raiseError c s).err = some c := by simp [h]

/-- R252: a recorded error is kept. -/
theorem raiseError_of_some {c c' : ErrCode} {s : State} (h : s.err = some c') : raiseError c s = s := by
  have he : s.err.or (some c) = s.err := by rw [h]; rfl
  rw [raiseError, he]

/-! ### The fault record -/

theorem mem_recordFault (f g : Fault) (fs : List Fault) : g ∈ recordFault f fs ↔ g = f ∨ g ∈ fs := by
  unfold recordFault
  split <;> rename_i h
  · exact ⟨.inr, fun hg => hg.elim (· ▸ h) id⟩
  · simp [or_comm]

theorem recordFault_ne_nil (f : Fault) (fs : List Fault) : recordFault f fs ≠ [] :=
  List.ne_nil_of_mem ((mem_recordFault f f fs).2 (.inl rfl))

end Sys2Proof.Machine
end

