-- ==== Sys2Proof/Laws/Access.lean ====
section
/-! SUPPORT. Laws of the entries of `IN`, `DEC` and `SPEC`, and of reading them: what a read can do to the state, and
what the runs of writes do. -/

namespace Sys2Proof.Machine

/-! ## Reading -/

/-- A written entry is read as it is, and nothing changes. -/
@[simp] theorem readOr_some {w : Nat} (x : BitVec w) (s : State) : readOr (some x) s = (x, s) := rfl

/-- An unwritten entry reads as a free value, and the fault is recorded (R56). -/
@[simp] theorem readOr_none {w : Nat} (s : State) :
    readOr (none : Option (BitVec w)) s = (freeValue w s, modelFault .unwritten (drawn s)) := rfl

/-- `t` is `s` but for the fault record and the count of free values. -/
def SameButDraws (s t : State) : Prop := ∃ fs c, t = { s with faults := fs, freeCtr := c }

theorem SameButDraws.refl (s : State) : SameButDraws s s := ⟨s.faults, s.freeCtr, rfl⟩

theorem SameButDraws.trans {s t u : State} (h : SameButDraws s t) (h' : SameButDraws t u) : SameButDraws s u := by
  obtain ⟨fs, c, rfl⟩ := h
  obtain ⟨fs', c', rfl⟩ := h'
  exact ⟨fs', c', rfl⟩

/-- Whatever is read, only the fault record and the count of free values can change. -/
theorem readOr_state {w : Nat} (v : Option (BitVec w)) (s : State) : SameButDraws s (readOr v s).2 := by
  cases v with
  | some x => exact .refl s
  | none => exact ⟨_, _, rfl⟩

theorem readAll_state {w : Nat} (get : Nat → Option (BitVec w)) (is : List Nat) (s : State) :
    SameButDraws s (readAll get is s).2 := by
  induction is generalizing s with
  | nil => exact .refl s
  | cons i is ih => exact (readOr_state (get i) s).trans (ih _)

/-- Entries that are all written are read as they are, and nothing changes. -/
theorem readAll_written {w : Nat} {get : Nat → Option (BitVec w)} {val : Nat → BitVec w} {is : List Nat}
    (h : ∀ i ∈ is, get i = some (val i)) (s : State) : readAll get is s = (is.map val, s) := by
  induction is with
  | nil => rfl
  | cons i is ih =>
    rw [readAll, h i List.mem_cons_self]
    simp [ih fun j hj => h j (List.mem_cons_of_mem i hj)]

/-- A read of a written entry changes nothing. -/
theorem readOr_isSome {w : Nat} {v : Option (BitVec w)} {s : State} (h : v.isSome = true) : (readOr v s).2 = s := by
  obtain ⟨x, rfl⟩ := Option.isSome_iff_exists.1 h
  rfl

theorem readAll_isSome {w : Nat} {get : Nat → Option (BitVec w)} {is : List Nat} {s : State}
    (h : ∀ i ∈ is, (get i).isSome = true) : (readAll get is s).2 = s := by
  rw [readAll_written (val := fun i => (get i).getD 0) fun i hi => by
    obtain ⟨x, hx⟩ := Option.isSome_iff_exists.1 (h i hi)
    rw [hx]; rfl]

/-- A fault is only ever added (R56). -/
theorem readOr_faults {w : Nat} {v : Option (BitVec w)} {s : State} {f : Fault} (h : f ∈ s.faults) :
    f ∈ (readOr v s).2.faults := by
  cases v with
  | some x => exact h
  | none => exact (mem_recordFault .unwritten f s.faults).2 (.inr h)

/-- Reading without a new fault is reading what is written. -/
theorem readOr_no_fault {w : Nat} {v : Option (BitVec w)} {s : State} (h : (readOr v s).2.faults = []) :
    ∃ x, v = some x := by
  cases v with
  | some x => exact ⟨x, rfl⟩
  | none => exact absurd h (recordFault_ne_nil _ _)

/-! ## Entries -/

theorem dec_writeDec_same (j : Nat) (v : Sample) (s : State) : (writeDec j v s).dec j = some v :=
  entry_setEntry_same s.mem _ v (by omega)

theorem dec_writeDec_ne {j j' : Nat} (h : j' ≠ j) (v : Sample) (s : State) : (writeDec j v s).dec j' = s.dec j' :=
  entry_setEntry_disjoint (by unfold decAddr; omega)

theorem spec_writeSpec_same (k : Nat) (v : SpecWord) (s : State) : (writeSpec k v s).spec k = some v :=
  entry_setEntry_same s.mem _ v (by omega)

theorem spec_writeSpec_ne {k k' : Nat} (h : k' ≠ k) (v : SpecWord) (s : State) :
    (writeSpec k v s).spec k' = s.spec k' :=
  entry_setEntry_disjoint (by unfold specAddr; omega)

theorem inp_writeIn_same (a : Nat) (v : Sample) (s : State) : (writeIn a v s).inp a = some v :=
  entry_setEntry_same s.mem _ v (by omega)

theorem inp_writeIn_ne {a a' : Nat} (h : a' ≠ a) (v : Sample) (s : State) : (writeIn a v s).inp a' = s.inp a' :=
  entry_setEntry_disjoint (by unfold inAddr; omega)

/-- The windows do not overlap (R22). -/
theorem spec_writeDec {j k : Nat} (hj : j < 4096) (v : Sample) (s : State) : (writeDec j v s).spec k = s.spec k :=
  entry_setEntry_disjoint (by unfold decAddr specAddr; omega)

theorem inp_writeDec {j a : Nat} (hj : j < 4096) (v : Sample) (s : State) : (writeDec j v s).inp a = s.inp a :=
  entry_setEntry_disjoint (by unfold decAddr inAddr; omega)

theorem dec_writeSpec {j k : Nat} (hj : j < 4096) (v : SpecWord) (s : State) : (writeSpec k v s).dec j = s.dec j :=
  entry_setEntry_disjoint (by unfold decAddr specAddr; omega)

theorem inp_writeSpec {k a : Nat} (hk : k < 2048) (v : SpecWord) (s : State) : (writeSpec k v s).inp a = s.inp a :=
  entry_setEntry_disjoint (by unfold specAddr inAddr; omega)

theorem dec_writeIn {a j : Nat} (hj : j < 4096) (v : Sample) (s : State) : (writeIn a v s).dec j = s.dec j :=
  entry_setEntry_disjoint (by unfold decAddr inAddr; omega)

theorem spec_writeIn {a k : Nat} (hk : k < 2048) (v : Sample) (s : State) : (writeIn a v s).spec k = s.spec k :=
  entry_setEntry_disjoint (by unfold specAddr inAddr; omega)

/-! ## Runs of writes -/

/-- A run of `DEC` writes changes the memory only. -/
theorem writeDecs_state (vs : List Sample) (j : Nat) (s : State) :
    ∃ m, writeDecs j vs s = { s with mem := m } := by
  induction vs generalizing j s with
  | nil => exact ⟨s.mem, rfl⟩
  | cons v vs ih =>
    obtain ⟨m, h⟩ := ih (j + 1) (writeDec j v s)
    exact ⟨m, by rw [writeDecs, h]; rfl⟩

theorem writeSpecs_state (vs : List SpecWord) (k : Nat) (s : State) :
    ∃ m, writeSpecs k vs s = { s with mem := m } := by
  induction vs generalizing k s with
  | nil => exact ⟨s.mem, rfl⟩
  | cons v vs ih =>
    obtain ⟨m, h⟩ := ih (k + 1) (writeSpec k v s)
    exact ⟨m, by rw [writeSpecs, h]; rfl⟩

/-- What `DEC` holds after a run of writes. -/
theorem dec_writeDecs (vs : List Sample) (j j' : Nat) (s : State) :
    (writeDecs j vs s).dec j' = if j ≤ j' ∧ j' < j + vs.length then vs[j' - j]? else s.dec j' := by
  induction vs generalizing j s with
  | nil => simp [writeDecs]
  | cons v vs ih =>
    rw [writeDecs, ih]
    rcases Nat.lt_trichotomy j' j with h | rfl | h
    · rw [if_neg (by omega), if_neg (by omega), dec_writeDec_ne (by omega)]
    · rw [if_neg (by omega), if_pos (by simp), dec_writeDec_same]; simp
    · obtain ⟨d, rfl⟩ : ∃ d, j' = j + 1 + d := ⟨j' - j - 1, by omega⟩
      by_cases hd : d < vs.length
      · rw [if_pos (by omega), if_pos (by simp; omega)]
        simp [show j + 1 + d - j = d + 1 by omega]
      · rw [if_neg (by omega), if_neg (by simp; omega), dec_writeDec_ne (by omega)]

/-- What `SPEC` holds after a run of writes. -/
theorem spec_writeSpecs (vs : List SpecWord) (k k' : Nat) (s : State) :
    (writeSpecs k vs s).spec k' = if k ≤ k' ∧ k' < k + vs.length then vs[k' - k]? else s.spec k' := by
  induction vs generalizing k s with
  | nil => simp [writeSpecs]
  | cons v vs ih =>
    rw [writeSpecs, ih]
    rcases Nat.lt_trichotomy k' k with h | rfl | h
    · rw [if_neg (by omega), if_neg (by omega), spec_writeSpec_ne (by omega)]
    · rw [if_neg (by omega), if_pos (by simp), spec_writeSpec_same]; simp
    · obtain ⟨d, rfl⟩ : ∃ d, k' = k + 1 + d := ⟨k' - k - 1, by omega⟩
      by_cases hd : d < vs.length
      · rw [if_pos (by omega), if_pos (by simp; omega)]
        simp [show k + 1 + d - k = d + 1 by omega]
      · rw [if_neg (by omega), if_neg (by simp; omega), spec_writeSpec_ne (by omega)]

theorem spec_writeDecs {vs : List Sample} {j : Nat} (h : j + vs.length ≤ 4096) (k : Nat) (s : State) :
    (writeDecs j vs s).spec k = s.spec k := by
  induction vs generalizing j s with
  | nil => rfl
  | cons v vs ih =>
    rw [List.length_cons] at h
    rw [writeDecs, ih (by omega), spec_writeDec (by omega)]

theorem inp_writeDecs {vs : List Sample} {j : Nat} (h : j + vs.length ≤ 4096) (a : Nat) (s : State) :
    (writeDecs j vs s).inp a = s.inp a := by
  induction vs generalizing j s with
  | nil => rfl
  | cons v vs ih =>
    rw [List.length_cons] at h
    rw [writeDecs, ih (by omega), inp_writeDec (by omega)]

theorem dec_writeSpecs {j : Nat} (hj : j < 4096) (vs : List SpecWord) (k : Nat) (s : State) :
    (writeSpecs k vs s).dec j = s.dec j := by
  induction vs generalizing k s with
  | nil => rfl
  | cons v vs ih => rw [writeSpecs, ih, dec_writeSpec hj]

theorem inp_writeSpecs {vs : List SpecWord} {k : Nat} (h : k + vs.length ≤ 2048) (a : Nat) (s : State) :
    (writeSpecs k vs s).inp a = s.inp a := by
  induction vs generalizing k s with
  | nil => rfl
  | cons v vs ih =>
    rw [List.length_cons] at h
    rw [writeSpecs, ih (by omega), inp_writeSpec (by omega)]

/-- A run of `DEC` writes leaves every byte outside its entries alone. -/
theorem byte_writeDecs_of_outside {vs : List Sample} {j : Nat} {s : State} {x : Nat}
    (h : ∀ i, i < vs.length → x < decAddr (j + i) ∨ decAddr (j + i) + 2 ≤ x) :
    (writeDecs j vs s).mem.byte x = s.mem.byte x := by
  induction vs generalizing j s with
  | nil => rfl
  | cons v vs ih =>
    rw [writeDecs, ih fun i hi => by
      have := h (i + 1) (by simpa using hi)
      rwa [show j + (i + 1) = j + 1 + i by omega] at this]
    exact byte_setEntry_of_outside (by simpa using h 0 (by simp))

/-- A run of `SPEC` writes leaves every byte outside its entries alone. -/
theorem byte_writeSpecs_of_outside {vs : List SpecWord} {k : Nat} {s : State} {x : Nat}
    (h : x < specAddr k ∨ specAddr (k + vs.length) ≤ x) : (writeSpecs k vs s).mem.byte x = s.mem.byte x := by
  induction vs generalizing k s with
  | nil => rfl
  | cons v vs ih =>
    rw [List.length_cons] at h
    rw [writeSpecs, ih (by unfold specAddr at *; omega)]
    exact byte_setEntry_of_outside (by unfold specAddr at *; omega)

/-- Runs of writes keep the canonical form. -/
theorem wf_writeDecs {s : State} (h : s.mem.wf = true) (vs : List Sample) (j : Nat) :
    (writeDecs j vs s).mem.wf = true := by
  induction vs generalizing j s with
  | nil => exact h
  | cons v vs ih => exact ih (wf_setEntry h _ _ _) (j + 1)

theorem wf_writeSpecs {s : State} (h : s.mem.wf = true) (vs : List SpecWord) (k : Nat) :
    (writeSpecs k vs s).mem.wf = true := by
  induction vs generalizing k s with
  | nil => exact h
  | cons v vs ih => exact ih (wf_setEntry h _ _ _) (k + 1)

end Sys2Proof.Machine
end

