-- ==== Sys2Proof/Laws/Command.lean ====
section
/-! SUPPORT. Laws of the command lifecycle and the bodies: what one step of a command can do, and which fields each body
can change. -/

namespace Sys2Proof.Machine

/-- The body of each command. -/
def bodyOf : Instr → State → State
  | .nop => bodyNop
  | .run => bodyRun
  | .filt => bodyFilt
  | .xform => bodyXform
  | .hps => bodyHps
  | .peak => bodyPeak
  | .firclr => bodyFirclr
  | .b2f => bodyB2f
  | .f2b => bodyF2b
  | .note => bodyNote
  | .cents => bodyCents

/-- Every arm runs the shared lifecycle on its own body. -/
theorem exec_eq_runCommand (i : Instr) (s : State) : exec i s = runCommand i (bodyOf i) s := by
  cases i <;> rfl

theorem runCommand_idle {i : Instr} {body : State → State} {s : State} (h : s.eng = .idle) :
    runCommand i body s = .next (offerDecoded i s) := by
  simp [runCommand, h]

theorem runCommand_wait {i : Instr} {body : State → State} {s : State} (h : s.eng = .wait) :
    runCommand i body s = .next (claim s) := by
  simp [runCommand, h]

theorem runCommand_exec {i : Instr} {body : State → State} {s : State} (h : s.eng = .exec) :
    runCommand i body s = .next (complete (body s)) := by
  simp [runCommand, h]

/-- Once everything a step of a command can do: be offered, try its claim, or run its body and complete. -/
theorem exec_cases {i : Instr} {s t : State} (h : exec i s = .next t) :
    (s.eng = .idle ∧ t = offerDecoded i s) ∨ (s.eng = .wait ∧ t = claim s) ∨
      (s.eng = .exec ∧ t = complete (bodyOf i s)) := by
  rw [exec_eq_runCommand] at h
  cases he : s.eng
  · rw [runCommand_idle he] at h; cases h; simp
  · rw [runCommand_wait he] at h; cases h; simp
  · rw [runCommand_exec he] at h; cases h; simp

/-- What an offer can do (R121): be refused with one error, or be accepted. -/
theorem offerDecoded_cases (i : Instr) (s : State) :
    (needsEN i = true ∧ s.ctrl.en = false ∧ offerDecoded i s = raiseError .noten s) ∨
    (i = .cents ∧ (s.arg0 = 0 ∨ s.arg1 = 0) ∧ offerDecoded i s = raiseError .arg s) ∨
    ((needsEN i = true → s.ctrl.en = true) ∧ (i = .cents → s.arg0 ≠ 0 ∧ s.arg1 ≠ 0) ∧ offerDecoded i s = accept i s) := by
  unfold offerDecoded
  split
  · next h1 =>
    simp only [Bool.and_eq_true, Bool.not_eq_true'] at h1
    exact .inl ⟨h1.1, h1.2, rfl⟩
  · next h1 =>
    split
    · next h2 =>
      simp only [Bool.and_eq_true, beq_iff_eq, Bool.or_eq_true] at h2
      exact .inr (.inl ⟨h2.1, h2.2, rfl⟩)
    · next h2 =>
      refine .inr (.inr ⟨fun hn => ?_, fun hc => ?_, rfl⟩)
      · simpa [hn] using h1
      · simpa [hc, not_or] using h2

/-- What a claim can do (R229): take the ready read slot, or nothing. -/
theorem claim_cases (s : State) :
    (s.slot s.rdslot = .ready ∧
      claim s = { setSlot s.rdslot .claimed s with latched := { s.latched with slot := s.rdslot }, eng := .exec }) ∨
    (s.slot s.rdslot ≠ .ready ∧ claim s = s) := by
  unfold claim
  by_cases h : s.slot s.rdslot = .ready
  · exact .inl ⟨h, by rw [if_pos h]⟩
  · exact .inr ⟨h, by rw [if_neg h]⟩

/-! ## What each body can change -/

theorem bodyXform_state (s : State) : ∃ m fs c, bodyXform s = { s with mem := m, faults := fs, freeCtr := c } := by
  obtain ⟨fs, c, h⟩ := readAll_state s.dec (List.range s.cfg.n) s
  obtain ⟨m, h'⟩ := writeSpecs_state (magnitudes s.cfg.n s.cfg.b (readDec s).1) 0 (readDec s).2
  exact ⟨m, fs, c, by
    show writeSpecs 0 _ _ = _
    rw [h', readDec, h]⟩

/-- `body(FILT)` with its parts named (R151). -/
theorem bodyFilt_eq (s : State) : bodyFilt s =
    { setSlot s.latched.slot .empty
        (writeDecs 0 (decimate s.rom.firCoef (firInput (readFrame s).1 s.dl) s.cfg.n s.cfg.d) (readFrame s).2) with
      dl := nextDl s.rom.firCoef (firInput (readFrame s).1 s.dl) s.nd, rdslot := !s.rdslot } := rfl

theorem bodyFilt_state (s : State) : ∃ m fs c dl, bodyFilt s =
    { setSlot s.latched.slot .empty s with mem := m, dl := dl, rdslot := !s.rdslot, faults := fs, freeCtr := c } := by
  obtain ⟨fs, c, h⟩ := readAll_state s.inp (List.range' (s.slotBase s.latched.slot) s.nd) s
  obtain ⟨m, h'⟩ := writeDecs_state
    (decimate s.rom.firCoef (firInput (readFrame s).1 s.dl) s.cfg.n s.cfg.d) 0 (readFrame s).2
  exact ⟨m, fs, c, _, by
    rw [bodyFilt_eq, h', readFrame, h]
    rfl⟩

theorem hpsHarmonic_state (i : Nat) (p : SpecWord × State) (k : Nat) :
    SameButDraws p.2 (hpsHarmonic i p k).2 := by
  unfold hpsHarmonic
  split
  · exact readOr_state (p.2.spec (k * i)) p.2
  · exact SameButDraws.refl p.2

theorem hpsCandidate_eq (s : State) (i : Nat) : hpsCandidate s i =
    writeSpec i ([2, 3, 4].foldl (hpsHarmonic i) (readOr (s.spec i) s)).1
      ([2, 3, 4].foldl (hpsHarmonic i) (readOr (s.spec i) s)).2 := rfl

theorem hpsCandidate_state (s : State) (i : Nat) :
    ∃ m fs c, hpsCandidate s i = { s with mem := m, faults := fs, freeCtr := c } := by
  have h : SameButDraws s ([2, 3, 4].foldl (hpsHarmonic i) (readOr (s.spec i) s)).2 :=
    (((readOr_state (s.spec i) s).trans (hpsHarmonic_state i _ 2)).trans
      (hpsHarmonic_state i _ 3)).trans (hpsHarmonic_state i _ 4)
  obtain ⟨fs, c, h⟩ := h
  exact ⟨_, fs, c, by rw [hpsCandidate_eq, h]; rfl⟩

theorem foldl_hpsCandidate_state (is : List Nat) (s : State) :
    ∃ m fs c, is.foldl hpsCandidate s = { s with mem := m, faults := fs, freeCtr := c } := by
  induction is generalizing s with
  | nil => exact ⟨s.mem, s.faults, s.freeCtr, rfl⟩
  | cons i is ih =>
    obtain ⟨m, fs, c, h⟩ := hpsCandidate_state s i
    obtain ⟨m', fs', c', h'⟩ := ih (hpsCandidate s i)
    exact ⟨m', fs', c', by rw [List.foldl_cons, h', h]⟩

theorem bodyHps_state (s : State) : ∃ m fs c, bodyHps s = { s with mem := m, faults := fs, freeCtr := c } :=
  foldl_hpsCandidate_state _ s

/-- `body(PEAK)` with its parts named (R192). -/
theorem bodyPeak_eq (s : State) : bodyPeak s =
    { (readSpec s).2 with
      peakbin := BitVec.ofNat 11 (peakOf (readSpec s).1).1
      peakmag := (peakOf (readSpec s).1).2
      freq := b2f s.cfg.binw (peakOf (readSpec s).1).1
      result := (pitchOf s.rom.noteTable s.latched.thresh (peakOf (readSpec s).1).2
        (b2f s.cfg.binw (peakOf (readSpec s).1).1)).1
      cents := (pitchOf s.rom.noteTable s.latched.thresh (peakOf (readSpec s).1).2
        (b2f s.cfg.binw (peakOf (readSpec s).1).1)).2 } := rfl

theorem bodyPeak_state (s : State) : ∃ fs c pb pm f r ce, bodyPeak s =
    { s with peakbin := pb, peakmag := pm, freq := f, result := r, cents := ce, faults := fs, freeCtr := c } := by
  obtain ⟨fs, c, h⟩ := readAll_state s.spec (List.range s.cfg.b) s
  exact ⟨fs, c, _, _, _, _, _, by rw [bodyPeak_eq, readSpec, h]⟩

theorem bodyNote_state (s : State) : ∃ o0 o1, bodyNote s = { s with out0 := o0, out1 := o1 } := by
  unfold bodyNote
  split
  · exact ⟨_, _, rfl⟩
  · exact ⟨_, _, rfl⟩

/-- `RUN` is the four bodies in a row (R240): what it can change is what they can. -/
theorem bodyRun_state (s : State) : ∃ m fs c dl pb pm f r ce, bodyRun s =
    { setSlot s.latched.slot .empty s with
      mem := m, dl := dl, rdslot := !s.rdslot, faults := fs, freeCtr := c,
      peakbin := pb, peakmag := pm, freq := f, result := r, cents := ce } := by
  obtain ⟨m1, fs1, c1, dl, h1⟩ := bodyFilt_state s
  obtain ⟨m2, fs2, c2, h2⟩ := bodyXform_state (bodyFilt s)
  obtain ⟨m3, fs3, c3, h3⟩ := bodyHps_state (bodyXform (bodyFilt s))
  obtain ⟨fs4, c4, pb, pm, f, r, ce, h4⟩ := bodyPeak_state (bodyHps (bodyXform (bodyFilt s)))
  exact ⟨m3, fs4, c4, dl, pb, pm, f, r, ce, by rw [bodyRun, h4, h3, h2, h1]⟩

/-! ## The bodies on written entries -/

/-- `body(FILT)` on a written frame records no fault, and writes `DEC[0 … N−1]` (R151). -/
theorem bodyFilt_written {s : State}
    (h : ∀ a, a < s.nd → (s.inp (s.slotBase s.latched.slot + a)).isSome = true) :
    (bodyFilt s).faults = s.faults ∧ ∀ j, j < s.cfg.n → ((bodyFilt s).dec j).isSome = true := by
  have hr : (readFrame s).2 = s := readAll_isSome fun i hi => by
    obtain ⟨a, ha, rfl⟩ := List.mem_range'.1 hi
    rw [Nat.one_mul]
    exact h a ha
  rw [bodyFilt_eq, hr]
  obtain ⟨m, hm⟩ := writeDecs_state (decimate s.rom.firCoef (firInput (readFrame s).1 s.dl) s.cfg.n s.cfg.d) 0 s
  refine ⟨by rw [hm]; rfl, fun j hj => ?_⟩
  show ((writeDecs 0 _ s).dec j).isSome = true
  rw [dec_writeDecs, if_pos (by simpa [decimate] using hj)]
  simpa [decimate] using hj

/-- `body(XFORM)` on a written frame records no fault, and writes `SPEC[0 … B−1]` (R171). -/
theorem bodyXform_written {s : State} (h : ∀ j, j < s.cfg.n → (s.dec j).isSome = true) :
    (bodyXform s).faults = s.faults ∧ ∀ k, k < s.cfg.b → ((bodyXform s).spec k).isSome = true := by
  have hr : (readDec s).2 = s := readAll_isSome fun j hj => h j (List.mem_range.1 hj)
  have he : bodyXform s = writeSpecs 0 (magnitudes s.cfg.n s.cfg.b (readDec s).1) (readDec s).2 := rfl
  rw [he, hr]
  obtain ⟨m, hm⟩ := writeSpecs_state (magnitudes s.cfg.n s.cfg.b (readDec s).1) 0 s
  refine ⟨by rw [hm], fun k hk => ?_⟩
  rw [spec_writeSpecs, if_pos (by simpa [magnitudes] using hk)]
  simpa [magnitudes] using hk

theorem hpsHarmonic_written {i k : Nat} {p : SpecWord × State} {s : State}
    (h : ∀ k, k < s.cfg.b → (s.spec k).isSome = true) (hp : p.2 = s) : (hpsHarmonic i p k).2 = s := by
  subst hp
  unfold hpsHarmonic
  split
  · next hk => exact readOr_isSome (h _ hk)
  · rfl

/-- A candidate of a written spectrum records no fault, and leaves the spectrum written (R181). -/
theorem hpsCandidate_written {s : State} {i : Nat} (hi : i < s.cfg.b)
    (h : ∀ k, k < s.cfg.b → (s.spec k).isSome = true) :
    (hpsCandidate s i).faults = s.faults ∧ ∀ k, k < s.cfg.b → ((hpsCandidate s i).spec k).isSome = true := by
  have h0 : (readOr (s.spec i) s).2 = s := readOr_isSome (h i hi)
  have h1 : ([2, 3, 4].foldl (hpsHarmonic i) (readOr (s.spec i) s)).2 = s :=
    hpsHarmonic_written h (hpsHarmonic_written h (hpsHarmonic_written h h0))
  rw [hpsCandidate_eq, h1]
  exact ⟨rfl, fun k hk => entry_isSome_setEntry _ (h k hk)⟩

theorem foldl_hpsCandidate_written {is : List Nat} {s : State} (hi : ∀ i ∈ is, i < s.cfg.b)
    (h : ∀ k, k < s.cfg.b → (s.spec k).isSome = true) :
    (is.foldl hpsCandidate s).faults = s.faults ∧
      ∀ k, k < s.cfg.b → ((is.foldl hpsCandidate s).spec k).isSome = true := by
  induction is generalizing s with
  | nil => exact ⟨rfl, h⟩
  | cons i is ih =>
    obtain ⟨h1, h2⟩ := hpsCandidate_written (hi i List.mem_cons_self) h
    have hc : (hpsCandidate s i).cfg = s.cfg := by
      obtain ⟨m, fs, c, he⟩ := hpsCandidate_state s i
      rw [he]
    rw [← hc] at h2 hi ⊢
    obtain ⟨h3, h4⟩ := ih (fun j hj => hi j (List.mem_cons_of_mem i hj)) h2
    exact ⟨h3.trans h1, h4⟩

/-- `body(HPS)` on a written spectrum records no fault, and leaves it written (R181). -/
theorem bodyHps_written {s : State} (h : ∀ k, k < s.cfg.b → (s.spec k).isSome = true) :
    (bodyHps s).faults = s.faults ∧ ∀ k, k < s.cfg.b → ((bodyHps s).spec k).isSome = true :=
  foldl_hpsCandidate_written (fun i hi => by
    obtain ⟨j, hj, rfl⟩ := List.mem_range'.1 hi
    omega) h

/-- `body(PEAK)` on a written spectrum records no fault (R192). -/
theorem bodyPeak_written {s : State} (h : ∀ k, k < s.cfg.b → (s.spec k).isSome = true) :
    (bodyPeak s).faults = s.faults := by
  have hr : (readSpec s).2 = s := readAll_isSome fun k hk => h k (List.mem_range.1 hk)
  rw [bodyPeak_eq, hr]

/-- `body(RUN)` on a written frame records no fault (R241). -/
theorem bodyRun_written {s : State}
    (h : ∀ a, a < s.nd → (s.inp (s.slotBase s.latched.slot + a)).isSome = true) :
    (bodyRun s).faults = s.faults := by
  obtain ⟨f1, w1⟩ := bodyFilt_written h
  obtain ⟨m1, fs1, c1, dl, e1⟩ := bodyFilt_state s
  have hc1 : (bodyFilt s).cfg = s.cfg := by rw [e1]; rfl
  rw [← hc1] at w1
  obtain ⟨f2, w2⟩ := bodyXform_written w1
  obtain ⟨m2, fs2, c2, e2⟩ := bodyXform_state (bodyFilt s)
  have hc2 : (bodyXform (bodyFilt s)).cfg = (bodyFilt s).cfg := by rw [e2]
  rw [← hc2] at w2
  obtain ⟨f3, w3⟩ := bodyHps_written w2
  obtain ⟨m3, fs3, c3, e3⟩ := bodyHps_state (bodyXform (bodyFilt s))
  have hc3 : (bodyHps (bodyXform (bodyFilt s))).cfg = (bodyXform (bodyFilt s)).cfg := by rw [e3]
  rw [← hc3] at w3
  rw [bodyRun, bodyPeak_written w3, f3, f2, f1]

end Sys2Proof.Machine
end

