-- ==== Sys2Proof/Laws/Bus.lean ====
section
/-! SUPPORT. Laws of the address decode, host accesses, capture events and the step. -/

namespace Sys2Proof.Machine

/-! ## The address decode (R75) -/

theorem targetOf_noteTab {j : Nat} (h : j < 128) : targetOf (0x1000 + 4 * j) = .noteTab j := by
  grind [targetOf]

theorem targetOf_firCoef {k : Nat} (h : k < 256) : targetOf (0x2000 + 4 * k) = .firCoef k := by
  grind [targetOf]

theorem targetOf_firDl {m : Nat} (h : m < 256) : targetOf (0x3000 + 4 * m) = .firDl m := by
  grind [targetOf]

theorem targetOf_dec {j : Nat} (h : j < 4096) : targetOf (decAddr j) = .dec j := by
  grind [targetOf, decAddr]

theorem targetOf_spec {k l : Nat} (h : k < 2048) (hl : l < 4) : targetOf (specAddr k + 4 * l) = .spec k l := by
  grind [targetOf, specAddr]

theorem targetOf_inp {a : Nat} : targetOf (inAddr a) = .inp a := by
  have h : ¬ inAddr a < 0x10000 := by grind [inAddr]
  grind [targetOf, inAddr]

/-- Only `CMD`'s own offset names `CMD` (R22). -/
theorem regAt_cmd_iff {a : Nat} : regAt a = some .cmd ↔ a = 0x018 := by
  constructor
  · intro h
    unfold regAt at h
    split at h <;> first | rfl | cases h
  · rintro rfl; rfl

/-- The bus address of an offset selects it (R70). -/
theorem offsetOfBus_busAddress (off : Offset) : offsetOfBus (busAddress off) = some off := by
  have h := off.isLt
  unfold offsetOfBus busAddress
  rw [if_pos ⟨by omega, by omega⟩, Nat.add_sub_cancel_left]
  simp

/-! ## Reads -/

/-- Reading a target changes nothing but the fault record and the count of free values (R75, R77). -/
theorem readTarget_state (t : Target) (s : State) : SameButDraws s (readTarget t s).2 := by
  cases t with
  | dec j => exact readOr_state (s.dec j) s
  | spec k l => exact readOr_state (s.spec k) s
  | inp a => exact readOr_state (s.inp a) s
  | _ => exact SameButDraws.refl s

theorem memRead_state (addr : Offset) (s : State) : SameButDraws s (memRead addr s).2 := by
  unfold memRead
  dsimp only
  split
  · exact ⟨s.faults, _, rfl⟩
  · exact readTarget_state _ s

/-- What a host read can do: answer, record a fault, draw free values. -/
theorem hostRead_state (addr : Offset) (width : Nat) (s : State) :
    ∃ r fs c, hostRead addr width s = { s with resp := r, faults := fs, freeCtr := c } := by
  unfold hostRead
  split
  · obtain ⟨fs, c, h⟩ := memRead_state addr s
    exact ⟨.data (memRead addr s).1, fs, c, by simp only [h]⟩
  · exact ⟨.busError addr, s.faults, s.freeCtr, rfl⟩

/-- A bad access answers with a bus error and does nothing else (R73). -/
theorem hostRead_bad {addr : Offset} {width : Nat} (h : accessOk addr width = false) (s : State) :
    hostRead addr width s = { s with resp := .busError addr } := by
  simp [hostRead, h]

theorem hostWrite_bad {addr : Offset} {width : Nat} (h : accessOk addr width = false) (v : Word) (s : State) :
    hostWrite addr width v s = .next { s with resp := .busError addr } := by
  simp [hostWrite, h]

/-- What a host write does: offer a command, or write a target (R76). -/
theorem hostWrite_good {addr : Offset} {width : Nat} (h : accessOk addr width = true) (v : Word) (s : State) :
    hostWrite addr width v s =
      if targetOf addr.toNat = .reg .cmd then offer v { s with resp := .ack }
      else .next (writeTarget (targetOf addr.toNat) v { s with resp := .ack }) := by
  simp [hostWrite, h]

/-- What an offer does (R121): refuse, or hand the decoded command to the idle engine. -/
theorem offer_cases (w : Word) (s : State) :
    (s.eng ≠ .idle ∧ offer w s = .next (raiseError .busy s)) ∨
    (s.eng = .idle ∧ (∃ e, decode w = .error e) ∧ offer w s = .next (raiseError .badcmd s)) ∨
    (∃ i, s.eng = .idle ∧ decode w = .ok i ∧ offer w s = exec i s) := by
  unfold offer State.busy
  cases he : s.eng
  · cases hd : decode w with
    | error e => exact .inr (.inl ⟨rfl, ⟨e, rfl⟩, rfl⟩)
    | ok i => exact .inr (.inr ⟨i, rfl, rfl, rfl⟩)
  · exact .inl ⟨by simp, rfl⟩
  · exact .inl ⟨by simp, rfl⟩

/-! ## Capture events -/

/-- A stopped block drops a capture event (R223). -/
theorem captureEvent_stopped {s : State} (h : s.ctrl.en = false) (v : BitVec 16) : captureEvent v s = s := by
  simp [captureEvent, h]

/-- What a capture event can change (R223). -/
theorem captureEvent_state (v : BitVec 16) (s : State) : ∃ m sl0 sl1 fr cu fs, captureEvent v s =
    { s with mem := m, slot0 := sl0, slot1 := sl1, frdy := fr, cursor := cu, faults := fs } := by
  unfold captureEvent
  split
  · have h1 : ∃ sl0 sl1 fs, (if s.curPos = 0 then beginSlot s.curSlot s else s) =
        { s with slot0 := sl0, slot1 := sl1, faults := fs } := by
      split
      · unfold beginSlot checkOverrun
        split
        · exact ⟨_, _, s.faults, rfl⟩
        · exact ⟨_, _, _, rfl⟩
      · exact ⟨s.slot0, s.slot1, s.faults, rfl⟩
    obtain ⟨sl0, sl1, fs, h1⟩ := h1
    dsimp only
    rw [h1]
    split
    · exact ⟨_, _, _, _, _, _, rfl⟩
    · exact ⟨_, _, _, _, _, _, rfl⟩
  · exact ⟨s.mem, s.slot0, s.slot1, s.frdy, s.cursor, s.faults, rfl⟩

/-! ## The step -/

theorem step_nil {s : State} (h : s.inputs = []) : step s = engineTurn s := by
  simp [step, agentStep, h]

theorem step_cons {s : State} {e : Input} {rest : List Input} (h : s.inputs = e :: rest) :
    step s = runInput e { s with inputs := rest } := by
  simp [step, agentStep, h]

/-- The engine's turn: nothing while idle, else one step of the held command (R123). -/
theorem engineTurn_cases (s : State) :
    (s.eng = .idle ∧ engineTurn s = .next s) ∨ (s.eng ≠ .idle ∧ engineTurn s = exec s.latched.op s) := by
  unfold engineTurn
  cases he : s.eng <;> simp

end Sys2Proof.Machine
end

