-- ==== Sys2Proof/Laws/Commute.lean ====
section
/-! SUPPORT. How capture events and the engine's steps pass each other: writes of disjoint entries commute, a capture event
that records no fault is one entry of `IN` and the hand-off fields, and every body acts alike before and after it. -/

namespace Sys2Proof.Machine

/-! ## Writes of disjoint entries -/

theorem filter_cellsAt_all {p : Nat → Bool} {bs : List Byte} {a : Nat} (h : ∀ x, a ≤ x → x < a + bs.length → p x = true) :
    (cellsAt a bs).filter (fun c => p c.1) = cellsAt a bs :=
  List.filter_eq_self.2 fun _ hc => h _ (mem_cellsAt hc).1 (mem_cellsAt hc).2

theorem filter_cellsAt_none {p : Nat → Bool} {bs : List Byte} {a : Nat}
    (h : ∀ x, a ≤ x → x < a + bs.length → p x = false) : (cellsAt a bs).filter (fun c => p c.1) = [] :=
  List.filter_eq_nil_iff.2 fun _ hc => by simp [h _ (mem_cellsAt hc).1 (mem_cellsAt hc).2]

theorem write_comm {m : Memory} {a b : Nat} {bs cs : List Byte} (h : a + bs.length ≤ b) :
    (m.write a bs).write b cs = (m.write b cs).write a bs := by
  have h1 : (cellsAt a bs).filter (fun c => decide (c.1 < b)) = cellsAt a bs :=
    filter_cellsAt_all (p := fun x => decide (x < b)) fun x _ _ => by simp; omega
  have h2 : (cellsAt a bs).filter (fun c => decide (b + cs.length ≤ c.1)) = [] :=
    filter_cellsAt_none (p := fun x => decide (b + cs.length ≤ x)) fun x _ _ => by simp; omega
  have h3 : (cellsAt b cs).filter (fun c => decide (c.1 < a)) = [] :=
    filter_cellsAt_none (p := fun x => decide (x < a)) fun x _ _ => by simp; omega
  have h4 : (cellsAt b cs).filter (fun c => decide (a + bs.length ≤ c.1)) = cellsAt b cs :=
    filter_cellsAt_all (p := fun x => decide (a + bs.length ≤ x)) fun x _ _ => by simp; omega
  have e1 : ∀ c : Host.Cell, (decide (c.1 < a) && decide (c.1 < b)) = decide (c.1 < a) := fun c => by
    rw [← Bool.decide_and]; exact decide_eq_decide.2 (by omega)
  have e2 : ∀ c : Host.Cell, (decide (c.1 < a) && decide (b + cs.length ≤ c.1)) = false := fun c => by
    rw [← Bool.decide_and]; exact decide_eq_false (by omega)
  have e3 : ∀ c : Host.Cell, (decide (a + bs.length ≤ c.1) && decide (b + cs.length ≤ c.1)) =
      decide (b + cs.length ≤ c.1) := fun c => by
    rw [← Bool.decide_and]; exact decide_eq_decide.2 (by omega)
  simp only [Memory.write, List.filter_append, List.filter_filter, h1, h2, h3, h4, Bool.and_comm, e1, e2, e3,
    List.filter_false, List.append_nil, List.nil_append, List.append_assoc]

/-- Storing two entries that do not overlap gives the same memory in either order. -/
theorem setEntry_comm {w w' : Nat} {m : Memory} {n n' a a' : Nat} {v : BitVec w} {v' : BitVec w'}
    (h : a + n ≤ a' ∨ a' + n' ≤ a) : (m.setEntry n a v).setEntry n' a' v' = (m.setEntry n' a' v').setEntry n a v := by
  rcases h with h | h
  · exact write_comm (by simpa using h)
  · exact (write_comm (by simpa using h)).symm

/-! ## Reading without a fault -/

/-- A read that records no fault leaves the state as it is. -/
theorem readOr_snd {w : Nat} {v : Option (BitVec w)} {s : State} (h : (readOr v s).2.faults = []) :
    (readOr v s).2 = s := by
  obtain ⟨x, rfl⟩ := readOr_no_fault h
  rfl

theorem readAll_faults {w : Nat} {get : Nat → Option (BitVec w)} {is : List Nat} {s : State} {f : Fault}
    (h : f ∈ s.faults) : f ∈ (readAll get is s).2.faults := by
  induction is generalizing s with
  | nil => exact h
  | cons i is ih => exact ih (readOr_faults h)

/-- Reads that record no fault find every entry written. -/
theorem readAll_no_fault {w : Nat} {get : Nat → Option (BitVec w)} {is : List Nat} {s : State}
    (h : (readAll get is s).2.faults = []) : ∀ i ∈ is, get i = some ((get i).getD 0) := by
  induction is generalizing s with
  | nil => simp
  | cons i is ih =>
    have h1 : (readOr (get i) s).2.faults = [] :=
      List.eq_nil_iff_forall_not_mem.2 fun f hf => by
        have := readAll_faults (get := get) (is := is) hf
        rw [show (readAll get is (readOr (get i) s).2).2.faults = [] from h] at this
        cases this
    obtain ⟨x, hx⟩ := readOr_no_fault h1
    intro j hj
    rcases List.mem_cons.1 hj with rfl | hj
    · rw [hx]; rfl
    · exact ih h j hj

/-- So they are read as they are. -/
theorem readAll_eq {w : Nat} {get : Nat → Option (BitVec w)} {is : List Nat} {s : State}
    (h : (readAll get is s).2.faults = []) : readAll get is s = (is.map fun i => (get i).getD 0, s) :=
  readAll_written (readAll_no_fault h) s

/-! ## What the bodies do not read -/

/-- Memory with `IN[w.1] = w.2` stored, where an entry is given. -/
def storeIn (w : Option (Nat × Sample)) (m : Memory) : Memory :=
  match w with
  | none => m
  | some p => m.setEntry 2 (inAddr p.1) p.2

/-- `s` with one entry of `IN` stored, and with the fields of `x` that no body reads: what capture events, host reads and
the steps of the command lifecycle can make of `s` without a fault. -/
def aside (w : Option (Nat × Sample)) (x s : State) : State :=
  { s with mem := storeIn w s.mem, slot0 := x.slot0, slot1 := x.slot1, frdy := x.frdy, cursor := x.cursor,
           eng := x.eng, done := x.done, curcmd := x.curcmd, latched := { s.latched with op := x.latched.op },
           resp := x.resp, freeCtr := x.freeCtr, inputs := x.inputs }

variable {w : Option (Nat × Sample)} {x s : State}

@[simp] theorem aside_cfg (w : Option (Nat × Sample)) (x s : State) : (aside w x s).cfg = s.cfg := rfl

theorem storeIn_entry {u n a : Nat} {m : Memory} (h : a + n ≤ 0x80000) :
    (storeIn w m).entry u n a = m.entry u n a := by
  cases w with
  | none => rfl
  | some p => exact entry_setEntry_disjoint (.inr (by unfold inAddr; omega))

theorem storeIn_setEntry {u n a : Nat} {m : Memory} {v : BitVec u} (h : a + n ≤ 0x80000) :
    (storeIn w m).setEntry n a v = storeIn w (m.setEntry n a v) := by
  cases w with
  | none => rfl
  | some p => exact setEntry_comm (.inr (by unfold inAddr; omega))

theorem dec_aside {j : Nat} (h : j < 4096) : (aside w x s).dec j = s.dec j := storeIn_entry (by unfold decAddr; omega)

theorem spec_aside {k : Nat} (h : k < 2048) : (aside w x s).spec k = s.spec k := storeIn_entry (by unfold specAddr; omega)

theorem inp_aside {a : Nat} (h : ∀ p, w = some p → p.1 ≠ a) : (aside w x s).inp a = s.inp a := by
  cases w with
  | none => rfl
  | some p =>
    have := h p rfl
    exact entry_setEntry_disjoint (by unfold inAddr; omega)

theorem writeDecs_aside {vs : List Sample} {j : Nat} (h : j + vs.length ≤ 4096) :
    writeDecs j vs (aside w x s) = aside w x (writeDecs j vs s) := by
  induction vs generalizing j s with
  | nil => rfl
  | cons v vs ih =>
    rw [List.length_cons] at h
    rw [writeDecs, writeDecs, ← ih (by omega)]
    congr 1
    simp only [writeDec, aside]
    rw [storeIn_setEntry (by unfold decAddr; omega)]

theorem writeSpec_aside {k : Nat} (h : k < 2048) (v : SpecWord) :
    writeSpec k v (aside w x s) = aside w x (writeSpec k v s) := by
  simp only [writeSpec, aside]
  rw [storeIn_setEntry (by unfold specAddr; omega)]

theorem writeSpecs_aside {vs : List SpecWord} {k : Nat} (h : k + vs.length ≤ 2048) :
    writeSpecs k vs (aside w x s) = aside w x (writeSpecs k vs s) := by
  induction vs generalizing k s with
  | nil => rfl
  | cons v vs ih =>
    rw [List.length_cons] at h
    rw [writeSpecs, writeSpecs, ← ih (by omega), writeSpec_aside (by omega)]

theorem readOr_aside {u : Nat} {v : Option (BitVec u)} (h : (readOr v s).2.faults = []) :
    readOr v (aside w x s) = ((readOr v s).1, aside w x s) := by
  obtain ⟨y, rfl⟩ := readOr_no_fault h
  rfl

theorem readAll_aside {u : Nat} {get get' : Nat → Option (BitVec u)} {is : List Nat}
    (h : (readAll get is s).2.faults = []) (hg : ∀ i ∈ is, get' i = get i) :
    readAll get' is (aside w x s) = ((readAll get is s).1, aside w x s) := by
  rw [readAll_written fun i hi => (hg i hi).trans (readAll_no_fault h i hi), readAll_eq h]

/-! ## The bodies -/

theorem bodyXform_aside (h : (bodyXform s).faults = []) (hn : s.cfg.n ≤ 4096) (hb : s.cfg.b ≤ 2048) :
    bodyXform (aside w x s) = aside w x (bodyXform s) := by
  have hr : (readDec s).2.faults = [] := by
    obtain ⟨m, hm⟩ := writeSpecs_state (magnitudes s.cfg.n s.cfg.b (readDec s).1) 0 (readDec s).2
    rw [show bodyXform s = writeSpecs 0 _ (readDec s).2 from rfl, hm] at h
    exact h
  have h1 : readDec (aside w x s) = ((readDec s).1, aside w x s) :=
    readAll_aside hr fun j hj => dec_aside (by have := List.mem_range.1 hj; rw [aside_cfg] at this; omega)
  have h2 : (readDec s).2 = s := by rw [readDec, readAll_eq hr]
  show writeSpecs 0 (magnitudes s.cfg.n s.cfg.b (readDec (aside w x s)).1) (readDec (aside w x s)).2 =
    aside w x (writeSpecs 0 (magnitudes s.cfg.n s.cfg.b (readDec s).1) (readDec s).2)
  rw [h1, h2, writeSpecs_aside (by simpa [magnitudes] using hb)]

theorem bodyPeak_aside (h : (bodyPeak s).faults = []) (hb : s.cfg.b ≤ 2048) :
    bodyPeak (aside w x s) = aside w x (bodyPeak s) := by
  have hr : (readSpec s).2.faults = [] := h
  have h1 : readSpec (aside w x s) = ((readSpec s).1, aside w x s) :=
    readAll_aside hr fun k hk => spec_aside (by have := List.mem_range.1 hk; rw [aside_cfg] at this; omega)
  have h2 : (readSpec s).2 = s := by rw [readSpec, readAll_eq hr]
  rw [bodyPeak_eq, bodyPeak_eq, h1, h2]
  rfl

theorem no_fault_of_subset {a b : List Fault} (h : ∀ f, f ∈ a → f ∈ b) (hb : b = []) : a = [] :=
  List.eq_nil_iff_forall_not_mem.2 fun f hf => by simpa [hb] using h f hf

theorem hpsHarmonic_in {i k : Nat} {p : SpecWord × State} (h : k * i < p.2.cfg.b) :
    hpsHarmonic i p k = (p.1 * (readOr (p.2.spec (k * i)) p.2).1, (readOr (p.2.spec (k * i)) p.2).2) := by
  rw [hpsHarmonic, if_pos h]

theorem hpsHarmonic_out {i k : Nat} {p : SpecWord × State} (h : ¬k * i < p.2.cfg.b) : hpsHarmonic i p k = p := by
  rw [hpsHarmonic, if_neg h]

theorem hpsHarmonic_faults {i k : Nat} {p : SpecWord × State} {f : Fault} (h : f ∈ p.2.faults) :
    f ∈ (hpsHarmonic i p k).2.faults := by
  by_cases hk : k * i < p.2.cfg.b
  · rw [hpsHarmonic_in hk]; exact readOr_faults h
  · rw [hpsHarmonic_out hk]; exact h

theorem hpsHarmonic_aside {i k : Nat} {p : SpecWord × State} (h : (hpsHarmonic i p k).2.faults = [])
    (hb : p.2.cfg.b ≤ 2048) :
    hpsHarmonic i (p.1, aside w x p.2) k = ((hpsHarmonic i p k).1, aside w x p.2) ∧ (hpsHarmonic i p k).2 = p.2 := by
  by_cases hk : k * i < p.2.cfg.b
  · rw [hpsHarmonic_in hk] at h ⊢
    rw [hpsHarmonic_in (p := (p.1, aside w x p.2)) hk, spec_aside (by omega), readOr_aside h]
    exact ⟨rfl, readOr_snd h⟩
  · rw [hpsHarmonic_out hk, hpsHarmonic_out (p := (p.1, aside w x p.2)) hk]
    exact ⟨rfl, rfl⟩

/-- A candidate's bin and its harmonics, read in turn (R181). -/
theorem hpsCandidate_chain (s : State) (i : Nat) : hpsCandidate s i =
    writeSpec i (hpsHarmonic i (hpsHarmonic i (hpsHarmonic i (readOr (s.spec i) s) 2) 3) 4).1
      (hpsHarmonic i (hpsHarmonic i (hpsHarmonic i (readOr (s.spec i) s) 2) 3) 4).2 := hpsCandidate_eq s i

theorem hpsCandidate_faults {i : Nat} {f : Fault} (h : f ∈ s.faults) : f ∈ (hpsCandidate s i).faults := by
  rw [hpsCandidate_chain]
  exact hpsHarmonic_faults (hpsHarmonic_faults (hpsHarmonic_faults (readOr_faults h)))

theorem hpsCandidate_aside {i : Nat} (h : (hpsCandidate s i).faults = []) (hi : i < 2048) (hb : s.cfg.b ≤ 2048) :
    hpsCandidate (aside w x s) i = aside w x (hpsCandidate s i) := by
  rw [hpsCandidate_chain] at h
  have h3 : (hpsHarmonic i (hpsHarmonic i (hpsHarmonic i (readOr (s.spec i) s) 2) 3) 4).2.faults = [] := h
  have h2 := no_fault_of_subset (fun f => hpsHarmonic_faults) h3
  have h1 := no_fault_of_subset (fun f => hpsHarmonic_faults) h2
  have h0 := no_fault_of_subset (fun f => hpsHarmonic_faults) h1
  have e0 := readOr_aside (w := w) (x := x) h0
  have s0 := readOr_snd h0
  obtain ⟨e1, s1⟩ := hpsHarmonic_aside (w := w) (x := x) h1 (by rw [s0]; exact hb)
  rw [s0] at s1 e1
  obtain ⟨e2, s2⟩ := hpsHarmonic_aside (w := w) (x := x) h2 (by rw [s1]; exact hb)
  rw [s1] at s2 e2
  obtain ⟨e3, s3⟩ := hpsHarmonic_aside (w := w) (x := x) h3 (by rw [s2]; exact hb)
  rw [s2] at s3 e3
  rw [hpsCandidate_chain, hpsCandidate_chain, spec_aside hi, e0, e1, e2, e3, s3, writeSpec_aside hi]

theorem foldl_hpsCandidate_faults {is : List Nat} {f : Fault} (h : f ∈ s.faults) :
    f ∈ (is.foldl hpsCandidate s).faults := by
  induction is generalizing s with
  | nil => exact h
  | cons i is ih => exact ih (hpsCandidate_faults h)

theorem foldl_hpsCandidate_aside {is : List Nat} (h : (is.foldl hpsCandidate s).faults = []) (hi : ∀ i ∈ is, i < 2048)
    (hb : s.cfg.b ≤ 2048) : is.foldl hpsCandidate (aside w x s) = aside w x (is.foldl hpsCandidate s) := by
  induction is generalizing s with
  | nil => rfl
  | cons i is ih =>
    have h1 : (hpsCandidate s i).faults = [] := no_fault_of_subset (fun f => foldl_hpsCandidate_faults) h
    have hc : (hpsCandidate s i).cfg = s.cfg := by
      obtain ⟨m, fs, c, he⟩ := hpsCandidate_state s i
      rw [he]
    rw [List.foldl_cons, List.foldl_cons, hpsCandidate_aside h1 (hi i List.mem_cons_self) hb,
      ih h (fun j hj => hi j (List.mem_cons_of_mem i hj)) (by rw [hc]; exact hb)]

theorem bodyHps_aside (h : (bodyHps s).faults = []) (hb : s.cfg.b ≤ 2048) :
    bodyHps (aside w x s) = aside w x (bodyHps s) :=
  foldl_hpsCandidate_aside h (fun i hi => by
    obtain ⟨j, hj, rfl⟩ := List.mem_range'.1 hi
    simp only [aside_cfg] at hj ⊢
    omega) hb

/-- `body(FILT)` reads the claimed slot only, so the entry stored must lie outside it. -/
theorem bodyFilt_aside (h : (bodyFilt s).faults = []) (hn : s.cfg.n ≤ 4096)
    (hw : ∀ p, w = some p → p.1 < s.slotBase s.latched.slot ∨ s.slotBase s.latched.slot + s.nd ≤ p.1) :
    bodyFilt (aside w x s) = aside w (setSlot s.latched.slot .empty x) (bodyFilt s) := by
  have hr : (readFrame s).2.faults = [] := by
    obtain ⟨m, hm⟩ := writeDecs_state
      (decimate s.rom.firCoef (firInput (readFrame s).1 s.dl) s.cfg.n s.cfg.d) 0 (readFrame s).2
    rw [bodyFilt_eq, hm] at h
    exact h
  have h1 : readFrame (aside w x s) = ((readFrame s).1, aside w x s) :=
    readAll_aside hr fun a ha => inp_aside fun p hp => by
      obtain ⟨j, hj, rfl⟩ := List.mem_range'.1 ha
      have := hw p hp
      change j < s.nd at hj
      change p.1 ≠ s.slotBase s.latched.slot + 1 * j
      omega
  have h2 : (readFrame s).2 = s := by rw [readFrame, readAll_eq hr]
  rw [bodyFilt_eq, bodyFilt_eq, h1, h2]
  simp only [show (aside w x s).rom = s.rom from rfl, show (aside w x s).dl = s.dl from rfl, aside_cfg]
  rw [writeDecs_aside (by simpa [decimate] using hn)]
  rfl

theorem bodyFilt_faults {f : Fault} (h : f ∈ s.faults) : f ∈ (bodyFilt s).faults := by
  obtain ⟨m, hm⟩ := writeDecs_state
    (decimate s.rom.firCoef (firInput (readFrame s).1 s.dl) s.cfg.n s.cfg.d) 0 (readFrame s).2
  rw [bodyFilt_eq, hm]
  exact readAll_faults h

theorem bodyXform_faults {f : Fault} (h : f ∈ s.faults) : f ∈ (bodyXform s).faults := by
  obtain ⟨m, hm⟩ := writeSpecs_state (magnitudes s.cfg.n s.cfg.b (readDec s).1) 0 (readDec s).2
  rw [show bodyXform s = writeSpecs 0 _ (readDec s).2 from rfl, hm]
  exact readAll_faults h

theorem bodyHps_faults {f : Fault} (h : f ∈ s.faults) : f ∈ (bodyHps s).faults := foldl_hpsCandidate_faults h

theorem bodyPeak_faults {f : Fault} (h : f ∈ s.faults) : f ∈ (bodyPeak s).faults := by
  rw [bodyPeak_eq]
  exact readAll_faults h

theorem bodyFilt_cfg (s : State) : (bodyFilt s).cfg = s.cfg := by
  obtain ⟨m, fs, c, dl, h⟩ := bodyFilt_state s
  rw [h]; rfl

theorem bodyXform_cfg (s : State) : (bodyXform s).cfg = s.cfg := by
  obtain ⟨m, fs, c, h⟩ := bodyXform_state s
  rw [h]

theorem bodyHps_cfg (s : State) : (bodyHps s).cfg = s.cfg := by
  obtain ⟨m, fs, c, h⟩ := bodyHps_state s
  rw [h]

/-- `body(RUN)` reads the claimed slot of `IN` only, as `body(FILT)` does. -/
theorem bodyRun_aside (h : (bodyRun s).faults = []) (hn : s.cfg.n ≤ 4096) (hb : s.cfg.b ≤ 2048)
    (hw : ∀ p, w = some p → p.1 < s.slotBase s.latched.slot ∨ s.slotBase s.latched.slot + s.nd ≤ p.1) :
    bodyRun (aside w x s) = aside w (setSlot s.latched.slot .empty x) (bodyRun s) := by
  have h4 : (bodyPeak (bodyHps (bodyXform (bodyFilt s)))).faults = [] := h
  have h3 := no_fault_of_subset (fun f => bodyPeak_faults) h4
  have h2 := no_fault_of_subset (fun f => bodyHps_faults) h3
  have h1 := no_fault_of_subset (fun f => bodyXform_faults) h2
  have c1 := bodyFilt_cfg s
  have c2 := (bodyXform_cfg (bodyFilt s)).trans c1
  have c3 := (bodyHps_cfg (bodyXform (bodyFilt s))).trans c2
  rw [bodyRun, bodyRun, bodyFilt_aside h1 hn hw, bodyXform_aside h2 (by rw [c1]; exact hn) (by rw [c1]; exact hb),
    bodyHps_aside h3 (by rw [c2]; exact hb), bodyPeak_aside h4 (by rw [c3]; exact hb)]

/-! ## Capture events -/

/-- The state the slot at the cursor has after a sample (R224, R225). -/
def nextSlot (s : State) : SlotState :=
  if s.curPos + 1 = s.nd then .ready else if s.curPos = 0 then .filling else s.slot s.curSlot

/-- The capture step of a started block, but for the record of an overrun (R223). -/
def captured (v : BitVec 16) (s : State) : State :=
  { s with
    mem := s.mem.setEntry 2 (inAddr s.cursor.toNat) (conv s.cfg.rawin s.cfg.adcw v)
    slot0 := if s.curSlot then s.slot0 else nextSlot s
    slot1 := if s.curSlot then nextSlot s else s.slot1
    frdy := s.frdy || decide (s.curPos + 1 = s.nd)
    cursor := BitVec.ofNat 17 ((s.cursor.toNat + 1) % (2 * s.nd)) }

/-- Once everything a capture event does (R223 to R226). -/
theorem captureEvent_explicit (v : BitVec 16) (s : State) : captureEvent v s =
    if s.ctrl.en = true then
      { captured v s with
        faults := if s.curPos = 0 ∧ s.slot s.curSlot ≠ .empty then recordFault .overrun s.faults else s.faults }
    else s := by
  unfold captureEvent
  split
  · dsimp only
    by_cases hp : s.curPos = 0
    · rw [if_pos hp, beginSlot, checkOverrun]
      by_cases hs : s.slot s.curSlot = .empty <;> by_cases hl : 1 = s.nd <;> cases hc : s.curSlot <;>
        rw [hc] at hs <;> simp [captured, nextSlot, publishSlot, setSlot, writeIn, modelFault, hs, hl, hp, hc]
    · rw [if_neg hp]
      by_cases hl : s.curPos + 1 = s.nd <;> cases hc : s.curSlot <;>
        simp [captured, nextSlot, publishSlot, setSlot, writeIn, State.slot, hl, hp, hc]
  · rfl

theorem captureEvent_faults (v : BitVec 16) {f : Fault} (h : f ∈ s.faults) : f ∈ (captureEvent v s).faults := by
  rw [captureEvent_explicit]
  split
  · dsimp only
    split
    · exact (mem_recordFault .overrun f s.faults).2 (.inr h)
    · exact h
  · exact h

/-- A capture event of a started block that records no fault starts no slot but an `EMPTY` one, and is `captured`. -/
theorem captureEvent_eq {v : BitVec 16} (hen : s.ctrl.en = true) (h : (captureEvent v s).faults = []) :
    (s.curPos = 0 → s.slot s.curSlot = .empty) ∧ captureEvent v s = captured v s := by
  rw [captureEvent_explicit, if_pos hen] at h ⊢
  dsimp only at h
  split at h
  · exact absurd h (recordFault_ne_nil _ _)
  · next hs => exact ⟨fun hp => not_not.1 fun he => hs ⟨hp, he⟩, by rw [if_neg hs]; rfl⟩

/-- A capture event neither reads nor changes the fields of the command lifecycle. -/
theorem captureEvent_lifecycle (v : BitVec 16) (e : Engine) (d : Bool) (c : Byte) (l : Latched) (s : State) :
    captureEvent v { s with eng := e, done := d, curcmd := c, latched := l } =
      { captureEvent v s with eng := e, done := d, curcmd := c, latched := l } := by
  rw [captureEvent_explicit, captureEvent_explicit]
  change (if s.ctrl.en = true then _ else _) = _
  split <;> rfl

/-! ## Runs of inputs -/

theorem coreRun_succ (M : Host.Core) {k : Nat} {s t : M.State} (h : M.step s = .next t) : M.run (k + 1) s = M.run k t := by
  simp only [Host.Core.run, h]

theorem runInputs_nil {s : State} (h : s.inputs = []) : Safety.runInputs [] s = .next s := by
  have h1 : { s with inputs := [] } = s := by rw [← h]
  exact congrArg Host.Outcome.next h1

/-- A run takes its first input, then runs the rest. -/
theorem runInputs_cons {e : Input} {es : List Input} {s t : State} (h : runInput e { s with inputs := es } = .next t)
    (ht : t.inputs = es) : Safety.runInputs (e :: es) s = Safety.runInputs es t := by
  have h1 : step { s with inputs := e :: es } = .next t := (step_cons (s := { s with inputs := e :: es }) rfl).trans h
  have h2 : { t with inputs := es } = t := by rw [← ht]
  show Host.Core.run Sys2Proof.core (es.length + 1) _ = Host.Core.run Sys2Proof.core es.length _
  rw [h2]
  exact coreRun_succ Sys2Proof.core h1

end Sys2Proof.Machine
end

