-- ==== Sys2Proof/Laws/PerInstr.lean ====
section
/-! SUPPORT. One lemma per command, for claims over all of them. -/

namespace Sys2Proof.Laws.EncodedAsOpcode

/-- R100, R101: the command's word has `RSVD = 0` and the command's opcode, a legal one, in its low byte. -/
def Statement (i : Instr) : Prop :=
  i.wf = true ∧ rsvdField (encode i) = 0 ∧ opcodeField (encode i) = opcode i ∧ wfCmdWord (encode i) = true

theorem nop : Statement .nop := by unfold Statement; decide
theorem run : Statement .run := by unfold Statement; decide
theorem filt : Statement .filt := by unfold Statement; decide
theorem xform : Statement .xform := by unfold Statement; decide
theorem hps : Statement .hps := by unfold Statement; decide
theorem peak : Statement .peak := by unfold Statement; decide
theorem firclr : Statement .firclr := by unfold Statement; decide
theorem b2f : Statement .b2f := by unfold Statement; decide
theorem f2b : Statement .f2b := by unfold Statement; decide
theorem note : Statement .note := by unfold Statement; decide
theorem cents : Statement .cents := by unfold Statement; decide

end Sys2Proof.Laws.EncodedAsOpcode
end

