-- ==== Sys2Proof/Tests/Slice0.lean ====
section
/-! SUPPORT. Tests: ill-formed terms are refused, words written from the encoding rules decode, one step of each command
on the vectors of 95_test_vectors.md, and for each statement with hypotheses a named state that meets them. -/

namespace Sys2Proof.Tests

-- The checks below run one after another: side by side they need more memory than the check allows.
set_option Elab.async false

open Sys2Proof.Machine Sys2Proof.Safety

/-! ## Helpers -/

/-- G#2, A2 and A#2 of the example note table (95_test_vectors.md §1), and the three taps of its V-F1. -/
def rom0 : Rom := { noteTable := [0x0067D380, 0x006E0000, 0x00748A7B], firCoef := [16384, 8192, -4096] }

/-- Just after reset: idle and stopped. -/
def fresh : State := State.resetWith rom0

/-- The registers of program P4 of 95_test_vectors.md: `N = 32`, `D = 1`, `FS = 320`, `HPSLO = 1`. -/
def configured : State := { fresh with config := { log2n := 5, osf := 1, adcw := 12 }, fs := 320, hpslo := 1 }

/-- Started with that configuration: 10 Hz bins, `B = 16`. -/
def started : State := startPipeline configured

/-- `s` executing command `i`. -/
def running (i : Instr) (s : State) : State :=
  { s with eng := .exec, curcmd := opcode i, latched := { s.latched with op := i } }

/-- `s` with the operands `a` and `b` latched. -/
def withArgs (a b : Word) (s : State) : State := { s with latched := { s.latched with arg0 := a, arg1 := b } }

/-- `s` with the inputs `es` queued. -/
def given (es : List Input) (s : State) : State := { s with inputs := es }

/-- `s` with `IN[a …] = vs`. -/
def withIn : Nat → List Sample → State → State
  | _, [], s => s
  | a, v :: vs, s => withIn (a + 1) vs (writeIn a v s)

/-- The state a step answers. -/
def next (o : Host.Outcome State Fault Refusal) : State :=
  match o with
  | .next t => t
  | .fault _ => fresh
  | .refused _ => fresh

/-- `s` with slot 0 `READY` and the cursor at the start of slot 1. -/
def published (s : State) : State := { s with slot0 := .ready, cursor := 32, frdy := true }

/-- Started, with a silent frame ready in slot 0. -/
def ready : State := published (withIn 0 (List.replicate 32 0) started)

/-- `s` executing a `RUN` that claimed slot 0, with the reset threshold. -/
def claimedRun (s : State) : State :=
  { running .run s with slot0 := .claimed, latched := { s.latched with op := .run, thresh := 1 } }

/-- `RUN` executing on that frame. -/
def runningRun : State := claimedRun ready

/-- A small engine state: `N`, `D` and the frame in slot 0. -/
def filtering (n d : Nat) (frame dl : List Sample) (s : State) : State :=
  { withIn 0 frame (running .filt s) with cfg := { s.cfg with n := n, d := d }, dl := dl }

/-- `s` executing `RUN` with `B = 2`, `HPSLO = 1` and the reset threshold. -/
def smallRun (s : State) : State :=
  { running .run s with cfg := { s.cfg with b := 2, hpslo := 1 }, latched := { s.latched with op := .run, thresh := 1 } }

/-- A spectrum of `B` bins: `vs`, at least one word. -/
def spectrum (lo binw : Nat) (vs : List SpecWord) (s : State) : State :=
  { writeSpecs 0 vs s with cfg := { s.cfg with b := vs.length, hpslo := lo, binw := binw },
                           latched := { s.latched with thresh := 1 } }

/-- `s` with the threshold `m` latched. -/
def withThresh (m : SpecWord) (s : State) : State := { s with latched := { s.latched with thresh := m } }

/-- The spectrum of 2s at bins 1 to 4 of 16. -/
def lines4 (k : Nat) : SpecWord := if k = 1 ∨ k = 2 ∨ k = 3 ∨ k = 4 then 2 else 0

/-- `HPS` executing on it. -/
def runningHps : State := spectrum 1 655360 ((List.range 16).map lines4) (running .hps started)

/-- `XFORM` executing on a frame of 32 zeros. -/
def runningXform : State := writeDecs 0 (List.replicate 32 0) (running .xform started)

/-! ## Ill-formed terms are refused -/

theorem test_wf_reserved_bits : wfCmdWord 0x00000100 = false := by decide
theorem test_wf_reserved_opcode : wfCmdWord 0x0000000B = false := by decide
theorem test_wf_last_opcode : wfCmdWord 0x0000000A = true := by decide
theorem test_wf_instr : Instr.cents.wf = true := by decide
theorem test_wf_note_table : wfNoteTable rom0.noteTable = true := by decide
theorem test_wf_note_table_empty : wfNoteTable [] = false := by decide
theorem test_wf_note_table_zero : wfNoteTable [0, 5] = false := by decide
theorem test_wf_note_table_flat : wfNoteTable [5, 5] = false := by decide
theorem test_wf_note_table_long : wfNoteTable ((List.range' 1 129).map (BitVec.ofNat 32)) = false := by decide +kernel
theorem test_wf_no_a2 : hasA2 [0x0067D380, 0x00748A7B] = false := by decide
theorem test_wf_fir_empty : wfFirCoef [] = false := by decide
theorem test_wf_fir_long : wfFirCoef (List.replicate 257 1) = false := by decide +kernel

/-! ## Words written from the encoding of R100 and R101 -/

theorem test_decode_nop : decode 0b00000000000000000000000000000000 = .ok .nop := rfl
theorem test_decode_run : decode 0b00000000000000000000000000000001 = .ok .run := rfl
theorem test_decode_filt : decode 0b00000000000000000000000000000010 = .ok .filt := rfl
theorem test_decode_xform : decode 0b00000000000000000000000000000011 = .ok .xform := rfl
theorem test_decode_hps : decode 0b00000000000000000000000000000100 = .ok .hps := rfl
theorem test_decode_peak : decode 0b00000000000000000000000000000101 = .ok .peak := rfl
theorem test_decode_firclr : decode 0b00000000000000000000000000000110 = .ok .firclr := rfl
theorem test_decode_b2f : decode 0b00000000000000000000000000000111 = .ok .b2f := rfl
theorem test_decode_f2b : decode 0b00000000000000000000000000001000 = .ok .f2b := rfl
theorem test_decode_note : decode 0b00000000000000000000000000001001 = .ok .note := rfl
theorem test_decode_cents : decode 0b00000000000000000000000000001010 = .ok .cents := rfl
theorem test_decode_reserved_opcode : decode 0x0000000B = .error .reservedOpcode := rfl
theorem test_decode_reserved_bit : decode 0x80000001 = .error .reservedBits := rfl
theorem test_decode_lanes : decodeBytes [0x09, 0x00, 0x00, 0x00, 0xFF] = .ok (.note, [0xFF]) := rfl
theorem test_decode_lane_order : decodeBytes [0x00, 0x00, 0x00, 0x09] = .error .reservedBits := rfl
theorem test_decode_truncated : decodeBytes [0x09, 0x00, 0x00] = .error .truncated := rfl
theorem test_fetch_first_command :
    next (step (fresh.withFetchWord 32 0x09)) = next (exec .note { fresh with resp := .ack }) := rfl

/-! ## One step of each command -/

-- V-E11: with `IE_DONE` set, the completion of `NOP` raises the interrupt.
theorem test_nop_completes :
    (next (execNop (running .nop { fresh with ctrl := { fresh.ctrl with ieDone := true } }))).statusWord = 0x00004004 := by
  decide
-- V-E2's rule for a command that needs no EN: a stopped block accepts it.
theorem test_nop_accepted : (next (execNop fresh)).statusWord = 0x00000001 := by decide
-- P4 steps 21 to 25, on a frame of 4 samples: a silent frame is gated.
theorem test_run_silent_frame :
    (next (execRun (smallRun (filtering 4 1 [0, 0, 0, 0] [0, 0] fresh)))).result = 0x40000000 := by decide +kernel
-- §7: the claim after an accepted command.
theorem test_run_claims : (next (execRun { running .run ready with eng := .wait })).slot0 = .claimed := by decide +kernel
-- §3, saturation: two taps of 32767, four samples of 32767.
theorem test_filt_saturates :
    (List.range 4).map (next (execFilt (filtering 4 1 (List.replicate 4 32767) [0]
      (State.resetWith { rom0 with firCoef := [32767, 32767] })))).dec =
      [some 32766, some 32767, some 32767, some 32767] := by decide +kernel
-- V-F2: the frame continues the stream from `DL`, and the tie of 362.5 rounds up.
theorem test_filt_continues :
    ((next (execFilt (filtering 1 2 [1000, 1000] [3100, 3000] fresh))).dec 0,
      (next (execFilt (filtering 1 2 [1000, 1000] [3100, 3000] fresh))).dl) = (some 363, [1000, 1000]) := by
  decide +kernel
-- V-X1, on a frame of 8 samples: an all-zero frame gives an all-zero spectrum.
theorem test_xform_zero_frame :
    (List.range 5).map (next (execXform { writeDecs 0 (List.replicate 8 0) (running .xform fresh) with
      cfg := { fresh.cfg with n := 8, b := 4 } })).spec = [some 0, some 0, some 0, some 0, none] := by decide +kernel
-- V-X8: `DEC` never written.
theorem test_xform_unwritten :
    (next (execXform { running .xform fresh with cfg := { fresh.cfg with n := 2, b := 1 } })).faults = [.unwritten] := by
  decide +kernel
-- R181 by hand, `B = 5`: `[1] = 2·3·4·5`, `[2] = 3·5` (its third harmonic is out of range), `[3]` is not scanned.
theorem test_hps_products :
    [0, 1, 2, 3, 4].map (next (execHps (spectrum 1 655360 [1, 2, 3, 4, 5] (running .hps fresh)))).spec =
      [some 1, some 120, some 15, some 4, some 5] := by decide +kernel
-- R183 by hand, `B = 3`: `2^127 · 2` wraps.
theorem test_hps_wraps :
    (next (execHps (spectrum 1 655360 [0, 0x80000000000000000000000000000000, 2] (running .hps fresh)))).spec 1 =
      some 0 := by decide +kernel
-- V-P3: of equal words the lower bin wins, and 20 Hz is below the table.
theorem test_peak_first_of_equals :
    let t := next (execPeak (spectrum 1 655360 [0, 5, 7, 7, 3] (running .peak started)))
    (t.peakbin, t.peakmag, t.freq, t.result) = (2, 7, 0x00140000, 0) := by decide +kernel
-- V-P7's rule: a peak below the threshold is gated, and `FREQ` is written all the same.
theorem test_peak_gated :
    let t := next (execPeak (withThresh 101 (spectrum 1 0x006E0000 [0, 100] (running .peak started))))
    (t.freq, t.result) = (0x006E0000, 0x40000000) := by decide +kernel
-- V-F3.
theorem test_firclr_clears :
    ((next (execFirclr { running .firclr fresh with dl := [3100, 3000] })).dl,
      (next (execFirclr { running .firclr fresh with dl := [3100, 3000] })).statusWord) = ([0, 0], 0x00060004) := by decide
-- §6, B2F: 27 bins of 4 Hz.
theorem test_b2f_bin27 :
    (next (execB2f (withArgs 27 0 (running .b2f { fresh with cfg := { fresh.cfg with binw := 0x40000 } })))).out0 =
      0x006C0000 := by decide
-- §6, B2F: a bin out of range wraps.
theorem test_b2f_wraps :
    (next (execB2f (withArgs 0xFFFFFFFF 0 (running .b2f { fresh with cfg := { fresh.cfg with binw := 0x40000 } })))).out0 =
      0xFFFC0000 := by decide
-- §6, F2B: 110 Hz of 4 Hz bins is 27.5, half up.
theorem test_f2b_half_up :
    (next (execF2b (withArgs 0x006E0000 0 (running .f2b
      { fresh with cfg := { fresh.cfg with n := 1024, fs := 4096 } })))).out0 = 28 := by decide
-- §6, F2B: the same, half down.
theorem test_f2b_half_down :
    (next (execF2b (withArgs 0x006E0000 0 (running .f2b { fresh with
      cfg := { fresh.cfg with n := 1024, fs := 4096 }, latched := { fresh.latched with rnd := true } })))).out0 = 27 := by
  decide
-- V-N13: the midpoint goes to the upper note.
theorem test_note_midpoint :
    let t := next (execNote (withArgs 0x007130C8 0 (running .note fresh)))
    (t.out0, t.out1) = (0x80000002, 0xFFFFFFCE) := by decide +kernel
-- V-N18's rule: above the table there is no note.
theorem test_note_above_table :
    ((next (execNote (withArgs 0x00748A7C 0 (running .note fresh)))).out0,
      (next (execNote (withArgs 0x00748A7C 0 (running .note fresh)))).out1) = (0, 0) := by decide +kernel
-- V-C2: an octave below.
theorem test_cents_octave_below :
    (next (execCents (withArgs 1 2 (running .cents fresh)))).out0 = 0xFFFFFB50 := by decide +kernel
-- V-C17: a zero operand is refused at acceptance.
theorem test_cents_zero_operand :
    (next (execCents { fresh with arg1 := 0x006E0000 })).statusWord = 0x00000068 := by decide

/-! ## Other steps -/

-- V-E1.
theorem test_start_illegal : (next (step (given [.hostWrite 0x004 32 1] fresh))).statusWord = 0x00000018 := by decide
-- P4 step 11.
theorem test_start_legal : (next (step (given [.hostWrite 0x004 32 1] configured))).ctrl.en = true := by decide
-- §7, slot sequence: the 32nd event makes slot 0 `READY` and the cursor moves to slot 1.
theorem test_capture_publishes :
    let s := { started with slot0 := .filling, cursor := 31 }
    ((next (step (given [.capture 1] s))).statusWord, (next (step (given [.capture 1] s))).cursor) = (0x00002200, 32) := by
  decide +kernel
-- P5: an event at position 0 of a slot that is `READY`.
theorem test_capture_overrun :
    (next (step (given [.capture 1] { ready with slot1 := .ready, cursor := 0 }))).faults = [.overrun] := by decide +kernel
-- §7, converter: code `0x1800` of width 12.
theorem test_conv_discards_bit_12 : conv true 12 0x1800 = 0 := by decide
-- V-E18.
theorem test_read_id : (next (step (given [.hostRead 0x000 32] fresh))).resp = .data 0x4D475431 := by decide
-- V-E16.
theorem test_read_misaligned : (next (step (given [.hostRead 0x002 32] fresh))).resp = .busError 0x002 := by decide

/-! ## States that meet the hypotheses of the statements -/

/-- The code of an access to word `off`. -/
def rd (off : Offset) : Input := .hostRead off 32

/-- The code of a write to word `off`. -/
def wr (off : Offset) (v : Word) : Input := .hostWrite off 32 v

theorem witness_DecodeInvertsEncode : Instr.cents.wf = true := rfl

theorem witness_IllegalWordRaisesBadCmd :
    (given [wr 0x018 0x100] fresh).inputs = [wr 0x018 0x100] ∧ fresh.eng = .idle ∧ (0x100#32).toNat / 256 ≠ 0 ∧
      (given [wr 0x018 0x0B] runningRun).inputs = [wr 0x018 0x0B] ∧ 0x0B ≤ (0x0B#32).toNat % 256 :=
  ⟨rfl, rfl, by decide, rfl, by decide⟩

theorem witness_StepRunsOfferedCommand :
    (given [wr 0x018 0x0A] started).inputs = [wr 0x018 0x0A] ∧ started.eng = .idle ∧ decode 0x0A = .ok .cents ∧
      decodeTableWord 32 0x0A = some .cents := ⟨rfl, rfl, rfl, rfl⟩

theorem witness_StepRunsHeldCommand :
    runningHps.inputs = [] ∧ runningHps.eng ≠ .idle ∧ (given [.engine] runningHps).inputs = [.engine] ∧
      fresh.inputs = [] ∧ fresh.eng = .idle := ⟨rfl, by decide, rfl, rfl, rfl⟩

theorem witness_CommandChecksRunInOrder :
    (given [wr 0x018 0x0A] { started with arg0 := 2, arg1 := 1 }).inputs = wr 0x018 0x0A :: [] := rfl

theorem witness_ClaimTakesTheReadySlot :
    { running .filt ready with eng := .wait }.eng = .wait ∧
      { running .filt ready with eng := .wait }.slot false = .ready ∧
      { running .run started with eng := .wait }.eng = .wait ∧
      { running .run started with eng := .wait }.slot false ≠ .ready := ⟨rfl, rfl, rfl, by decide⟩

theorem witness_NopCompletes : (running .nop fresh).eng = .exec := rfl

theorem witness_HeldCommandKeepsItsOperands :
    runningRun.eng = .exec ∧ (∀ rest, (given [wr 0x034 9] runningRun).inputs ≠ .powerOn :: rest) ∧
      (∀ v rest, v.getLsbD 31 = true → (given [wr 0x034 9] runningRun).inputs ≠ .hostWrite 0x004 32 v :: rest) ∧
      step (given [wr 0x034 9] runningRun) = .next (next (step (given [wr 0x034 9] runningRun))) ∧
      { ready with eng := .wait }.eng ≠ .idle :=
  ⟨by decide, fun _ h => (by cases h), fun _ _ _ h => (by cases h), rfl, by decide⟩

theorem witness_EngineAndCaptureRaiseNoError :
    fresh.inputs = [] ∧ step fresh = .next fresh ∧
      (given [.engine] fresh).inputs = .engine :: [] ∧ step (given [.engine] fresh) = .next fresh ∧
      (given [.capture 5] fresh).inputs = .capture 5 :: [] ∧ step (given [.capture 5] fresh) = .next fresh :=
  ⟨rfl, rfl, rfl, rfl, rfl, rfl⟩

theorem witness_FirclrClearsDelayLine : (running .firclr { fresh with dl := [3100, 3000] }).eng = .exec := rfl

theorem witness_FiltDecimatesTheFrame :
    (filtering 1 2 [7, 9] [3100, 3000] fresh).eng = .exec ∧ 1 ≤ (filtering 1 2 [7, 9] [3100, 3000] fresh).cfg.d ∧
      (filtering 1 2 [7, 9] [3100, 3000] fresh).cfg.n ≤ 4096 ∧
      ∀ a, a < 1 * 2 → (filtering 1 2 [7, 9] [3100, 3000] fresh).inp (0 + a) = some (if a = 0 then 7 else 9) :=
  ⟨rfl, by decide, by decide, by decide +kernel⟩

theorem runningXform_dec (j : Nat) (h : j < 32) : runningXform.dec j = some 0 := by
  rw [runningXform, dec_writeDecs, if_pos (by simpa using h), List.getElem?_replicate, if_pos (by omega)]

theorem witness_XformWritesMagnitudes :
    runningXform.eng = .exec ∧ runningXform.cfg.b ≤ 2048 ∧ 1 ≤ runningXform.cfg.b ∧
      (List.replicate 32 (0 : Sample)).length = runningXform.cfg.n ∧
      ∀ j, j < runningXform.cfg.n → runningXform.dec j = some ((List.replicate 32 (0 : Sample)).getD j 0) := by
  obtain ⟨m, h⟩ := writeDecs_state (List.replicate 32 0) 0 (running .xform started)
  have hc : runningXform.cfg = started.cfg := by rw [runningXform, h]; rfl
  have hn : runningXform.cfg.n = 32 := by rw [hc]; decide
  have hb : runningXform.cfg.b = 16 := by rw [hc]; decide
  refine ⟨by rw [runningXform, h]; rfl, by omega, by omega, by simp [hn], fun j hj => ?_⟩
  rw [runningXform_dec j (by omega), List.getD_eq_getElem?_getD, List.getElem?_replicate, if_pos (by omega)]
  rfl

/-- A magnitude is within `2^33` of the reference transform of any frame: both are small enough. -/
theorem magAccurate_loose (f : Nat → List Sample → Nat → Word) : Config.MagAccurate f (2 ^ 33) := by
  intro l d k h5 h12 hd _ _
  unfold Config.NearReference
  have hX : ‖∑ n ∈ Finset.range (2 ^ l), (((d.getD n 0).toInt : ℤ) : ℂ) *
      Complex.exp (-2 * Real.pi * Complex.I * (k : ℂ) * (n : ℂ) / (((2 ^ l : Nat)) : ℂ))‖ ≤ 2 ^ 27 := by
    have hb : ∀ n ∈ Finset.range (2 ^ l), ‖(((d.getD n 0).toInt : ℤ) : ℂ) *
        Complex.exp (-2 * Real.pi * Complex.I * (k : ℂ) * (n : ℂ) / (((2 ^ l : Nat)) : ℂ))‖ ≤ 2 ^ 15 := by
      intro n _
      have he : (-2 * Real.pi * Complex.I * (k : ℂ) * (n : ℂ) / (((2 ^ l : Nat)) : ℂ)) =
          ((-2 * Real.pi * k * n / ((2 ^ l : Nat) : ℝ) : ℝ) : ℂ) * Complex.I := by
        push_cast; ring
      rw [he, norm_mul, Complex.norm_exp_ofReal_mul_I, mul_one, Complex.norm_intCast]
      have h1 := BitVec.toInt_lt (x := d.getD n 0)
      have h2 := BitVec.le_toInt (x := d.getD n 0)
      exact_mod_cast abs_le.2 ⟨by omega, by omega⟩
    have h := norm_sum_le_of_le _ hb
    have h' : (2 : ℝ) ^ l ≤ 2 ^ 12 := pow_le_pow_right₀ (by norm_num) h12
    simp only [Finset.sum_const, Finset.card_range, nsmul_eq_mul] at h
    push_cast at h
    push_cast
    linarith
  have hv : ((f (2 ^ l) d k).toNat : ℝ) ≤ 2 ^ 32 := by
    exact_mod_cast Nat.le_of_lt (f (2 ^ l) d k).isLt
  have h0 : (0 : ℝ) ≤ ((f (2 ^ l) d k).toNat : ℝ) := Nat.cast_nonneg _
  have hn := norm_nonneg (∑ n ∈ Finset.range (2 ^ l), (((d.getD n 0).toInt : ℤ) : ℂ) *
    Complex.exp (-2 * Real.pi * Complex.I * (k : ℂ) * (n : ℂ) / (((2 ^ l : Nat)) : ℂ)))
  exact abs_le.2 ⟨by linarith, by linarith⟩

theorem witness_XformIsNearTheReference :
    Config.MagAccurate Config.magImpl (2 ^ 33) ∧ runningXform.eng = .exec ∧ runningXform.cfg.n = 2 ^ 5 ∧
      runningXform.cfg.b = 2 ^ (5 - 1) ∧ (List.replicate 32 (0 : Sample)).length = 2 ^ 5 ∧
      ∀ j, j < 2 ^ 5 → runningXform.dec j = some ((List.replicate 32 (0 : Sample)).getD j 0) := by
  obtain ⟨m, h⟩ := writeDecs_state (List.replicate 32 0) 0 (running .xform started)
  have hc : runningXform.cfg = started.cfg := by rw [runningXform, h]; rfl
  refine ⟨magAccurate_loose _, by rw [runningXform, h]; rfl, by rw [hc]; decide, by rw [hc]; decide, by simp,
    fun j hj => ?_⟩
  rw [runningXform_dec j (by omega), List.getD_eq_getElem?_getD, List.getElem?_replicate, if_pos (by omega)]
  rfl

theorem witness_SpecZeroAfterXformAndRun :
    (running .run started).eng = .exec ∧ 1 ≤ (running .run started).cfg.b ∧ (running .run started).cfg.b ≤ 2048 ∧
      1 ≤ (running .run started).cfg.hpslo := ⟨rfl, by decide, by decide, by decide⟩

theorem spectrum_spec (lo binw : Nat) (vs : List SpecWord) (s : State) (k : Nat) :
    (spectrum lo binw vs s).spec k = (writeSpecs 0 vs s).spec k := rfl

theorem published_inp (s : State) (n : Nat) : (published s).inp n = s.inp n := rfl

theorem claimedRun_inp (s : State) (n : Nat) : (claimedRun s).inp n = s.inp n := rfl

theorem runningHps_state :
    runningHps.eng = .exec ∧ runningHps.cfg.b = 16 ∧ runningHps.cfg.hpslo = 1 ∧
      ∀ x, x < 16 → runningHps.spec x = some (lines4 x) := by
  obtain ⟨m, h⟩ := writeSpecs_state ((List.range 16).map lines4) 0 (running .hps started)
  refine ⟨by rw [runningHps, spectrum, h]; rfl, by simp [runningHps, spectrum], rfl, fun x hx => ?_⟩
  have hs := spec_writeSpecs ((List.range 16).map lines4) 0 x (running .hps started)
  rw [if_pos (by simpa using hx), List.getElem?_map, List.getElem?_range (by omega)] at hs
  rw [runningHps, spectrum_spec]
  exact hs

theorem witness_HpsClosedForm :
    runningHps.eng = .exec ∧ ∀ x, x < runningHps.cfg.b → runningHps.spec x = some (lines4 x) := by
  obtain ⟨he, hb, -, hs⟩ := runningHps_state
  exact ⟨he, fun x hx => hs x (by omega)⟩

theorem lines4_small (x : Nat) : (lines4 x).toNat < 2 ^ 32 := by
  unfold lines4
  split <;> decide

theorem witness_HpsOfMagnitudesNeverWraps :
    runningHps.eng = .exec ∧
      ∀ x, x < runningHps.cfg.b → runningHps.spec x = some (lines4 x) ∧ (lines4 x).toNat < 2 ^ 32 := by
  obtain ⟨he, hb, -, hs⟩ := runningHps_state
  exact ⟨he, fun x hx => ⟨hs x (by omega), lines4_small x⟩⟩

theorem witness_PeakPicksFirstMaximum :
    runningHps.eng = .exec ∧ 1 ≤ runningHps.cfg.b ∧
      ∀ x, x < runningHps.cfg.b → runningHps.spec x = some (lines4 x) := by
  obtain ⟨he, hb, -, hs⟩ := runningHps_state
  exact ⟨he, by omega, fun x hx => hs x (by omega)⟩

theorem witness_HpsThenPeakFindsFundamental :
    runningHps.eng = .exec ∧ runningHps.cfg.b ≤ 2048 ∧ runningHps.cfg.hpslo ≤ 1 ∧ 4 * 1 < runningHps.cfg.b ∧
      (∀ x, x < runningHps.cfg.b → runningHps.spec x = some (lines4 x) ∧ (lines4 x).toNat < 2 ^ 32) ∧
      (∀ x, x < runningHps.cfg.b → (lines4 x ≠ 0 ↔ x = 1 ∨ x = 2 * 1 ∨ x = 3 * 1 ∨ x = 4 * 1)) ∧
      ∃ t, exec .hps runningHps = .next t := by
  obtain ⟨he, hb, hl, hs⟩ := runningHps_state
  refine ⟨he, by omega, by omega, by omega, fun x hx => ⟨hs x (by omega), lines4_small x⟩, fun x _ => ?_, ?_⟩
  · unfold lines4
    split <;> simp_all
  · exact ⟨_, by rw [exec_eq_runCommand, runCommand_exec he]⟩

/-- The started block satisfies the control invariant; executing a command of it does too. -/
theorem controlOk_started : ControlOk started where
  dl := by decide
  legal := by decide
  cfg := by decide
  started := by decide
  waits := by decide
  cents := by decide
  curcmd := by decide
  stopped := by decide
  cursor := by decide

theorem witness_B2fWritesTheBinFrequency :
    (withArgs 15 0 (running .b2f started)).eng = .exec ∧ ControlOk (withArgs 15 0 (running .b2f started)) ∧
      (withArgs 15 0 (running .b2f started)).ctrl.en = true ∧
      (withArgs 15 0 (running .b2f started)).latched.arg0.toNat < (withArgs 15 0 (running .b2f started)).cfg.b :=
  ⟨rfl, by constructor <;> decide, rfl, by decide⟩

theorem witness_F2bRoundsToNearestBin :
    (withArgs 0x00050000 0 (running .f2b started)).eng = .exec ∧
      1 ≤ (withArgs 0x00050000 0 (running .f2b started)).cfg.fs ∧
      (withArgs 0x00050000 0 (running .f2b started)).cfg.n ≤ 4096 ∧
      (withArgs 0x00050000 0 (running .f2b started)).latched.rnd = false ∧
      (running .f2b { started with latched := { started.latched with rnd := true } }).latched.rnd = true :=
  ⟨rfl, by decide, by decide, rfl, rfl⟩

theorem witness_CentsIsTheRoundedLogarithm : 1 ≤ 0xFFFFFFFF ∧ 0xFFFFFFFF < 2 ^ 32 ∧ 1 ≤ 1 ∧ 1 < 2 ^ 32 := by decide

theorem witness_CentsCommandWritesDeviation :
    (withArgs 3 2 (running .cents fresh)).eng = .exec ∧ (withArgs 3 2 (running .cents fresh)).latched.arg0 ≠ 0 ∧
      (withArgs 3 2 (running .cents fresh)).latched.arg1 ≠ 0 := ⟨rfl, by decide, by decide⟩

theorem witness_NoteFindsNearestNote :
    (running .note fresh).eng = .exec ∧ wfNoteTable (running .note fresh).rom.noteTable = true ∧
      (withArgs 0x0067D37F 0 (running .note fresh)).latched.arg0.toNat < (rom0.noteTable.getD 0 0).toNat ∧
      (rom0.noteTable.getD 2 0).toNat < (withArgs 0x00748A7C 0 (running .note fresh)).latched.arg0.toNat ∧
      (withArgs 0x00748A7B 0 (running .note fresh)).latched.arg0.toNat = (rom0.noteTable.getD 2 0).toNat ∧
      (rom0.noteTable.getD 0 0).toNat ≤ (withArgs 0x0067D380 0 (running .note fresh)).latched.arg0.toNat ∧
      (withArgs 0x0067D380 0 (running .note fresh)).latched.arg0.toNat < (rom0.noteTable.getD 1 0).toNat ∧
      (rom0.noteTable.getD 1 0).toNat ≤ (withArgs 0x00748A7A 0 (running .note fresh)).latched.arg0.toNat ∧
      (withArgs 0x00748A7A 0 (running .note fresh)).latched.arg0.toNat < (rom0.noteTable.getD 2 0).toNat :=
  ⟨rfl, by decide, by decide, by decide, by decide, by decide, by decide, by decide, by decide⟩

theorem witness_NearestNoteIsWithinFiftyCents :
    wfNoteTable rom0.noteTable = true ∧
      (∀ j, j + 1 < rom0.noteTable.length →
        (rom0.noteTable.getD (j + 1) 0).toNat ^ 1200 ≤ (rom0.noteTable.getD j 0).toNat ^ 1200 * 2 ^ 101) ∧
      nearest rom0.noteTable 0x00748A7B = some (2, 0) := by
  have h : ∀ j, j < 2 →
      (rom0.noteTable.getD (j + 1) 0).toNat ^ 1200 ≤ (rom0.noteTable.getD j 0).toNat ^ 1200 * 2 ^ 101 := by
    decide +kernel
  exact ⟨by decide, fun j hj => h j (Nat.lt_of_succ_lt_succ hj), by decide +kernel⟩

theorem witness_RunIsTheFourStages : (running .run ready).eng = .exec := rfl

theorem withIn_state (vs : List Sample) (a : Nat) (s : State) : ∃ m, withIn a vs s = { s with mem := m } := by
  induction vs generalizing a s with
  | nil => exact ⟨s.mem, rfl⟩
  | cons v vs ih =>
    obtain ⟨m, h⟩ := ih (a + 1) (writeIn a v s)
    exact ⟨m, by rw [withIn, h]; rfl⟩

theorem inp_withIn_zeros (k a n : Nat) (s : State) (h : a ≤ n ∧ n < a + k ∨ s.inp n = some 0) :
    (withIn a (List.replicate k 0) s).inp n = some 0 := by
  induction k generalizing a s with
  | zero => exact h.resolve_left (by omega)
  | succ k ih =>
    rw [List.replicate_succ, withIn]
    refine ih (a + 1) _ ?_
    by_cases hn : n = a
    · subst hn; exact .inr (inp_writeIn_same n 0 s)
    · rcases h with h | h
      · exact .inl (by omega)
      · exact .inr (by rw [inp_writeIn_ne hn]; exact h)

theorem ready_inp {n : Nat} (h : n < 32) : ready.inp n = some 0 := by
  rw [ready, published_inp]
  exact inp_withIn_zeros 32 0 n started (.inl (by omega))

theorem runningRun_inp {n : Nat} (h : n < 32) : runningRun.inp n = some 0 := by
  rw [runningRun, claimedRun_inp]
  exact ready_inp h

theorem ready_control : ControlOk ready := by constructor <;> decide

theorem ready_frames : FramesWritten ready where
  partly _ n hn := absurd hn (by rw [show ready.curPos = 0 by decide]; omega)
  wholly b hb n hn := by
    rw [show ready.nd = 32 by decide] at hn
    cases b with
    | false =>
      show (ready.inp (0 + n)).isSome = true
      rw [Nat.zero_add, ready_inp hn]
      rfl
    | true => exact absurd hb (by decide)

theorem ready_handoff : HandoffOk ready := by
  constructor
  · decide
  · decide
  · decide
  · intro _
    exact .inr (.inl ⟨by decide, .inl (by decide), .inl (by decide)⟩)

theorem runningRun_control : ControlOk runningRun := by constructor <;> decide

theorem runningRun_frames : FramesWritten runningRun where
  partly _ n hn := absurd hn (by rw [show runningRun.curPos = 0 by decide]; omega)
  wholly b hb n hn := by
    rw [show runningRun.nd = 32 by decide] at hn
    cases b with
    | false =>
      show (runningRun.inp (0 + n)).isSome = true
      rw [Nat.zero_add, runningRun_inp hn]
      rfl
    | true => exact absurd hb (by decide)

theorem runningRun_handoff : HandoffOk runningRun := by
  constructor
  · decide
  · decide
  · decide
  · intro _
    exact .inr (.inl ⟨by decide, .inr (by decide), .inl (by decide)⟩)

theorem witness_CommandReadsOfUnwrittenEntries :
    (ControlOk runningRun ∧ FramesWritten runningRun ∧ runningRun.ctrl.en = true ∧ runningRun.eng = .exec ∧
      runningRun.slot runningRun.latched.slot = .claimed ∧ ∃ t, exec .run runningRun = .next t) ∧
    (∀ i, (running i started).eng = .exec) ∧
    (31 < started.cfg.n * started.cfg.d ∧ (running .filt started).inp (0 + 31) = none ∧
      (running .run started).inp (0 + 31) = none) ∧
    (31 < started.cfg.n ∧ (running .xform started).dec 31 = none) ∧
    (started.cfg.hpslo ≤ 7 ∧ 2 * 7 < started.cfg.b ∧ 2 * 7 < started.cfg.b ∧
      (running .hps started).spec (2 * 7) = none) ∧
    15 < started.cfg.b ∧ (running .peak started).spec 15 = none :=
  ⟨⟨runningRun_control, runningRun_frames, by decide, by decide, by decide,
    _, by rw [exec_eq_runCommand, runCommand_exec (by decide)]⟩, fun _ => rfl, ⟨by decide, rfl, rfl⟩, ⟨by decide, rfl⟩,
    ⟨by decide, by decide, by decide, rfl⟩, by decide, rfl⟩

theorem witness_SilentFrameIsGated :
    ControlOk runningRun ∧ runningRun.ctrl.en = true ∧ runningRun.eng = .exec ∧
      (∀ a, a < runningRun.nd → runningRun.inp (runningRun.slotBase runningRun.latched.slot + a) = some 0) ∧
      (∀ x ∈ runningRun.dl, x = 0) ∧ runningRun.latched.thresh ≠ 0 := by
  refine ⟨runningRun_control, by decide, by decide, fun a ha => ?_, fun x hx => List.eq_of_mem_replicate hx, by decide⟩
  rw [show runningRun.nd = 32 by decide] at ha
  show runningRun.inp (0 + a) = some 0
  rw [Nat.zero_add, runningRun_inp ha]

/-- One sample short of a frame in slot 0, over the memory `m`. -/
def almost (m : Memory) : State := { started with mem := m, slot0 := .filling, cursor := 31 }

/-- `almost` after a `RUN` or `FILT` is accepted. -/
def acceptedOf (i : Instr) (es : List Input) (m : Memory) : State :=
  { almost m with
    eng := .wait, curcmd := opcode i, latched := { Latched.reset with op := i, thresh := 1 }, inputs := es, resp := .ack }

/-- And after the frame's last sample. -/
def publishedOf (i : Instr) (es : List Input) (m : Memory) : State :=
  { acceptedOf i es m with
    mem := m.setEntry 2 (inAddr 31) (0 : Sample), slot0 := .ready, frdy := true, cursor := 32 }

/-- And after its slot is claimed. -/
def claimedOf (i : Instr) (es : List Input) (r : Response) (m : Memory) : State :=
  { started with
    eng := .exec, done := false, curcmd := opcode i, slot0 := .claimed, frdy := true, cursor := 32,
    mem := m.setEntry 2 (inAddr 31) (0 : Sample), latched := { Latched.reset with op := i, thresh := 1 },
    inputs := es, resp := r }

theorem almost_accept {i : Instr} (hi : i = .filt ∨ i = .run) (m : Memory) (es : List Input) :
    runInputs (wr 0x018 (encode i) :: es) (almost m) = runInputs es (acceptedOf i es m) := by
  refine runInputs_cons ?_ rfl
  rcases hi with rfl | rfl <;> rfl

theorem almost_capture (i : Instr) (m : Memory) (es : List Input) :
    captureEvent 0 (acceptedOf i es m) = publishedOf i es m := by
  have h0 : (acceptedOf i es m).curPos = 31 := rfl
  have h1 : (acceptedOf i es m).curSlot = false := by
    change ((31#17).toNat / started.nd != 0) = false
    decide
  have h2 : nextSlot (acceptedOf i es m) = .ready := if_pos rfl
  rw [captureEvent_explicit, if_pos (show (acceptedOf i es m).ctrl.en = true from rfl)]
  simp only [captured, h0, h1, h2]
  rfl

theorem almost_claimed {i : Instr} (hi : i = .filt ∨ i = .run) (m : Memory) (es : List Input) :
    runInputs (wr 0x018 (encode i) :: .capture 0 :: .engine :: es) (almost m) =
      runInputs es (claimedOf i es .ack m) := by
  rw [almost_accept hi]
  refine (runInputs_cons (e := .capture 0) (s := acceptedOf i (.capture 0 :: .engine :: es) m)
    (congrArg Host.Outcome.next (almost_capture i m (.engine :: es))) rfl).trans (runInputs_cons ?_ rfl)
  rcases hi with rfl | rfl <;> rfl

/-- The memory with 31 silent samples. -/
def mem31 : Memory := (withIn 0 (List.replicate 31 0) started).mem

theorem claimedOf_inp (i : Instr) (es : List Input) (r : Response) {a : Nat} (h : a < 32) :
    ((claimedOf i es r mem31).inp a).isSome = true := by
  show ((writeIn 31 0 (withIn 0 (List.replicate 31 0) started)).inp a).isSome = true
  by_cases ha : a = 31
  · subst ha; rw [inp_writeIn_same]; rfl
  · rw [inp_writeIn_ne ha, inp_withIn_zeros 31 0 a started (.inl (by omega))]; rfl

theorem claimedOf_faults (i : Instr) (es : List Input) (r : Response) (m : Memory) :
    (claimedOf i es r m).faults = [] := rfl

theorem claimedOf_cfg (i : Instr) (es : List Input) (r : Response) (m : Memory) :
    (claimedOf i es r m).cfg = started.cfg := rfl

theorem claimedOf_frame {m : Memory} (hm : ∀ i es r a, a < 32 → ((claimedOf i es r m).inp a).isSome = true)
    (i : Instr) (es : List Input) (r : Response) : ∀ a, a < (claimedOf i es r m).nd →
      ((claimedOf i es r m).inp ((claimedOf i es r m).slotBase (claimedOf i es r m).latched.slot + a)).isSome = true := by
  intro a ha
  show ((claimedOf i es r m).inp (0 + a)).isSome = true
  rw [Nat.zero_add]
  exact hm i es r a ha

theorem body_inputs {i : Instr} (hi : i = .filt ∨ i = .run ∨ i = .xform ∨ i = .hps ∨ i = .peak) (s : State) :
    (bodyOf i s).inputs = s.inputs := by
  rcases hi with rfl | rfl | rfl | rfl | rfl
  · obtain ⟨m, fs, c, dl, h⟩ := bodyFilt_state s; exact (congrArg State.inputs h).trans rfl
  · obtain ⟨m, fs, c, dl, pb, pm, f, r, ce, h⟩ := bodyRun_state s; exact (congrArg State.inputs h).trans rfl
  · obtain ⟨m, fs, c, h⟩ := bodyXform_state s; exact (congrArg State.inputs h).trans rfl
  · obtain ⟨m, fs, c, h⟩ := bodyHps_state s; exact (congrArg State.inputs h).trans rfl
  · obtain ⟨fs, c, pb, pm, f, r, ce, h⟩ := bodyPeak_state s; exact (congrArg State.inputs h).trans rfl

/-- The last engine turn of a command. -/
theorem run_engine {i : Instr} (hi : i = .filt ∨ i = .run ∨ i = .xform ∨ i = .hps ∨ i = .peak) {s u : State}
    (hu : { s with inputs := [] } = u) (he : u.eng = .exec) (ho : u.latched.op = i) :
    runInputs [.engine] s = .next (complete (bodyOf i u)) := by
  have hin : (complete (bodyOf i u)).inputs = [] := (body_inputs hi u).trans (by rw [← hu])
  refine (runInputs_cons ?_ hin).trans (runInputs_nil hin)
  rw [hu]
  show engineTurn u = _
  rw [engineTurn]
  simp only [he]
  rw [ho, exec_eq_runCommand, runCommand_exec he]

/-- A stage command offered to a started idle block, and its engine turn. -/
theorem run_stage {j : Instr} {s : State} (hj : j = .xform ∨ j = .hps ∨ j = .peak) (he : s.eng = .idle)
    (hen : s.ctrl.en = true) : runInputs [wr 0x018 (encode j), .engine] s =
      .next (complete (bodyOf j (accept j { s with inputs := [], resp := .ack }))) := by
  refine (runInputs_cons (t := accept j { s with inputs := [.engine], resp := .ack }) ?_ rfl).trans
    (run_engine (.inr (.inr hj)) rfl ?_ rfl)
  · show offer (encode j) { s with inputs := [.engine], resp := .ack } = _
    have hd : decode (encode j) = .ok j := by rcases hj with rfl | rfl | rfl <;> rfl
    have ho : offerDecoded j { s with inputs := [.engine], resp := .ack } =
        accept j { s with inputs := [.engine], resp := .ack } := by
      rcases hj with rfl | rfl | rfl <;> simp [offerDecoded, hen]
    rw [← ho]
    simp only [offer, State.busy, he, hd, exec_eq_runCommand, runCommand]
    rfl
  · rcases hj with rfl | rfl | rfl <;> rfl

/-- Idle and started as `started` is, with no fault. -/
def Idle (s : State) : Prop := s.eng = .idle ∧ s.ctrl = started.ctrl ∧ s.cfg = started.cfg ∧ s.faults = []

theorem idle_complete {B : State} (h1 : B.ctrl = started.ctrl) (h2 : B.cfg = started.cfg) (h3 : B.faults = []) :
    Idle (complete B) := ⟨rfl, h1, h2, h3⟩

theorem complete_dec (B : State) (j : Nat) : (complete B).dec j = B.dec j := rfl

theorem complete_spec (B : State) (k : Nat) : (complete B).spec k = B.spec k := rfl

theorem almost_run {m : Memory} (hm : ∀ i es r a, a < 32 → ((claimedOf i es r m).inp a).isSome = true) :
    ∃ t, runInputs [wr 0x018 1, .capture 0, .engine, rd 0x01C, .engine] (almost m) = .next t ∧
      t.eng = .idle ∧ FaultFree t := by
  refine ⟨_, (almost_claimed (i := .run) (.inr rfl) m _).trans ((runInputs_cons
    (t := claimedOf .run [.engine] (.data (claimedOf .run [.engine] .ack m).statusWord) m) rfl rfl).trans
    (run_engine (.inr (.inl rfl)) (u := claimedOf .run [] (.data (claimedOf .run [.engine] .ack m).statusWord) m)
      rfl rfl rfl)), rfl, ?_⟩
  rw [FaultFree, complete_faults, show bodyOf .run = bodyRun from rfl]
  have h := bodyRun_written (claimedOf_frame hm .run [] (.data (claimedOf .run [.engine] .ack m).statusWord))
  rw [claimedOf_faults] at h
  exact h

theorem almost_filt {m : Memory} (hm : ∀ i es r a, a < 32 → ((claimedOf i es r m).inp a).isSome = true) :
    ∃ u, runInputs [wr 0x018 2, .capture 0, .engine, .engine] (almost m) = .next u ∧ Idle u ∧
      ∀ j, j < started.cfg.n → (u.dec j).isSome = true := by
  have h := bodyFilt_written (claimedOf_frame hm .filt [] .ack)
  rw [claimedOf_faults, claimedOf_cfg] at h
  have hk : (bodyFilt (claimedOf .filt [] .ack m)).ctrl = started.ctrl ∧
      (bodyFilt (claimedOf .filt [] .ack m)).cfg = started.cfg := by
    obtain ⟨m1, fs, c, dl, h⟩ := bodyFilt_state (claimedOf .filt [] .ack m)
    rw [h]
    exact ⟨rfl, rfl⟩
  exact ⟨_, (almost_claimed (i := .filt) (.inl rfl) m _).trans
      (run_engine (.inl rfl) (u := claimedOf .filt [] .ack m) rfl rfl rfl),
    idle_complete hk.1 hk.2 h.1, fun j hj => by rw [complete_dec]; exact h.2 j hj⟩

theorem idle_xform {s : State} (h : Idle s) (hd : ∀ j, j < started.cfg.n → (s.dec j).isSome = true) :
    ∃ u, runInputs [wr 0x018 3, .engine] s = .next u ∧ Idle u ∧
      ∀ k, k < started.cfg.b → (u.spec k).isSome = true := by
  obtain ⟨h1, h2, h3, h4⟩ := h
  have hw := bodyXform_written (s := accept .xform { s with inputs := [], resp := .ack })
    fun j hj => hd j (show j < started.cfg.n from h3 ▸ hj)
  obtain ⟨m, fs, c, he⟩ := bodyXform_state (accept .xform { s with inputs := [], resp := .ack })
  exact ⟨_, run_stage (j := .xform) (.inl rfl) h1 (by rw [h2]; rfl),
    idle_complete ((congrArg State.ctrl he).trans h2) ((congrArg State.cfg he).trans h3) (hw.1.trans h4),
    fun k hk => by rw [complete_spec]; exact hw.2 k (show k < s.cfg.b from h3.symm ▸ hk)⟩

theorem idle_hps {s : State} (h : Idle s) (hd : ∀ k, k < started.cfg.b → (s.spec k).isSome = true) :
    ∃ u, runInputs [wr 0x018 4, .engine] s = .next u ∧ Idle u ∧
      ∀ k, k < started.cfg.b → (u.spec k).isSome = true := by
  obtain ⟨h1, h2, h3, h4⟩ := h
  have hw := bodyHps_written (s := accept .hps { s with inputs := [], resp := .ack })
    fun j hj => hd j (show j < started.cfg.b from h3 ▸ hj)
  obtain ⟨m, fs, c, he⟩ := bodyHps_state (accept .hps { s with inputs := [], resp := .ack })
  exact ⟨_, run_stage (j := .hps) (.inr (.inl rfl)) h1 (by rw [h2]; rfl),
    idle_complete ((congrArg State.ctrl he).trans h2) ((congrArg State.cfg he).trans h3) (hw.1.trans h4),
    fun k hk => by rw [complete_spec]; exact hw.2 k (show k < s.cfg.b from h3.symm ▸ hk)⟩

theorem idle_peak {s : State} (h : Idle s) (hd : ∀ k, k < started.cfg.b → (s.spec k).isSome = true) :
    ∃ u, runInputs [wr 0x018 5, .engine] s = .next u ∧ u.eng = .idle ∧ FaultFree u := by
  obtain ⟨h1, h2, h3, h4⟩ := h
  have hw := bodyPeak_written (s := accept .peak { s with inputs := [], resp := .ack })
    fun j hj => hd j (show j < started.cfg.b from h3 ▸ hj)
  exact ⟨_, run_stage (j := .peak) (.inr (.inr rfl)) h1 (by rw [h2]; rfl), rfl, hw.trans h4⟩

theorem almost_control (m : Memory) : ControlOk (almost m) where
  dl := rfl
  legal _ := show legalConfig started = true by decide
  cfg _ := rfl
  started h := absurd rfl h
  waits h := by cases h
  cents h := absurd rfl h
  curcmd h := absurd rfl h
  stopped h := by cases h
  cursor _ := show 31 < 2 * started.nd by decide

theorem almost_handoff (m : Memory) : HandoffOk (almost m) := by
  have h0 : (almost m).curPos = 31 := rfl
  have h1 : (almost m).curSlot = false := by
    change ((31#17).toNat / started.nd != 0) = false
    decide
  refine ⟨fun _ _ => by rw [h1]; rfl, fun b hb => ?_, fun b => ⟨fun h => ?_, fun h => by cases h.1⟩,
    fun _ => .inl ⟨h1, .inr rfl, rfl⟩⟩
  · cases b
    · exact ⟨h1, by rw [h0]; decide⟩
    · cases hb
  · cases b <;> cases h

/-- The inputs of the runs below: the last sample, then the engine's turns, with a read of `STATUS` in one run. -/
def polled : List Input := [.capture 0, .engine, rd 0x01C, .engine]

def unpolled : List Input := [.capture 0, .engine, .engine]

theorem witness_RunEqualsStageCommands :
    (ready.eng = .idle ∧ ready.ctrl.en = true ∧ ready.slot ready.rdslot = .ready) ∧
      ControlOk (almost mem31) ∧ HandoffOk (almost mem31) ∧ (almost mem31).eng = .idle ∧
      (almost mem31).ctrl.en = true ∧
      NoHostWrite (polled ++ unpolled ++ [Input.engine] ++ [Input.engine] ++ [Input.engine]) ∧
      captures polled = captures (unpolled ++ [Input.engine] ++ [Input.engine] ++ [Input.engine]) ∧
      ∃ t u1 u2 u3 u4,
        runInputs (wr 0x018 1 :: polled) (almost mem31) = .next t ∧
        runInputs (wr 0x018 2 :: unpolled) (almost mem31) = .next u1 ∧
        runInputs [wr 0x018 3, .engine] u1 = .next u2 ∧ runInputs [wr 0x018 4, .engine] u2 = .next u3 ∧
        runInputs [wr 0x018 5, .engine] u3 = .next u4 ∧ t.eng = .idle ∧ u1.eng = .idle ∧ u2.eng = .idle ∧
        u3.eng = .idle ∧ u4.eng = .idle ∧ FaultFree t ∧ FaultFree u4 := by
  obtain ⟨t, ht, et, ft⟩ := almost_run fun i es r a h => claimedOf_inp i es r h
  obtain ⟨u1, h1, g1, w1⟩ := almost_filt fun i es r a h => claimedOf_inp i es r h
  obtain ⟨u2, h2, g2, w2⟩ := idle_xform g1 w1
  obtain ⟨u3, h3, g3, w3⟩ := idle_hps g2 w2
  obtain ⟨u4, h4, e4, f4⟩ := idle_peak g3 w3
  exact ⟨by decide, almost_control _, almost_handoff _, rfl, rfl, by simp [NoHostWrite, polled, unpolled, rd], rfl,
    t, u1, u2, u3, u4, ht, h1, h2, h3, h4, et, g1.1, g2.1, g3.1, e4, ft, f4⟩

/-! ### Writes to the control registers and resets -/

theorem witness_ResetsLeaveTheResetState :
    (given [wr 0x004 0x80000000] runningRun).inputs = wr 0x004 0x80000000 :: [] ∧
      (0x80000000#32).getLsbD 31 = true ∧ (given [.powerOn] runningRun).inputs = .powerOn :: [] :=
  ⟨rfl, by decide, rfl⟩

theorem witness_CtrlWriteOfAStoppedBlock :
    (given [wr 0x004 0x7FFFFFFF] configured).inputs = wr 0x004 0x7FFFFFFF :: [] ∧ configured.ctrl.en = false ∧
      (0x7FFFFFFF#32).getLsbD 31 = false ∧ configured.eng = .idle ∧ legalConfig configured = true ∧
      (given [wr 0x004 1] fresh).inputs = wr 0x004 1 :: [] ∧ fresh.ctrl.en = false ∧ legalConfig fresh = false ∧
      (given [wr 0x004 1] (running .firclr fresh)).inputs = wr 0x004 1 :: [] ∧ (running .firclr fresh).ctrl.en = false ∧
      (running .firclr fresh).eng ≠ .idle := by
  refine ⟨rfl, rfl, by decide, rfl, by decide, rfl, rfl, by decide, rfl, rfl, by decide⟩

theorem witness_CtrlWriteOfAStartedBlock :
    (given [wr 0x004 0] started).inputs = wr 0x004 0 :: [] ∧ started.ctrl.en = true ∧ (0#32).getLsbD 31 = false ∧
      (given [wr 0x004 5] runningRun).inputs = wr 0x004 5 :: [] ∧ runningRun.ctrl.en = true ∧
      (5#32).getLsbD 31 = false ∧ runningRun.eng ≠ .idle := by
  refine ⟨rfl, rfl, by decide, rfl, by decide, by decide, by decide⟩

theorem witness_ConfigurationIsLockedWhileStarted :
    (given [wr 0x008 0xFFFFFFFF] started).inputs = wr 0x008 0xFFFFFFFF :: [] ∧ started.ctrl.en = true ∧
      (given [wr 0x00C 0xFFFFFFFF] fresh).inputs = wr 0x00C 0xFFFFFFFF :: [] ∧ fresh.ctrl.en = false ∧
      (given [wr 0x010 0xFFFFFFFF] fresh).inputs = wr 0x010 0xFFFFFFFF :: [] := ⟨rfl, rfl, rfl, rfl, rfl⟩

theorem witness_StatusWriteClearsFlags :
    (given [wr 0x01C 0x2008] { ready with err := some .cfg }).inputs = wr 0x01C 0x2008 :: [] := rfl

theorem witness_FirstErrorIsKept :
    { started with err := some .badcmd }.err = some .badcmd ∧
      step (given [wr 0x008 7] { started with err := some .badcmd }) =
        .next (next (step (given [wr 0x008 7] { started with err := some .badcmd }))) ∧
      step (given [wr 0x01C 8] { started with err := some .badcmd }) =
        .next (next (step (given [wr 0x01C 8] { started with err := some .badcmd }))) := ⟨rfl, rfl, rfl⟩

theorem witness_StatusReadShowsTheFlags :
    (given [rd 0x01C] { runningRun with err := some .arg }).inputs = rd 0x01C :: [] ∧ runningRun.slot0 = .claimed ∧
      fresh.slot0 = .empty ∧ ready.slot0 = .ready ∧ { ready with slot1 := .filling }.slot1 = .filling :=
  ⟨rfl, rfl, rfl, rfl, rfl⟩

theorem witness_RegisterReadsAndReadOnlyWrites :
    ((given [rd 0x000] runningRun).inputs = rd 0x000 :: [] ∧ (given [rd 0x064] fresh).inputs = rd 0x064 :: []) ∧
    ((given [rd 0x014] configured).inputs = rd 0x014 :: [] ∧ configured.config.log2n.toNat = 5 ∧
      (given [rd 0x014] { configured with config := { configured.config with log2n := 12 } }).inputs = rd 0x014 :: [] ∧
      (given [rd 0x014] { configured with config := { configured.config with log2n := 4 } }).inputs = rd 0x014 :: [] ∧
      ¬(5 ≤ (4#4).toNat ∧ (4#4).toNat ≤ 12) ∧ ¬(5 ≤ (13#4).toNat ∧ (13#4).toNat ≤ 12)) ∧
    ((given [rd 0x03C] fresh).inputs = rd 0x03C :: [] ∧ fresh.eng = .idle ∧
      (given [rd 0x060] runningRun).inputs = rd 0x060 :: [] ∧ runningRun.eng ≠ .idle) ∧
    (given [wr 0x000 7] fresh).inputs = wr 0x000 7 :: [] ∧ (given [wr 0x06C 7] runningRun).inputs = wr 0x06C 7 :: [] :=
  ⟨⟨rfl, rfl⟩, ⟨rfl, by decide, rfl, rfl, by decide, by decide⟩, ⟨rfl, rfl, rfl, by decide⟩, rfl, rfl⟩

theorem witness_OperandRegisterWrites :
    (given [wr 0x034 7] runningRun).inputs = wr 0x034 7 :: [] ∧ (given [wr 0x038 7] runningRun).inputs = wr 0x038 7 :: [] ∧
      (given [wr 0x024 7] runningRun).inputs = wr (BitVec.ofNat 20 (0x024 + 4 * 0)) 7 :: [] ∧
      (given [wr 0x030 7] runningRun).inputs = wr (BitVec.ofNat 20 (0x024 + 4 * 3)) 7 :: [] := ⟨rfl, rfl, rfl, rfl⟩

/-! ### Accesses -/

theorem witness_BadAccessIsABusError :
    (given [.hostRead 0x018 16] fresh).inputs = .hostRead 0x018 16 :: [] ∧ (16 ≠ 32 ∨ (0x018 : Offset).toNat % 4 ≠ 0) ∧
      (given [wr 0x019 1] fresh).inputs = wr 0x019 1 :: [] ∧ (32 ≠ 32 ∨ (0x019 : Offset).toNat % 4 ≠ 0) :=
  ⟨rfl, by decide, rfl, by decide⟩

theorem witness_ReadsChangeNoBlockState :
    (given [.hostRead 0x3FFC 32] runningRun).inputs = .hostRead 0x3FFC 32 :: [] ∧ (0x3FFC : Offset).toNat < 0x4000 ∧
      (given [.hostRead 0x4000 32] fresh).inputs = .hostRead 0x4000 32 :: [] := ⟨rfl, by decide, rfl⟩

theorem witness_ReservedOffsetsReadZero :
    fresh.dl.length = fresh.rom.firCoef.length - 1 ∧ fresh.eng = .idle ∧ (0x070 : Offset).toNat % 4 = 0 ∧
      (given [rd 0x070] fresh).inputs = rd 0x070 :: [] ∧ (given [wr 0xFFC 1] fresh).inputs = wr 0xFFC 1 :: [] ∧
      0x1000 + 4 * fresh.rom.noteTable.length ≤ (0x100C : Offset).toNat ∧
      0x2000 + 4 * fresh.rom.firCoef.length ≤ (0x200C : Offset).toNat ∧
      0x3000 + 4 * (fresh.rom.firCoef.length - 1) ≤ (0x3008 : Offset).toNat ∧ (0x33FC : Offset).toNat < 0x3400 ∧
      (given [rd 0x3008] fresh).inputs = rd 0x3008 :: [] ∧
      (given [wr 0x33FC 1] runningRun).inputs = wr 0x33FC 1 :: [] ∧
      0x3400 ≤ (0x3400 : Offset).toNat ∧ (0x3FFC : Offset).toNat < 0x4000 ∧
      (given [rd 0x3400] runningRun).inputs = rd 0x3400 :: [] ∧
      0x10000 ≤ (0x10000 : Offset).toNat ∧ (0x7FFFC : Offset).toNat < 0x80000 := by
  refine ⟨by decide, rfl, by decide, rfl, rfl, by decide, by decide, by decide, by decide, rfl, rfl, by decide,
    by decide, rfl, by decide, by decide⟩

theorem witness_ReadOnlyWindowsReadTheirEntries :
    RomOk fresh ∧ (given [rd 0x068] fresh).inputs = rd 0x068 :: [] ∧ (given [rd 0x06C] fresh).inputs = rd 0x06C :: [] ∧
      0 < fresh.rom.noteTable.length ∧ 2 < fresh.rom.noteTable.length ∧
      (given [rd 0x1000] fresh).inputs = rd (BitVec.ofNat 20 (0x1000 + 4 * 0)) :: [] ∧
      (given [wr 0x1008 1] fresh).inputs = wr (BitVec.ofNat 20 (0x1000 + 4 * 2)) 1 :: [] ∧
      2 < fresh.rom.firCoef.length ∧ (given [rd 0x2008] fresh).inputs = rd (BitVec.ofNat 20 (0x2000 + 4 * 2)) :: [] ∧
      (given [wr 0x2000 1] fresh).inputs = wr (BitVec.ofNat 20 (0x2000 + 4 * 0)) 1 :: [] ∧
      (given [rd 0x3004] fresh).inputs = rd (BitVec.ofNat 20 (0x3000 + 4 * 1)) :: [] ∧ fresh.eng = .idle ∧
      1 < fresh.rom.firCoef.length - 1 ∧ fresh.dl[1]? = some 0 ∧
      (given [rd 0x33FC] runningRun).inputs = rd (BitVec.ofNat 20 (0x3000 + 4 * 255)) :: [] ∧ RomOk runningRun ∧
      runningRun.eng ≠ .idle ∧ (given [wr 0x3000 1] runningRun).inputs = wr (BitVec.ofNat 20 (0x3000 + 4 * 0)) 1 :: [] :=
  ⟨⟨by decide, by decide⟩, rfl, rfl, by decide, by decide, rfl, rfl, by decide, rfl, rfl, rfl, rfl, by decide, rfl, rfl,
    ⟨by decide, by decide⟩, by decide, rfl⟩

theorem witness_StepKeepsTheRoms : step (given [wr 0x1000 1] fresh) = .next { fresh with resp := .ack } := rfl

theorem witness_DecWindow :
    (given [rd 0x7FFC] (writeDec 4095 5 fresh)).inputs = rd (BitVec.ofNat 20 (0x4000 + 4 * 4095)) :: [] ∧
      (writeDec 4095 5 fresh).eng = .idle ∧ (writeDec 4095 5 fresh).dec 4095 = some 5 ∧
      (given [rd 0x4000] fresh).inputs = rd (BitVec.ofNat 20 (0x4000 + 4 * 0)) :: [] ∧ fresh.dec 0 = none ∧
      (given [wr 0x4000 5] runningRun).inputs = wr (BitVec.ofNat 20 (0x4000 + 4 * 0)) 5 :: [] ∧ runningRun.eng ≠ .idle ∧
      (given [wr 0x7FFC 5] fresh).inputs = wr (BitVec.ofNat 20 (0x4000 + 4 * 4095)) 5 :: [] ∧
      (given [rd 0x7FFC] runningRun).inputs = rd (BitVec.ofNat 20 (0x4000 + 4 * 4095)) :: [] :=
  ⟨rfl, rfl, dec_writeDec_same 4095 5 fresh, rfl, rfl, rfl, by decide, rfl, rfl⟩

theorem witness_SpecWindow :
    (given [rd 0xFFFC] (writeSpec 2047 5 fresh)).inputs = rd (BitVec.ofNat 20 (0x8000 + 16 * 2047 + 4 * 3)) :: [] ∧
      (writeSpec 2047 5 fresh).eng = .idle ∧ (writeSpec 2047 5 fresh).spec 2047 = some 5 ∧
      (given [rd 0x8000] fresh).inputs = rd (BitVec.ofNat 20 (0x8000 + 16 * 0 + 4 * 0)) :: [] ∧ fresh.spec 0 = none ∧
      (given [wr 0x8000 5] runningRun).inputs = wr (BitVec.ofNat 20 (0x8000 + 16 * 0 + 4 * 0)) 5 :: [] ∧
      runningRun.eng ≠ .idle ∧
      (given [wr 0xFFFC 5] fresh).inputs = wr (BitVec.ofNat 20 (0x8000 + 16 * 2047 + 4 * 3)) 5 :: [] ∧
      (given [rd 0xFFFC] runningRun).inputs = rd (BitVec.ofNat 20 (0x8000 + 16 * 2047 + 4 * 3)) :: [] :=
  ⟨rfl, rfl, spec_writeSpec_same 2047 5 fresh, rfl, rfl, rfl, by decide, rfl, rfl⟩

theorem witness_InWindow :
    (given [rd 0xFFFFC] (writeIn 131071 5 fresh)).inputs = rd (BitVec.ofNat 20 (0x80000 + 4 * 131071)) :: [] ∧
      (writeIn 131071 5 fresh).inp 131071 = some 5 ∧
      (given [rd 0x80000] fresh).inputs = rd (BitVec.ofNat 20 (0x80000 + 4 * 0)) :: [] ∧ fresh.inp 0 = none ∧
      (given [wr 0xFFFFC 5] fresh).inputs = wr (BitVec.ofNat 20 (0x80000 + 4 * 131071)) 5 :: [] :=
  ⟨rfl, inp_writeIn_same 131071 5 fresh, rfl, rfl, rfl⟩

/-! ### Capture, and the invariants -/

theorem witness_ConverterMapsCodes : 8 ≤ 8 ∧ 8 ≤ 16 ∧ 16 ≤ 16 := by decide

theorem witness_CaptureStoresTheSample :
    (given [.capture 5] fresh).inputs = .capture 5 :: [] ∧ fresh.ctrl.en = false ∧
      (given [.capture 5] started).inputs = .capture 5 :: [] ∧ started.ctrl.en = true ∧ 2 ≤ started.nd ∧
      2 * started.nd ≤ 131072 ∧ started.cursor.toNat = 0 ∧ started.slot false = .empty ∧
      { started with slot0 := .filling, cursor := 31 }.cursor.toNat = 31 ∧
      { ready with slot1 := .filling, cursor := 63 }.cursor.toNat < 2 * ready.nd ∧
      { ready with slot1 := .ready, cursor := 0 }.slot false ≠ .empty :=
  ⟨rfl, rfl, rfl, rfl, by decide, by decide, by decide, rfl, by decide, by decide, by decide⟩

theorem witness_ClaimedFrameIsUndisturbed :
    ControlOk (given [.capture 5] runningRun) ∧ HandoffOk (given [.capture 5] runningRun) ∧
      (given [.capture 5] runningRun).inputs = .capture 5 :: [] ∧
      (next (step (given [.capture 5] runningRun))).faults = [] ∧
      (given [.capture 5] runningRun).slot false = .claimed ∧
      step (given [.capture 5] runningRun) = .next (next (step (given [.capture 5] runningRun))) ∧
      runningRun.inputs = [] ∧ ControlOk runningRun ∧ HandoffOk runningRun ∧ ∃ t, step runningRun = .next t := by
  refine ⟨by constructor <;> decide, ?_, rfl, by decide, by decide, rfl, by decide, runningRun_control,
    runningRun_handoff, ?_⟩
  · constructor
    · decide
    · decide
    · decide
    · intro _
      exact .inr (.inl ⟨by decide, .inr (by decide), .inl (by decide)⟩)
  · exact ⟨_, by rw [step_nil (by decide), show engineTurn runningRun = exec .run runningRun from rfl,
      exec_eq_runCommand, runCommand_exec (by decide)]⟩

theorem witness_StepKeepsControl :
    ControlOk (given [.capture 5] runningRun) ∧
      step (given [.capture 5] runningRun) = .next (next (step (given [.capture 5] runningRun))) :=
  ⟨by constructor <;> decide, rfl⟩

theorem witness_StepKeepsFramesWritten :
    ControlOk ready ∧ FramesWritten ready ∧ step ready = .next ready ∧
      ControlOk runningRun ∧ FramesWritten runningRun ∧ ∃ t, step runningRun = .next t :=
  ⟨ready_control, ready_frames, rfl, runningRun_control, runningRun_frames,
    _, by rw [step_nil (by decide), show engineTurn runningRun = exec .run runningRun from rfl,
      exec_eq_runCommand, runCommand_exec (by decide)]⟩

theorem witness_StepKeepsHandoff :
    ControlOk ready ∧ HandoffOk ready ∧ step ready = .next ready ∧ FaultFree ready ∧
      FaultFree (next (step (given [.capture 5] runningRun))) :=
  ⟨ready_control, ready_handoff, rfl, rfl, rfl⟩

theorem witness_StepKeepsMemoryForm :
    MemoryOk (given [wr 0x4000 5] (writeDec 1 7 fresh)) ∧
      step (given [wr 0x4000 5] (writeDec 1 7 fresh)) = .next (next (step (given [wr 0x4000 5] (writeDec 1 7 fresh)))) :=
  ⟨by unfold MemoryOk; decide, rfl⟩

theorem witness_StepKeepsResults :
    RomOk runningRun ∧ ResultOk runningRun ∧ ∃ t, step runningRun = .next t :=
  ⟨⟨by decide, by decide⟩, by constructor <;> decide,
    _, by rw [step_nil (by decide), show engineTurn runningRun = exec .run runningRun from rfl,
      exec_eq_runCommand, runCommand_exec (by decide)]⟩

theorem witness_FaultRecordIsSticky :
    (∀ rest, (given [] { fresh with faults := [.overrun] }).inputs ≠ .powerOn :: rest) ∧
      step { fresh with faults := [.overrun] } = .next { fresh with faults := [.overrun] } ∧
      Fault.overrun ∈ { fresh with faults := [.overrun] }.faults ∧
      (∀ rest, (given [wr 0x004 0x80000000] { fresh with faults := [.overrun] }).inputs ≠ .powerOn :: rest) :=
  ⟨fun _ h => (by cases h), rfl, by decide, fun _ h => (by cases h)⟩

end Sys2Proof.Tests
end

section
/-! The bus: what an access of the wrong width or alignment does (20_memory.md R72, R73). -/

namespace Sys2Proof.Machine

/-- R72 read from its other side: which accesses the block does not take. -/
theorem accessOk_eq_false_iff {addr : Offset} {width : Nat} :
    accessOk addr width = false ↔ width ≠ 32 ∨ addr.toNat % 4 ≠ 0 := by
  simp [accessOk, imp_iff_not_or]

theorem step_hostRead_bad {s : State} {addr : Offset} {width : Nat} {rest : List Input}
    (hbad : accessOk addr width = false) (hin : s.inputs = .hostRead addr width :: rest) :
    step s = .next { s with inputs := rest, resp := .busError addr } := by
  rw [step_cons hin, runInput, hostRead_bad hbad]

theorem step_hostWrite_bad {s : State} {addr : Offset} {width : Nat} {v : Word} {rest : List Input}
    (hbad : accessOk addr width = false) (hin : s.inputs = .hostWrite addr width v :: rest) :
    step s = .next { s with inputs := rest, resp := .busError addr } := by
  rw [step_cons hin, runInput, hostWrite_bad hbad]

/-- Settles O42: R72 fails for the access, so a read and a write alike end with the bus error of R73. -/
theorem badAccessIsABusError : Obligations.BadAccessIsABusError := by
  unfold Obligations.BadAccessIsABusError
  intro s addr width v rest hshape hin
  have hbad : accessOk addr width = false := accessOk_eq_false_iff.mpr hshape
  rcases hin with hread | hwrite
  · exact step_hostRead_bad hbad hread
  · exact step_hostWrite_bad hbad hwrite

end Sys2Proof.Machine
end

section
/-! The encoding: decode and encode are inverse on words (30_encoding.md R100 to R103), and what an illegal `CMD` word
does (R102, R121). -/

namespace Sys2Proof

/-- The per-command facts of `Laws.EncodedAsOpcode`, for every command. -/
theorem encodedAsOpcode (i : Instr) : Laws.EncodedAsOpcode.Statement i := by
  cases i with
  | nop => exact Laws.EncodedAsOpcode.nop
  | run => exact Laws.EncodedAsOpcode.run
  | filt => exact Laws.EncodedAsOpcode.filt
  | xform => exact Laws.EncodedAsOpcode.xform
  | hps => exact Laws.EncodedAsOpcode.hps
  | peak => exact Laws.EncodedAsOpcode.peak
  | firclr => exact Laws.EncodedAsOpcode.firclr
  | b2f => exact Laws.EncodedAsOpcode.b2f
  | f2b => exact Laws.EncodedAsOpcode.f2b
  | note => exact Laws.EncodedAsOpcode.note
  | cents => exact Laws.EncodedAsOpcode.cents

/-- R100: a word is its two fields, one above the other. -/
theorem rsvdField_append_opcodeField (w : Word) : rsvdField w ++ opcodeField w = w :=
  BitVec.extractLsb'_append_extractLsb'_eq_extractLsb' (by rfl) |>.trans BitVec.extractLsb'_eq_self

/-- R101: the opcode map read from left to right and from right to left. -/
theorem decodeOpcode_eq_some_iff {op : Byte} {i : Instr} : decodeOpcode op = some i ↔ op = opcode i := by
  constructor
  · intro h
    unfold decodeOpcode at h
    split at h <;> cases h <;> exact BitVec.eq_of_toNat_eq ‹_›
  · rintro rfl
    cases i <;> rfl

/-- R103: both fields of the word decide, `RSVD` by being 0 and `OPCODE` by the map. -/
theorem decode_eq_ok_iff_fields {w : Word} {i : Instr} :
    decode w = .ok i ↔ rsvdField w = 0 ∧ decodeOpcode (opcodeField w) = some i := by
  unfold decode
  split
  case isTrue hr => cases decodeOpcode (opcodeField w) <;> simp [hr]
  case isFalse hr => exact iff_of_false nofun fun ⟨hrsvd, _⟩ => hr hrsvd

theorem eq_encode_iff_fields {w : Word} {i : Instr} :
    w = encode i ↔ rsvdField w = 0 ∧ opcodeField w = opcode i := by
  constructor
  · rintro rfl
    obtain ⟨-, hrsvd, hop, -⟩ := encodedAsOpcode i
    exact ⟨hrsvd, hop⟩
  · rintro ⟨hrsvd, hop⟩
    rw [← rsvdField_append_opcodeField w, hrsvd, hop]
    rfl

/-- R103: the match of a command is its whole word. -/
theorem decode_eq_ok_iff {w : Word} {i : Instr} : decode w = .ok i ↔ w = encode i := by
  rw [decode_eq_ok_iff_fields, decodeOpcode_eq_some_iff, eq_encode_iff_fields]

/-- Settles O1: each opcode value is the `encode` of its command. -/
theorem decodeIsTheOpcodeMap : Obligations.DecodeIsTheOpcodeMap := by
  unfold Obligations.DecodeIsTheOpcodeMap
  intro w
  and_intros <;> exact decode_eq_ok_iff

/-- R102: `0x0A` is the last opcode. -/
theorem encode_toNat_lt (i : Instr) : (encode i).toNat < 0x0B := by
  cases i <;> decide

/-- R102: a word with a reserved bit or a reserved opcode is no command. -/
theorem decode_ne_ok_of_illegal {w : Word} (h : w.toNat / 256 ≠ 0 ∨ 0x0B ≤ w.toNat % 256) (i : Instr) :
    decode w ≠ .ok i := by
  intro hd
  have hlt : w.toNat < 0x0B := decode_eq_ok_iff.mp hd ▸ encode_toNat_lt i
  omega

namespace Machine

/-- R121: a 32-bit write to `CMD` is acknowledged and offers its word. -/
theorem step_cmdWrite {s : State} {w : Word} {rest : List Input} (hin : s.inputs = .hostWrite 0x018 32 w :: rest) :
    step s = offer w { s with inputs := rest, resp := .ack } := by
  rw [step_cons hin, runInput, hostWrite_good (by decide), if_pos (by rfl)]

/-- R121 checks 1 and 2, for a word that is no command. -/
theorem offer_of_not_command {w : Word} (hw : ∀ i, decode w ≠ .ok i) (s : State) :
    offer w s = .next (raiseError (if s.eng = .idle then .badcmd else .busy) s) := by
  rcases offer_cases w s with ⟨hbusy, ho⟩ | ⟨hidle, -, ho⟩ | ⟨i, -, hd, -⟩
  · rw [ho, if_neg hbusy]
  · rw [ho, if_pos hidle]
  · exact absurd hd (hw i)

/-- Settles O4: the illegal word is offered and is no command, so the offer ends in one of its first two checks. -/
theorem illegalWordRaisesBadCmd : Obligations.IllegalWordRaisesBadCmd := by
  unfold Obligations.IllegalWordRaisesBadCmd
  intro s w rest hin hillegal
  rw [step_cmdWrite hin, offer_of_not_command (decode_ne_ok_of_illegal hillegal)]
  rfl

end Machine
end Sys2Proof
end

section
/-! Host writes to the registers: the operands (R136) and `STATUS` (R134), and the offer of a word to `CMD` (R121). -/

namespace Sys2Proof.Machine

/-! ## Register writes -/

/-- R76: a 32-bit write at the offset of a register other than `CMD` is acknowledged and writes that register. -/
theorem step_regWrite {s : State} {off : Offset} {v : Word} {rest : List Input} {r : Reg}
    (hin : s.inputs = .hostWrite off 32 v :: rest) (hok : accessOk off 32 = true)
    (hreg : targetOf off.toNat = .reg r) (hcmd : r ≠ .cmd) :
    step s = .next (writeReg r v { s with inputs := rest, resp := .ack }) := by
  have hne : Target.reg r ≠ .reg .cmd := fun h => hcmd (Target.reg.inj h)
  rw [step_cons hin, runInput, hostWrite_good hok, hreg, if_neg hne, writeTarget]

/-- R134: each of the three W1C bits decides its own flag. -/
theorem writeStatus_eq (v : Word) (s : State) : writeStatus v s =
    { s with
      done := if v.getLsbD 2 = true then false else s.done
      err := if v.getLsbD 3 = true then none else s.err
      frdy := if v.getLsbD 13 = true then false else s.frdy } := by
  have clears (flag bit : Bool) : (flag && !bit) = if bit = true then false else flag := by
    cases bit <;> simp
  cases herr : v.getLsbD 3 <;> simp only [writeStatus, herr, clears] <;> rfl

/-- Settles O37: `STATUS` is a register other than `CMD`, and `writeStatus_eq` gives its write. -/
theorem statusWriteClearsFlags : Obligations.StatusWriteClearsFlags := by
  unfold Obligations.StatusWriteClearsFlags
  intro s v rest hin
  rw [step_regWrite hin (r := .status) (by decide) rfl nofun, writeReg, writeStatus_eq]

/-! ## Limbs of a 128-bit quantity (R71) -/

/-- The mask of limb `l` is 1 on the 32 bits of that limb. -/
theorem getLsbD_limbMask (l i : Nat) :
    ((0xFFFFFFFF#128) <<< (32 * l)).getLsbD i = decide (i < 128 ∧ 32 * l ≤ i ∧ i < 32 * l + 32) := by
  have hones : (0xFFFFFFFF#128) = (BitVec.allOnes 32).setWidth 128 := by decide
  rw [hones, Bool.eq_iff_iff]
  simp only [BitVec.getLsbD_shiftLeft, BitVec.getLsbD_setWidth, BitVec.getLsbD_allOnes, Bool.and_eq_true,
    Bool.not_eq_true', decide_eq_true_eq, decide_eq_false_iff_not]
  omega

/-- The bits of a replaced limb are those of the new word, and the others stay. -/
theorem getLsbD_setLimb (x : SpecWord) (l : Nat) (v : Word) {i : Nat} (hi : i < 128) :
    (setLimb x l v).getLsbD i =
      if 32 * l ≤ i ∧ i < 32 * l + 32 then v.getLsbD (i - 32 * l) else x.getLsbD i := by
  rw [setLimb, BitVec.getLsbD_or, BitVec.getLsbD_and, BitVec.getLsbD_not, getLsbD_limbMask,
    BitVec.getLsbD_shiftLeft, BitVec.getLsbD_setWidth]
  split
  case isTrue hin => simp [hi, hin, show i - 32 * l < 128 by omega]
  case isFalse hout =>
    have hzero : i < 32 * l ∨ v.getLsbD (i - 32 * l) = false := by
      by_cases hlt : i < 32 * l
      · exact .inl hlt
      · exact .inr (BitVec.getLsbD_of_ge v _ (by omega))
    rcases hzero with h | h <;> simp [hi, hout, h]

/-- Replacing limb `l` of four gives the new word at `l` and keeps every other limb. -/
theorem limb_setLimb (x : SpecWord) (v : Word) {l m : Nat} (hm : m < 4) :
    limb (setLimb x l v) m = if m = l then v else limb x m := by
  apply BitVec.eq_of_getLsbD_eq
  intro i hi
  rw [limb, BitVec.getLsbD_extractLsb', getLsbD_setLimb x l v (by omega)]
  by_cases hml : m = l
  · subst hml
    simp [hi]
  · rw [if_neg (by omega), if_neg hml, limb, BitVec.getLsbD_extractLsb']

/-- R22: the four limbs of `THRESH` stand at `0x024`, `0x028`, `0x02C` and `0x030`. -/
theorem accessOk_and_targetOf_thresh (l : Fin 4) :
    accessOk (BitVec.ofNat 20 (0x024 + 4 * l.val)) 32 = true ∧
      targetOf (BitVec.ofNat 20 (0x024 + 4 * l.val)).toNat = .reg (.thresh l) := by
  revert l
  decide

/-- Settles O41: each is a write to a register other than `CMD`, and `limb_setLimb` gives the limbs of `THRESH`. -/
theorem operandRegisterWrites : Obligations.OperandRegisterWrites := by
  unfold Obligations.OperandRegisterWrites
  intro s v rest
  refine ⟨fun hin => ?arg0, fun hin => ?arg1, fun l hl hin => ?thresh⟩
  case arg0 => rw [step_regWrite hin (r := .arg0) (by decide) rfl nofun, writeReg]
  case arg1 => rw [step_regWrite hin (r := .arg1) (by decide) rfl nofun, writeReg]
  case thresh =>
    obtain ⟨hok, hreg⟩ := accessOk_and_targetOf_thresh ⟨l, hl⟩
    refine ⟨setLimb s.thresh l v, ?_, fun m hm => limb_setLimb s.thresh v hm⟩
    rw [step_regWrite hin hok hreg nofun, writeReg]

/-! ## The offer of a command (R121) -/

/-- R101, the "Needs EN" column. -/
theorem needsEN_iff {i : Instr} : needsEN i = true ↔ i ∈ [Instr.run, .filt, .xform, .hps, .peak, .b2f, .f2b] := by
  cases i <;> decide

/-- R101, the "Claims a slot" column. -/
theorem claimsSlot_iff {i : Instr} : claimsSlot i = true ↔ i = .run ∨ i = .filt := by
  cases i <;> decide

/-- R100: the low byte of a command's word is its opcode, which `CURCMD` shows. -/
theorem setWidth_of_decode {w : Word} {i : Instr} (hd : decode w = .ok i) : w.setWidth 8 = opcode i := by
  rw [decode_eq_ok_iff.mp hd]
  cases i <;> rfl

/-- R121: a command offered to the idle engine goes on to checks 3 and 4. -/
theorem exec_of_idle {i : Instr} {s : State} (hidle : s.eng = .idle) : exec i s = .next (offerDecoded i s) :=
  (exec_eq_runCommand i s).trans (runCommand_idle hidle)

/-- R121 checks 3 and 4 and the acceptance, with the columns of R101 read as the commands they name. -/
theorem offerDecoded_eq (i : Instr) (s : State) : offerDecoded i s =
    if i ∈ [Instr.run, .filt, .xform, .hps, .peak, .b2f, .f2b] ∧ s.ctrl.en = false then raiseError .noten s
    else if i = .cents ∧ (s.arg0 = 0 ∨ s.arg1 = 0) then raiseError .arg s
    else { s with
      latched := latch i s, curcmd := opcode i, done := false, eng := if i = .run ∨ i = .filt then .wait else .exec } := by
  simp only [offerDecoded, accept, ← needsEN_iff, ← claimsSlot_iff, Bool.and_eq_true, Bool.or_eq_true,
    Bool.not_eq_true', beq_iff_eq]

/-- Settles O8: the write offers its word, and each of the three ends of an offer is one branch of the statement. -/
theorem commandChecksRunInOrder : Obligations.CommandChecksRunInOrder := by
  unfold Obligations.CommandChecksRunInOrder
  intro s w rest hin
  extract_lets u
  have hstep : step s = offer w u := step_cmdWrite hin
  rw [hstep]
  rcases offer_cases w u with ⟨hbusy, ho⟩ | ⟨hidle, ⟨e, hd⟩, ho⟩ | ⟨i, hidle, hd, ho⟩
  · rw [ho, if_pos hbusy]
    rfl
  · rw [ho, if_neg (not_not_intro hidle), hd]
    rfl
  · rw [ho, exec_of_idle hidle, offerDecoded_eq, if_neg (not_not_intro hidle), hd, setWidth_of_decode hd]
    rfl

end Sys2Proof.Machine
end

section
/-! The spectrum's bin 0 (42_transform.md R173): `XFORM` writes it as 0, and no later stage of `RUN` (R240) changes it. -/

namespace Sys2Proof.Machine

/-- R123, R124: a step of an executing command runs its body and completes. -/
theorem exec_of_executing {i : Instr} {s : State} (hexec : s.eng = .exec) :
    exec i s = .next (complete (bodyOf i s)) :=
  (exec_eq_runCommand i s).trans (runCommand_exec hexec)

/-! ## What leaves the spectrum as it is -/

/-- `SPEC` lies in the memory: states that agree there agree on every bin. -/
theorem spec_congr {s t : State} (hmem : t.mem = s.mem) (k : Nat) : t.spec k = s.spec k := by
  rw [State.spec, State.spec, hmem]

theorem SameButDraws.spec_eq {s t : State} (h : SameButDraws s t) (k : Nat) : t.spec k = s.spec k := by
  obtain ⟨fs, c, rfl⟩ := h
  rfl

/-- R192: peak selection only reads the spectrum. -/
theorem spec_bodyPeak (s : State) (k : Nat) : (bodyPeak s).spec k = s.spec k := by
  obtain ⟨fs, c, pb, pm, f, r, ce, h⟩ := bodyPeak_state s
  exact spec_congr (by rw [h]) k

/-! ## What HPS leaves of the spectrum (R181) -/

/-- Multiplying in harmonics only reads the spectrum. -/
theorem foldl_hpsHarmonic_state (i : Nat) (ks : List Nat) (p : SpecWord × State) :
    SameButDraws p.2 (ks.foldl (hpsHarmonic i) p).2 := by
  induction ks generalizing p with
  | nil => exact .refl p.2
  | cons k ks ih => exact (hpsHarmonic_state i p k).trans (ih (hpsHarmonic i p k))

/-- A candidate writes its own bin only. -/
theorem spec_hpsCandidate_ne {i k : Nat} (hk : k ≠ i) (s : State) : (hpsCandidate s i).spec k = s.spec k := by
  rw [hpsCandidate_eq, spec_writeSpec_ne hk]
  exact ((readOr_state (s.spec i) s).trans (foldl_hpsHarmonic_state i _ _)).spec_eq k

theorem spec_foldl_hpsCandidate {is : List Nat} {k : Nat} (hk : k ∉ is) (s : State) :
    (is.foldl hpsCandidate s).spec k = s.spec k := by
  induction is generalizing s with
  | nil => rfl
  | cons i is ih =>
    obtain ⟨hki, hkis⟩ := not_or.mp (mt List.mem_cons.mpr hk)
    rw [List.foldl_cons, ih hkis, spec_hpsCandidate_ne hki]

/-- The bins below `HPSLO` are no candidates. -/
theorem spec_bodyHps_of_lt {s : State} {k : Nat} (hk : k < s.cfg.hpslo) : (bodyHps s).spec k = s.spec k :=
  spec_foldl_hpsCandidate (fun hmem => absurd (List.left_le_of_mem_range' hmem) (by omega)) s

/-! ## What XFORM writes (R171) -/

/-- R171: whatever is read from `DEC`, `SPEC[0 … B−1]` are the magnitudes of the frame read. -/
theorem spec_bodyXform {s : State} {k : Nat} (hk : k < s.cfg.b) : (bodyXform s).spec k =
    some (if k = 0 then 0 else (Config.mag s.cfg.n (readDec s).1 k).setWidth 128) := by
  show (writeSpecs 0 (magnitudes s.cfg.n s.cfg.b (readDec s).1) (readDec s).2).spec k = _
  rw [spec_writeSpecs, if_pos (by simpa [magnitudes] using hk)]
  simp [magnitudes, hk]

/-- R173: `SPEC[0]` is 0. -/
theorem spec_zero_bodyXform {s : State} (hb : 1 ≤ s.cfg.b) : (bodyXform s).spec 0 = some 0 :=
  spec_bodyXform hb

/-- R173 for `RUN`: `PEAK` and `HPS` keep the 0 that `XFORM` writes, `HPS` because its scan begins above bin 0. -/
theorem spec_zero_bodyRun {s : State} (hb : 1 ≤ s.cfg.b) (hlo : 1 ≤ s.cfg.hpslo) :
    (bodyRun s).spec 0 = some 0 := by
  have hfilt : (bodyFilt s).cfg = s.cfg := bodyFilt_cfg s
  have hxform : (bodyXform (bodyFilt s)).cfg = s.cfg := (bodyXform_cfg (bodyFilt s)).trans hfilt
  calc (bodyRun s).spec 0
      = (bodyHps (bodyXform (bodyFilt s))).spec 0 := spec_bodyPeak _ 0
    _ = (bodyXform (bodyFilt s)).spec 0 := spec_bodyHps_of_lt (by rw [hxform]; exact hlo)
    _ = some 0 := spec_zero_bodyXform (by rw [hfilt]; exact hb)

/-- Settles O17: each command completes on what its body leaves, and completion does not touch the memory. -/
theorem specZeroAfterXformAndRun : Obligations.SpecZeroAfterXformAndRun := by
  unfold Obligations.SpecZeroAfterXformAndRun
  intro s hexec hb _
  refine ⟨⟨_, exec_of_executing hexec, ?xform⟩, fun hlo => ⟨_, exec_of_executing hexec, ?run⟩⟩
  case xform => exact (spec_congr (complete_mem _) 0).trans (spec_zero_bodyXform hb)
  case run => exact (spec_congr (complete_mem _) 0).trans (spec_zero_bodyRun hb hlo)

end Sys2Proof.Machine
end

section
/-! The closed form of `HPS` (43_hps.md R182), and what `PEAK` finds in the spectrum it leaves (R184). -/

namespace Sys2Proof.Machine

/-! ## The product of a candidate -/

/-- R181: what harmonic `k` contributes to the product of bin `i`, nothing if it is out of range. -/
def hpsFactor (b : Nat) (S : Nat → SpecWord) (i k : Nat) : Nat := if k * i < b then (S (k * i)).toNat else 1

/-- R182: the word of bin `i` times those of its harmonics in range, before the reduction modulo `2^128`. -/
def hpsProduct (b : Nat) (S : Nat → SpecWord) (i : Nat) : Nat :=
  (S i).toNat * ∏ k ∈ ({2, 3, 4} : Finset Nat).filter (fun k => k * i < b), (S (k * i)).toNat

theorem hpsProduct_eq_factors (b : Nat) (S : Nat → SpecWord) (i : Nat) :
    hpsProduct b S i = (S i).toNat * hpsFactor b S i 2 * hpsFactor b S i 3 * hpsFactor b S i 4 := by
  simp [hpsProduct, hpsFactor, Finset.prod_filter, mul_assoc]

/-- R181: a harmonic whose bin, if in range, is written multiplies in its factor, modulo `2^128`. -/
theorem hpsHarmonic_of_written {s : State} {S : Nat → SpecWord} {i k : Nat}
    (hspec : k * i < s.cfg.b → s.spec (k * i) = some (S (k * i))) (v : SpecWord) :
    hpsHarmonic i (v, s) k = (v * BitVec.ofNat 128 (hpsFactor s.cfg.b S i k), s) := by
  unfold hpsFactor
  split
  case isTrue hk => rw [hpsHarmonic_in hk, hspec hk, readOr_some, BitVec.ofNat_toNat, BitVec.setWidth_eq]
  case isFalse hk => rw [hpsHarmonic_out hk, BitVec.mul_one]

/-- R181: a candidate reads bins from its own on only, so it writes its product if those are written. -/
theorem hpsCandidate_of_written {s : State} {S : Nat → SpecWord} {i : Nat} (hi : i < s.cfg.b)
    (hspec : ∀ x, i ≤ x → x < s.cfg.b → s.spec x = some (S x)) :
    hpsCandidate s i = writeSpec i (BitVec.ofNat 128 (hpsProduct s.cfg.b S i)) s := by
  have harmonic (k : Nat) (hk : 1 ≤ k) (v : SpecWord) :
      hpsHarmonic i (v, s) k = (v * BitVec.ofNat 128 (hpsFactor s.cfg.b S i k), s) :=
    hpsHarmonic_of_written (hspec (k * i) (Nat.le_mul_of_pos_left i hk)) v
  rw [hpsCandidate_chain, hspec i le_rfl hi, readOr_some, harmonic 2 (by decide), harmonic 3 (by decide),
    harmonic 4 (by decide), hpsProduct_eq_factors]
  simp only [BitVec.ofNat_mul, BitVec.ofNat_toNat, BitVec.setWidth_eq]

/-! ## The scan -/

/-- R182: candidate `i` writes bin `i`, and the later ones read only bins above it, so the scan writes the products of
the words it found. -/
theorem foldl_hpsCandidate_eq_writeSpecs {s : State} {S : Nat → SpecWord} {i n : Nat}
    (hb : ∀ j ∈ List.range' i n, j < s.cfg.b) (hspec : ∀ x, i ≤ x → x < s.cfg.b → s.spec x = some (S x)) :
    (List.range' i n).foldl hpsCandidate s =
      writeSpecs i ((List.range' i n).map fun j => BitVec.ofNat 128 (hpsProduct s.cfg.b S j)) s := by
  induction n generalizing i s with
  | zero => rfl
  | succ n ih =>
    rw [List.range'_succ] at hb ⊢
    rw [List.foldl_cons, hpsCandidate_of_written (hb i List.mem_cons_self) hspec, List.map_cons, writeSpecs]
    exact ih (fun j hj => hb j (List.mem_cons_of_mem i hj)) fun x hx hxb => by
      rw [spec_writeSpec_ne (by omega), hspec x (by omega) hxb]

/-- R181: the candidates are the bins from `HPSLO` on whose second harmonic is in range. -/
theorem mem_hpsScan {lo b i : Nat} : i ∈ hpsScan lo b ↔ lo ≤ i ∧ 2 * i < b := by
  rw [hpsScan, List.mem_range'_1]
  omega

theorem bodyHps_eq_writeSpecs {s : State} {S : Nat → SpecWord} (hspec : ∀ x, x < s.cfg.b → s.spec x = some (S x)) :
    bodyHps s = writeSpecs s.cfg.hpslo
      ((hpsScan s.cfg.hpslo s.cfg.b).map fun i => BitVec.ofNat 128 (hpsProduct s.cfg.b S i)) s :=
  foldl_hpsCandidate_eq_writeSpecs (fun i hi => by have := mem_hpsScan.mp hi; omega) fun x _ => hspec x

/-! ## What the scan leaves -/

/-- R182: the word of bin `x` after the scan of a spectrum `S`. -/
def hpsWord (lo b : Nat) (S : Nat → SpecWord) (x : Nat) : SpecWord :=
  if lo ≤ x ∧ 2 * x < b then BitVec.ofNat 128 (hpsProduct b S x) else S x

theorem spec_bodyHps {s : State} {S : Nat → SpecWord} (hspec : ∀ x, x < s.cfg.b → s.spec x = some (S x)) {x : Nat}
    (hx : x < s.cfg.b) : (bodyHps s).spec x = some (hpsWord s.cfg.hpslo s.cfg.b S x) := by
  have hscan : (s.cfg.hpslo ≤ x ∧ x < s.cfg.hpslo + ((s.cfg.b + 1) / 2 - s.cfg.hpslo)) ↔
      s.cfg.hpslo ≤ x ∧ 2 * x < s.cfg.b := by omega
  rw [bodyHps_eq_writeSpecs hspec, spec_writeSpecs, hpsWord, hpsScan, List.length_map, List.length_range']
  simp only [hscan]
  split
  case isTrue hcand =>
    rw [List.getElem?_map, List.getElem?_range' (by omega), Option.map_some]
    congr 3
    omega
  case isFalse => exact hspec x hx

/-- R182: bytes of no candidate's entry stay. -/
theorem byte_bodyHps {s : State} {S : Nat → SpecWord} (hspec : ∀ x, x < s.cfg.b → s.spec x = some (S x)) {a : Nat}
    (ha : ∀ i, s.cfg.hpslo ≤ i → 2 * i < s.cfg.b → a < 0x8000 + 16 * i ∨ 0x8000 + 16 * i + 16 ≤ a) :
    (bodyHps s).mem.byte a = s.mem.byte a := by
  rw [bodyHps_eq_writeSpecs hspec]
  apply byte_writeSpecs_of_outside
  rw [List.length_map, hpsScan, List.length_range']
  have hentry := ha ((a - 0x8000) / 16)
  unfold specAddr
  omega

/-- Settles O18: the scan is one run of `SPEC` writes, and `hpsWord` is what it leaves in each bin. -/
theorem hpsClosedForm : Obligations.HpsClosedForm := by
  unfold Obligations.HpsClosedForm
  intro s S hexec hspec
  have hword (x : Nat) (hx : x < s.cfg.b) :
      (complete (bodyHps s)).spec x = some (hpsWord s.cfg.hpslo s.cfg.b S x) := spec_bodyHps hspec hx
  refine ⟨_, exec_of_executing hexec, fun i hlo hi => ⟨_, hword i (by omega), ?product⟩, fun x hx hout => ?others,
    fun a ha => byte_bodyHps hspec ha, ?frame⟩
  case product => rw [hpsWord, if_pos ⟨hlo, hi⟩, BitVec.toNat_ofNat, hpsProduct]
  case others => exact (hword x hx).trans (by rw [hpsWord, if_neg hout])
  case frame =>
    obtain ⟨m, hm⟩ := writeSpecs_state
      ((hpsScan s.cfg.hpslo s.cfg.b).map fun i => BitVec.ofNat 128 (hpsProduct s.cfg.b S i)) s.cfg.hpslo s
    rw [bodyOf, bodyHps_eq_writeSpecs hspec, hm]
    rfl

/-! ## Peak selection (R190) -/

/-- Bin `pk` is the first of the bins below `n` to hold the greatest word. -/
structure FirstMax (T : Nat → SpecWord) (n pk : Nat) : Prop where
  lt : pk < n
  greatest : ∀ x, x < n → (T x).toNat ≤ (T pk).toNat
  first : ∀ x, x < pk → (T x).toNat < (T pk).toNat

theorem FirstMax.unique {T : Nat → SpecWord} {n p q : Nat} (hp : FirstMax T n p) (hq : FirstMax T n q) : p = q := by
  rcases Nat.lt_trichotomy p q with hlt | heq | hgt
  · exact absurd (hp.greatest q hq.lt) (Nat.not_le.mpr (hq.first p hlt))
  · exact heq
  · exact absurd (hq.greatest p hp.lt) (Nat.not_le.mpr (hp.first q hgt))

/-- One more bin: only a greater word replaces the first maximum. -/
theorem FirstMax.succ {T : Nat → SpecWord} {n pk : Nat} (h : FirstMax T n pk) :
    FirstMax T (n + 1) (if (T pk).toNat < (T n).toNat then n else pk) := by
  split
  case isTrue hlt =>
    have below (x : Nat) (hx : x < n) : (T x).toNat < (T n).toNat := (h.greatest x hx).trans_lt hlt
    refine ⟨n.lt_succ_self, fun x hx => ?_, below⟩
    rcases Nat.lt_succ_iff_lt_or_eq.mp hx with hx | rfl
    · exact (below x hx).le
    · exact le_rfl
  case isFalse hle =>
    refine ⟨h.lt.trans n.lt_succ_self, fun x hx => ?_, h.first⟩
    rcases Nat.lt_succ_iff_lt_or_eq.mp hx with hx | rfl
    · exact h.greatest x hx
    · exact Nat.not_lt.mp hle

/-- R190: the scan from bin `k` on, begun with the first maximum of the bins below `k`, ends with that of all. -/
theorem peakFrom_firstMax {T : Nat → SpecWord} {k pk : Nat} (h : FirstMax T k pk) (n : Nat) :
    ∃ q, FirstMax T (k + n) q ∧ peakFrom ((List.range' k n).map T) k (pk, T pk) = (q, T q) := by
  induction n generalizing k pk with
  | zero => exact ⟨pk, h, rfl⟩
  | succ n ih =>
    obtain ⟨q, hq, hscan⟩ := ih h.succ
    refine ⟨q, by rwa [show k + (n + 1) = k + 1 + n by omega], ?_⟩
    rw [List.range'_succ, List.map_cons, peakFrom, ← hscan]
    split <;> rfl

/-- R190: peak selection takes the first maximum. -/
theorem peakOf_firstMax {T : Nat → SpecWord} {n : Nat} (hn : 1 ≤ n) :
    ∃ q, FirstMax T n q ∧ peakOf ((List.range n).map T) = (q, T q) := by
  obtain ⟨m, rfl⟩ := Nat.exists_eq_add_of_le hn
  have hzero : FirstMax T 1 0 := ⟨Nat.one_pos, fun x hx => by rw [Nat.lt_one_iff.mp hx], nofun⟩
  rw [List.range_eq_range', Nat.add_comm, List.range'_succ, List.map_cons, Nat.add_comm]
  exact peakFrom_firstMax hzero m

theorem FirstMax.peakOf_eq {T : Nat → SpecWord} {n pk : Nat} (h : FirstMax T n pk) :
    peakOf ((List.range n).map T) = (pk, T pk) := by
  obtain ⟨q, hq, hpeak⟩ := peakOf_firstMax (T := T) (Nat.one_le_of_lt h.lt)
  rw [hpeak, hq.unique h]

/-- R192: `SPEC[0 … B−1]`, all written, are read as they are, and nothing changes. -/
theorem readSpec_of_written {s : State} {T : Nat → SpecWord} (hspec : ∀ x, x < s.cfg.b → s.spec x = some (T x)) :
    readSpec s = ((List.range s.cfg.b).map T, s) :=
  readAll_written (fun x hx => hspec x (List.mem_range.mp hx)) s

theorem peakOf_readSpec {s : State} {T : Nat → SpecWord} {pk : Nat} (hspec : ∀ x, x < s.cfg.b → s.spec x = some (T x))
    (hmax : FirstMax T s.cfg.b pk) : peakOf (readSpec s).1 = (pk, T pk) := by
  rw [readSpec_of_written hspec, hmax.peakOf_eq]

/-! ## A spectrum with energy at one bin and its harmonics only (R184) -/

/-- R184: `S` is a spectrum of magnitudes that are non-zero exactly at bins `i`, `2i`, `3i` and `4i`, all in range and
`i` a candidate. -/
structure Harmonics (lo b : Nat) (S : Nat → SpecWord) (i : Nat) : Prop where
  pos : 1 ≤ i
  candidate : lo ≤ i
  range : 4 * i < b
  small : ∀ x, x < b → (S x).toNat < 2 ^ 32
  energy : ∀ x, x < b → (S x ≠ 0 ↔ x = i ∨ x = 2 * i ∨ x = 3 * i ∨ x = 4 * i)

/-- The product of the four words (R184). -/
def product4 (S : Nat → SpecWord) (i : Nat) : Nat :=
  (S i).toNat * (S (2 * i)).toNat * (S (3 * i)).toNat * (S (4 * i)).toNat

section
variable {lo b : Nat} {S : Nat → SpecWord} {i : Nat}

theorem Harmonics.word_pos (h : Harmonics lo b S i) {k : Nat} (hk : k = 1 ∨ k = 2 ∨ k = 3 ∨ k = 4) :
    0 < (S (k * i)).toNat := by
  have hrange := h.range
  have hne : S (k * i) ≠ 0 := (h.energy (k * i) (by rcases hk with rfl | rfl | rfl | rfl <;> omega)).mpr (by
    rcases hk with rfl | rfl | rfl | rfl <;> omega)
  exact Nat.pos_of_ne_zero fun hzero => hne (BitVec.eq_of_toNat_eq hzero)

theorem Harmonics.product4_pos (h : Harmonics lo b S i) : 0 < product4 S i := by
  have h1 := h.word_pos (k := 1) (by decide)
  have h2 := h.word_pos (k := 2) (by decide)
  have h3 := h.word_pos (k := 3) (by decide)
  have h4 := h.word_pos (k := 4) (by decide)
  rw [Nat.one_mul] at h1
  exact Nat.mul_pos (Nat.mul_pos (Nat.mul_pos h1 h2) h3) h4

/-- R183: four words below `2^32` have a product below `2^128`. -/
theorem Harmonics.product4_lt (h : Harmonics lo b S i) : product4 S i < 2 ^ 128 := by
  have hrange := h.range
  calc product4 S i < 2 ^ 32 * 2 ^ 32 * 2 ^ 32 * 2 ^ 32 := by
        unfold product4
        gcongr <;> exact h.small _ (by omega)
    _ = 2 ^ 128 := by norm_num

theorem Harmonics.hpsProduct_fundamental (h : Harmonics lo b S i) : hpsProduct b S i = product4 S i := by
  have hrange := h.range
  rw [hpsProduct_eq_factors, hpsFactor, hpsFactor, hpsFactor, if_pos (by omega), if_pos (by omega), if_pos hrange,
    product4]

/-- R184: bin `i` holds the product of the four words. -/
theorem Harmonics.hpsWord_fundamental (h : Harmonics lo b S i) : (hpsWord lo b S i).toNat = product4 S i := by
  have hrange := h.range
  rw [hpsWord, if_pos ⟨h.candidate, by omega⟩, BitVec.toNat_ofNat, h.hpsProduct_fundamental,
    Nat.mod_eq_of_lt h.product4_lt]

/-- A product with a harmonic in range that has no energy is 0. -/
theorem Harmonics.hpsProduct_eq_zero (h : Harmonics lo b S i) {x k : Nat} (hk : k ∈ ({2, 3, 4} : Finset Nat))
    (hkx : k * x < b) (hout : 4 * i < k * x) : hpsProduct b S x = 0 := by
  have hempty : S (k * x) = 0 := by
    by_contra hne
    have := (h.energy (k * x) hkx).mp hne
    omega
  rw [hpsProduct, Finset.prod_eq_zero (Finset.mem_filter.mpr ⟨hk, hkx⟩) (by rw [hempty]; rfl), Nat.mul_zero]

/-- R182: a bin without energy holds 0 after the scan too. -/
theorem hpsWord_eq_zero {x : Nat} (hx : S x = 0) : hpsWord lo b S x = 0 := by
  unfold hpsWord
  split
  case isTrue => rw [hpsProduct, hx]; simp
  case isFalse => exact hx

/-- The product is not 0, so what divides it, such as a part of the four words, is at most it. -/
theorem Harmonics.le_product4_of_dvd (h : Harmonics lo b S i) {n : Nat} (hn : n ∣ product4 S i) : n ≤ product4 S i :=
  Nat.le_of_dvd h.product4_pos hn

theorem Harmonics.word_le (h : Harmonics lo b S i) {x : Nat} (hx : x = i ∨ x = 2 * i ∨ x = 3 * i ∨ x = 4 * i) :
    (S x).toNat ≤ product4 S i := by
  apply h.le_product4_of_dvd
  unfold product4
  rcases hx with rfl | rfl | rfl | rfl
  · exact ((Nat.dvd_mul_right _ _).mul_right _).mul_right _
  · exact ((Nat.dvd_mul_left _ _).mul_right _).mul_right _
  · exact (Nat.dvd_mul_left _ _).mul_right _
  · exact Nat.dvd_mul_left _ _

/-- R184: of the bins above `i` with energy, only `2i` can be a candidate with no harmonic that lacks it, and then its
one harmonic in range is `4i`. -/
theorem Harmonics.hpsProduct_le (h : Harmonics lo b S i) {x : Nat} (hcand : 2 * x < b)
    (hx : x = i ∨ x = 2 * i ∨ x = 3 * i ∨ x = 4 * i) : hpsProduct b S x ≤ product4 S i := by
  have hpos := h.pos
  have hrange := h.range
  rcases hx with rfl | rfl | rfl | rfl
  · exact h.hpsProduct_fundamental.le
  · by_cases h6 : 3 * (2 * i) < b
    · rw [h.hpsProduct_eq_zero (k := 3) (by decide) h6 (by omega)]
      exact Nat.zero_le _
    · have hpair : hpsProduct b S (2 * i) = (S (2 * i)).toNat * (S (4 * i)).toNat := by
        rw [hpsProduct_eq_factors, hpsFactor, hpsFactor, hpsFactor, if_pos hcand, if_neg h6, if_neg (by omega),
          Nat.mul_one, Nat.mul_one, ← Nat.mul_assoc]
      rw [hpair]
      exact h.le_product4_of_dvd (Nat.mul_dvd_mul_right ((Nat.dvd_mul_left _ _).mul_right _) _)
  · rw [h.hpsProduct_eq_zero (k := 2) (by decide) hcand (by omega)]
    exact Nat.zero_le _
  · rw [h.hpsProduct_eq_zero (k := 2) (by decide) hcand (by omega)]
    exact Nat.zero_le _

theorem Harmonics.hpsWord_le (h : Harmonics lo b S i) {x : Nat} (hx : x < b) :
    (hpsWord lo b S x).toNat ≤ product4 S i := by
  by_cases hempty : S x = 0
  · rw [hpsWord_eq_zero hempty]
    exact Nat.zero_le _
  · have hbin := (h.energy x hx).mp hempty
    unfold hpsWord
    split
    case isTrue hcand =>
      rw [BitVec.toNat_ofNat]
      exact (Nat.mod_le _ _).trans (h.hpsProduct_le hcand.2 hbin)
    case isFalse => exact h.word_le hbin

/-- R184: bin `i` is the first maximum of the spectrum that `HPS` leaves. -/
theorem Harmonics.firstMax (h : Harmonics lo b S i) :
    FirstMax (hpsWord lo b S) b i := by
  have hpos := h.pos
  have hrange := h.range
  refine ⟨by omega, fun x hx => ?greatest, fun x hx => ?first⟩
  case greatest => exact (h.hpsWord_le hx).trans_eq h.hpsWord_fundamental.symm
  case first =>
    have hempty : S x = 0 := by
      by_contra hne
      have := (h.energy x (by omega)).mp hne
      omega
    rw [hpsWord_eq_zero hempty, h.hpsWord_fundamental]
    exact h.product4_pos

end

/-- Settles O21: `HPS` leaves `hpsWord` in every bin, and bin `i` is its first maximum. -/
theorem hpsThenPeakFindsFundamental : Obligations.HpsThenPeakFindsFundamental := by
  unfold Obligations.HpsThenPeakFindsFundamental
  intro s t S i hexec hb hpos hlo hrange hspec henergy hhps
  have hS : Harmonics s.cfg.hpslo s.cfg.b S i := ⟨hpos, hlo, hrange, fun x hx => (hspec x hx).2, henergy⟩
  obtain rfl : t = complete (bodyHps s) := by
    rw [exec_of_executing hexec] at hhps
    exact (Host.Outcome.next.inj hhps).symm
  have hcfg : (bodyHps s).cfg = s.cfg := bodyHps_cfg s
  have hpeak : peakOf (readSpec { complete (bodyHps s) with eng := .exec }).1 = (i, hpsWord s.cfg.hpslo s.cfg.b S i) :=
    peakOf_readSpec (T := hpsWord s.cfg.hpslo s.cfg.b S)
      (fun x hx => spec_bodyHps (fun y hy => (hspec y hy).1) (hcfg ▸ hx)) (hcfg.symm ▸ hS.firstMax)
  refine ⟨_, exec_of_executing rfl, ?peakbin, ?peakmag⟩
  case peakbin =>
    rw [complete_peakbin, bodyOf, bodyPeak_eq, hpeak, BitVec.toNat_ofNat]
    omega
  case peakmag =>
    rw [complete_peakmag, bodyOf, bodyPeak_eq, hpeak]
    exact hS.hpsWord_fundamental

end Sys2Proof.Machine
end

section
/-! The integer logarithm behind `cents` (44_mapper.md R191): `centsUp` rounds half of `⌊2400·log2(F/R)⌋`, which rounds
`1200·log2(F/R)` to nearest, and a tie cannot happen. -/

namespace Sys2Proof.Machine

theorem natLog2_div_eq_floor_logb {x y : ℕ} (hy : 0 < y) (hyx : y ≤ x) :
    (Nat.log2 (x / y) : ℤ) = ⌊Real.logb 2 ((x : ℝ) / (y : ℝ))⌋ := by
  have hone : (1 : ℝ) ≤ (x : ℝ) / (y : ℝ) := (one_le_div (by exact_mod_cast hy)).mpr (by exact_mod_cast hyx)
  have hfloor := Real.floor_logb_natCast (b := 2) (zero_le_one.trans hone)
  rw [Nat.cast_two] at hfloor
  rw [hfloor, Int.log_of_one_le_right _ hone, Nat.floor_div_eq_div, Nat.log2_eq_log_two]

/-- The reason no tie can happen: two even powers differ by an even number of factors 2. -/
theorem even_of_pow_eq_two_pow_mul_pow {e f r k : ℕ} (he : Even e) (hr : r ≠ 0)
    (h : f ^ e = 2 ^ k * r ^ e) : Even k := by
  have hval : e * f.factorization 2 = k + e * r.factorization 2 := by
    have hfac := congrArg (fun n => n.factorization 2) h
    simpa [Nat.factorization_mul (pow_ne_zero k two_ne_zero) (pow_ne_zero e hr), Nat.prime_two.factorization_self]
      using hfac
  exact (Nat.even_add.mp (hval ▸ he.mul_right _)).mpr (he.mul_right _)

theorem logb_pow_div_pow (e f r : ℕ) :
    Real.logb 2 (((f ^ e : ℕ) : ℝ) / ((r ^ e : ℕ) : ℝ)) = e * Real.logb 2 ((f : ℝ) / (r : ℝ)) := by
  rw [Nat.cast_pow, Nat.cast_pow, ← div_pow, Real.logb_pow]

/-- `2400·log2(F/R)` is no odd integer. -/
theorem even_of_logb_div_eq {e f r k : ℕ} (he : Even e) (hf : 0 < f) (hr : 0 < r)
    (h : e * Real.logb 2 ((f : ℝ) / (r : ℝ)) = k) : Even k := by
  apply even_of_pow_eq_two_pow_mul_pow he hr.ne'
  have hfe : (0 : ℝ) < ((f ^ e : ℕ) : ℝ) := by exact_mod_cast pow_pos hf e
  have hre : (0 : ℝ) < ((r ^ e : ℕ) : ℝ) := by exact_mod_cast pow_pos hr e
  have hpow : (2 : ℝ) ^ (k : ℝ) = ((f ^ e : ℕ) : ℝ) / ((r ^ e : ℕ) : ℝ) := by
    rw [← h, ← logb_pow_div_pow]
    exact Real.rpow_logb two_pos (by norm_num) (div_pos hfe hre)
  rw [Real.rpow_natCast, eq_div_iff hre.ne'] at hpow
  exact_mod_cast hpow.symm

/-- Rounding the half of `⌊y⌋ = k` rounds `y/2` to nearest, unless `y` is itself odd. -/
theorem abs_half_sub_lt {y : ℝ} {k : ℕ} (hlo : (k : ℝ) ≤ y) (hhi : y < k + 1) (heven : y = k → Even k) :
    |y / 2 - ((k + 1) / 2 : ℕ)| < 1 / 2 := by
  rcases Nat.even_or_odd' k with ⟨m, rfl | rfl⟩
  · rw [show (2 * m + 1) / 2 = m by omega, abs_lt]
    push_cast at hlo hhi
    constructor <;> linarith
  · have hne : y ≠ ((2 * m + 1 : ℕ) : ℝ) := fun h => Nat.not_even_two_mul_add_one m (heven h)
    have hlt := lt_of_le_of_ne hlo hne.symm
    rw [show (2 * m + 1 + 1) / 2 = m + 1 by omega, abs_lt]
    push_cast at hlt hhi ⊢
    constructor <;> linarith

/-- R191: the logarithm `centsUp` takes, whatever the power. -/
theorem natLog2_pow_div_pow_eq_floor {e f r : ℕ} (hr : 0 < r) (hrf : r ≤ f) :
    (Nat.log2 (f ^ e / r ^ e) : ℤ) = ⌊e * Real.logb 2 ((f : ℝ) / (r : ℝ))⌋ := by
  rw [natLog2_div_eq_floor_logb (pow_pos hr e) (Nat.pow_le_pow_left hrf e), logb_pow_div_pow]

theorem natLog2_pow_div_pow_lt {b e f r : ℕ} (he : e ≠ 0) (hr : 0 < r) (hrf : r ≤ f) (hf : f < 2 ^ b) :
    Nat.log2 (f ^ e / r ^ e) < b * e := by
  rw [Nat.log2_lt (Nat.div_pos (Nat.pow_le_pow_left hrf e) (pow_pos hr e)).ne', pow_mul]
  exact (Nat.div_le_self _ _).trans_lt (Nat.pow_lt_pow_left hf he)

/-- R191 for a ratio of at least 1. -/
theorem centsUp_near {f r : ℕ} (hr : 0 < r) (hrf : r ≤ f) :
    |1200 * Real.logb 2 ((f : ℝ) / (r : ℝ)) - (centsUp f r : ℝ)| < 1 / 2 := by
  obtain ⟨hlo, hhi⟩ := Int.floor_eq_iff.mp (natLog2_pow_div_pow_eq_floor (e := 2400) hr hrf).symm
  have hnear := abs_half_sub_lt hlo hhi (even_of_logb_div_eq (by decide) (hr.trans_le hrf) hr)
  rw [mul_div_right_comm, show ((2400 : ℕ) : ℝ) / 2 = 1200 by norm_num] at hnear
  exact hnear

/-- R191: 32 octaves of 1200 cents. -/
theorem centsUp_le {f r : ℕ} (hr : 0 < r) (hrf : r ≤ f) (hf : f < 2 ^ 32) : centsUp f r ≤ 38400 := by
  have hlog := natLog2_pow_div_pow_lt (e := 2400) (by decide) hr hrf hf
  unfold centsUp
  omega

theorem cents_of_le {f r : ℕ} (hr : 0 < r) (hrf : r ≤ f) : cents f r = centsUp f r := by
  rw [cents, if_neg (by omega), if_pos hrf]

theorem cents_of_lt {f r : ℕ} (hf : 0 < f) (hfr : f < r) : cents f r = -centsUp r f := by
  rw [cents, if_neg (by omega), if_neg (by omega)]

/-- R191: a note is 0 cents from itself. -/
theorem cents_self {f : ℕ} (hf : 0 < f) : cents f f = 0 := by
  rw [cents_of_le hf le_rfl, centsUp, Nat.div_self (pow_pos hf 2400)]
  rfl

/-- R191: for a ratio below 1 both the logarithm and the cents change sign. -/
theorem cents_near {f r : ℕ} (hf : 0 < f) (hr : 0 < r) :
    |1200 * Real.logb 2 ((f : ℝ) / (r : ℝ)) - (cents f r : ℝ)| < 1 / 2 := by
  rcases Nat.lt_or_ge f r with hfr | hrf
  · have hflip : Real.logb 2 ((f : ℝ) / (r : ℝ)) = -Real.logb 2 ((r : ℝ) / (f : ℝ)) := by
      rw [← Real.logb_inv, inv_div]
    rw [cents_of_lt hf hfr, hflip, Int.cast_neg, Int.cast_natCast, mul_neg, neg_sub_neg, abs_sub_comm]
    exact centsUp_near hf hfr.le
  · rw [cents_of_le hr hrf, Int.cast_natCast]
    exact centsUp_near hr hrf

theorem abs_cents_le {f r : ℕ} (hf : 0 < f) (hr : 0 < r) (hf32 : f < 2 ^ 32) (hr32 : r < 2 ^ 32) :
    |cents f r| ≤ 38400 := by
  rcases Nat.lt_or_ge f r with hfr | hrf
  · rw [cents_of_lt hf hfr, abs_neg, Nat.abs_cast]
    exact_mod_cast centsUp_le hf hfr.le hr32
  · rw [cents_of_le hr hrf, Nat.abs_cast]
    exact_mod_cast centsUp_le hr hrf hf32

/-- Settles O24: both parts hold of either sign of the logarithm. -/
theorem centsIsTheRoundedLogarithm : Obligations.CentsIsTheRoundedLogarithm := by
  unfold Obligations.CentsIsTheRoundedLogarithm
  exact fun f r hf hr => ⟨cents_near hf hr, abs_cents_le hf hr⟩

end Sys2Proof.Machine
end

section
/-! The nearest note (44_mapper.md R194) of a conforming note table, and `NOTE` (R197). -/

namespace Sys2Proof.Machine

/-! ## The note table (R6) -/

/-- Entry `j` of the note table `nt`, as a number. -/
def noteFreq (nt : List Word) (j : Nat) : Nat := (nt.getD j 0).toNat

theorem noteFreq_of_lt {nt : List Word} {j : Nat} (hj : j < nt.length) : noteFreq nt j = nt[j].toNat := by
  rw [noteFreq, List.getD_eq_getElem nt 0 hj]

section
variable {nt : List Word}

/-- R6: what a conforming table is. -/
theorem wfNoteTable_iff : wfNoteTable nt = true ↔ 1 ≤ nt.length ∧ nt.length ≤ 128 ∧
    nt.Pairwise (fun x y => x.toNat < y.toNat) ∧ ∀ x ∈ nt, 1 ≤ x.toNat := by
  simp only [wfNoteTable, Bool.and_eq_true, List.all_eq_true, decide_eq_true_eq, and_assoc]

theorem wfNoteTable_length_pos (hwf : wfNoteTable nt = true) : 0 < nt.length :=
  (wfNoteTable_iff.mp hwf).1

theorem noteFreq_lt (hwf : wfNoteTable nt = true) {i j : Nat} (hij : i < j) (hj : j < nt.length) :
    noteFreq nt i < noteFreq nt j := by
  obtain ⟨-, -, hrising, -⟩ := wfNoteTable_iff.mp hwf
  rw [noteFreq_of_lt hj, noteFreq_of_lt (hij.trans hj)]
  exact List.pairwise_iff_getElem.mp hrising i j _ hj hij

theorem noteFreq_le (hwf : wfNoteTable nt = true) {i j : Nat} (hij : i ≤ j) (hj : j < nt.length) :
    noteFreq nt i ≤ noteFreq nt j := by
  rcases hij.eq_or_lt with rfl | hlt
  · exact le_rfl
  · exact (noteFreq_lt hwf hlt hj).le

theorem noteFreq_pos (hwf : wfNoteTable nt = true) {j : Nat} (hj : j < nt.length) : 0 < noteFreq nt j := by
  obtain ⟨-, -, -, hpos⟩ := wfNoteTable_iff.mp hwf
  rw [noteFreq_of_lt hj]
  exact hpos _ (List.getElem_mem hj)

/-! ## The search (R194) -/

/-- The test by which `nearest` finds the upper neighbour of `f`: the first note that exceeds it. -/
def above (f : Nat) (x : Word) : Bool := decide (f < x.toNat)

/-- R194 with the ends of the table named. -/
theorem nearest_eq (hwf : wfNoteTable nt = true) (f : Nat) : nearest nt f =
    if f < noteFreq nt 0 ∨ noteFreq nt (nt.length - 1) < f then none
    else match nt.findIdx? (above f) with
      | none => some (nt.length - 1, cents f (noteFreq nt (nt.length - 1)))
      | some u =>
        if -50 ≤ cents f (noteFreq nt u) then some (u, cents f (noteFreq nt u))
        else some (u - 1, cents f (noteFreq nt (u - 1))) := by
  have hpos := wfNoteTable_length_pos hwf
  have hhead : nt.head? = some nt[0] := List.head?_eq_getElem?.trans (List.getElem?_eq_getElem hpos)
  have hlast : nt.getLast? = some nt[nt.length - 1] :=
    List.getLast?_eq_getElem?.trans (List.getElem?_eq_getElem (by omega))
  rw [noteFreq_of_lt hpos, noteFreq_of_lt (show nt.length - 1 < nt.length by omega), nearest, hhead, hlast]
  rfl

theorem nearest_of_outside (hwf : wfNoteTable nt = true) {f : Nat}
    (hout : f < noteFreq nt 0 ∨ noteFreq nt (nt.length - 1) < f) : nearest nt f = none := by
  rw [nearest_eq hwf, if_pos hout]

/-- R194: no note exceeds the top one. -/
theorem nearest_top (hwf : wfNoteTable nt = true) :
    nearest nt (noteFreq nt (nt.length - 1)) = some (nt.length - 1, 0) := by
  have hpos := wfNoteTable_length_pos hwf
  have htop : nt.length - 1 < nt.length := by omega
  have hnone : nt.findIdx? (above (noteFreq nt (nt.length - 1))) = none := by
    refine List.findIdx?_eq_none_iff.mpr fun x hx => decide_eq_false (Nat.not_lt.mpr ?_)
    obtain ⟨j, hj, rfl⟩ := List.mem_iff_getElem.mp hx
    rw [← noteFreq_of_lt hj]
    exact noteFreq_le hwf (by omega) htop
  have hbottom := noteFreq_le hwf (Nat.zero_le _) htop
  rw [nearest_eq hwf, if_neg (by omega), hnone, cents_self (noteFreq_pos hwf htop)]

/-- R194: between two neighbours the upper one is the first note that exceeds `f`. -/
theorem nearest_between (hwf : wfNoteTable nt = true) {f u : Nat} (hu : 1 ≤ u) (hul : u < nt.length)
    (hlo : noteFreq nt (u - 1) ≤ f) (hhi : f < noteFreq nt u) : nearest nt f =
      if -50 ≤ cents f (noteFreq nt u) then some (u, cents f (noteFreq nt u))
      else some (u - 1, cents f (noteFreq nt (u - 1))) := by
  have hfirst : nt.findIdx? (above f) = some u := by
    refine List.findIdx?_eq_some_iff_getElem.mpr ⟨hul, ?_, fun j hj => ?_⟩
    · rw [above, ← noteFreq_of_lt hul]
      exact decide_eq_true hhi
    · have hbelow := noteFreq_le hwf (show j ≤ u - 1 by omega) (by omega)
      rw [above, ← noteFreq_of_lt (hj.trans hul), decide_eq_true_eq]
      omega
  have hbottom := noteFreq_le hwf (Nat.zero_le (u - 1)) (by omega)
  have htop := noteFreq_le hwf (show u ≤ nt.length - 1 by omega) (by omega)
  rw [nearest_eq hwf, if_neg (by omega), hfirst]

end

/-! ## NOTE (R197) -/

theorem bodyNote_of_none {s : State} (h : nearest s.rom.noteTable s.latched.arg0.toNat = none) :
    bodyNote s = { s with out0 := 0, out1 := 0 } := by
  rw [bodyNote, h]

theorem bodyNote_of_some {s : State} {idx : Nat} {c : Int}
    (h : nearest s.rom.noteTable s.latched.arg0.toNat = some (idx, c)) :
    bodyNote s = { s with out0 := noteWord idx, out1 := centsWord c } := by
  rw [bodyNote, h]

/-- Settles O26: one case of `nearest` for each of the three ranges of the frequency. -/
theorem noteFindsNearestNote : Obligations.NoteFindsNearestNote := by
  unfold Obligations.NoteFindsNearestNote
  intro s hexec hwf
  extract_lets L NT F
  rw [exec_of_executing hexec, bodyOf]
  refine ⟨fun hout => ?outside, fun htop => ?top, fun u hu hul hlo hhi => ?between⟩
  case outside =>
    rw [bodyNote_of_none (nearest_of_outside hwf hout)]
    rfl
  case top =>
    have hnear : nearest s.rom.noteTable F = some (L - 1, 0) := htop ▸ nearest_top hwf
    rw [bodyNote_of_some hnear]
    rfl
  case between =>
    have hnear := nearest_between hwf hu hul hlo hhi
    split
    case isTrue hupper =>
      rw [bodyNote_of_some (hnear.trans (if_pos hupper))]
      rfl
    case isFalse hlower =>
      rw [bodyNote_of_some (hnear.trans (if_neg hlower))]
      rfl

end Sys2Proof.Machine
end

section
/-! What the mapper's commands write (44_mapper.md): `PEAK` (R192), `B2F` (R195) and `F2B` (R196). -/

namespace Sys2Proof.Machine

/-! ## PEAK -/

/-- R192: the two parts of the mapped result, each by its own case. -/
theorem pitchOf_eq (nt : List Word) (thresh m : SpecWord) (f : Word) : pitchOf nt thresh m f =
    (if m.toNat < thresh.toNat then 0x40000000
      else match nearest nt f.toNat with
        | some (idx, _) => noteWord idx
        | none => 0,
     if m.toNat < thresh.toNat then 0
      else match nearest nt f.toNat with
        | some (_, c) => centsWord c
        | none => 0) := by
  unfold pitchOf
  split
  · rfl
  · cases nearest nt f.toNat <;> rfl

/-- R192 on a written spectrum: nothing is read that would change the state. -/
theorem bodyPeak_of_written {s : State} {T : Nat → SpecWord} {pk : Nat}
    (hspec : ∀ x, x < s.cfg.b → s.spec x = some (T x)) (hmax : FirstMax T s.cfg.b pk) :
    bodyPeak s = { s with
      peakbin := BitVec.ofNat 11 pk
      peakmag := T pk
      freq := b2f s.cfg.binw pk
      result := (pitchOf s.rom.noteTable s.latched.thresh (T pk) (b2f s.cfg.binw pk)).1
      cents := (pitchOf s.rom.noteTable s.latched.thresh (T pk) (b2f s.cfg.binw pk)).2 } := by
  rw [bodyPeak_eq, peakOf_readSpec hspec hmax, readSpec_of_written hspec]

/-- Settles O20: the bin is the first maximum, and `pitchOf` makes the two result words from it. -/
theorem peakPicksFirstMaximum : Obligations.PeakPicksFirstMaximum := by
  unfold Obligations.PeakPicksFirstMaximum
  intro s S hexec hb hspec
  obtain ⟨pk, hmax, -⟩ := peakOf_firstMax (T := S) hb
  refine ⟨pk, hmax.lt, hmax.greatest, hmax.first, ?_⟩
  rw [exec_of_executing hexec, bodyOf, bodyPeak_of_written hspec hmax, pitchOf_eq]
  rfl

/-! ## B2F -/

/-- R131: what the legal configuration of a started block says of the numbers `cfg` holds. -/
theorem cfg_of_started {s : State} (hctl : Safety.ControlOk s) (hen : s.ctrl.en = true) :
    ∃ l, 5 ≤ l ∧ l ≤ 12 ∧ s.cfg.n = 2 ^ l ∧ s.cfg.b = 2 ^ (l - 1) ∧ s.cfg.fs < 2 ^ 17 ∧
      s.cfg.binw = s.cfg.fs * 2 ^ (16 - l) := by
  have hlegal := hctl.legal hen
  simp only [legalConfig, Bool.and_eq_true, decide_eq_true_eq] at hlegal
  obtain ⟨⟨⟨⟨⟨⟨⟨⟨hlo, hhi⟩, -⟩, -⟩, -⟩, -⟩, -⟩, -⟩, -⟩ := hlegal
  rw [hctl.cfg hen]
  exact ⟨_, hlo, hhi, rfl, Nat.pow_div (n := 1) (by omega) two_pos, s.fs.isLt, rfl⟩

/-- R193: `N` bins of width `BINW` span `FS` in Q16.16. -/
theorem binw_mul_n {s : State} (hctl : Safety.ControlOk s) (hen : s.ctrl.en = true) :
    s.cfg.binw * s.cfg.n = s.cfg.fs * 2 ^ 16 := by
  obtain ⟨l, -, hl, hn, -, -, hbinw⟩ := cfg_of_started hctl hen
  rw [hbinw, hn, mul_assoc, ← pow_add, Nat.sub_add_cancel (by omega)]

/-- R193: the `B` bins below half the sample rate fit a word. -/
theorem b_mul_binw_lt {s : State} (hctl : Safety.ControlOk s) (hen : s.ctrl.en = true) :
    s.cfg.b * s.cfg.binw < 2 ^ 32 := by
  obtain ⟨l, hlo, hhi, -, hb, hfs, hbinw⟩ := cfg_of_started hctl hen
  calc s.cfg.b * s.cfg.binw = s.cfg.fs * 2 ^ (l - 1 + (16 - l)) := by rw [hb, hbinw, pow_add]; ring
    _ = s.cfg.fs * 2 ^ 15 := by rw [show l - 1 + (16 - l) = 15 by omega]
    _ < 2 ^ 32 := by omega

/-- Settles O22: the body writes `b2f`, and below `B` its product is at most that of all `B` bins. -/
theorem b2fWritesTheBinFrequency : Obligations.B2fWritesTheBinFrequency := by
  unfold Obligations.B2fWritesTheBinFrequency
  intro s hexec
  refine ⟨exec_of_executing hexec, fun hctl hen hbin => ⟨?fits, ?exact⟩⟩
  case fits => exact (Nat.mul_le_mul_right _ hbin.le).trans_lt (b_mul_binw_lt hctl hen)
  case exact => rw [mul_assoc, binw_mul_n hctl hen, ← mul_assoc]

/-! ## F2B -/

/-- R200: rounding `q/d` half up. -/
theorem round_half_up {q d : Nat} (hd : 0 < d) :
    2 * d * ((2 * q + d) / (2 * d)) ≤ 2 * q + d ∧ 2 * q < 2 * d * ((2 * q + d) / (2 * d)) + d := by
  have hdiv := Nat.div_add_mod (2 * q + d) (2 * d)
  have hmod := Nat.mod_lt (2 * q + d) (show 0 < 2 * d by omega)
  omega

/-- R200: rounding `q/d` half down. -/
theorem round_half_down {q d : Nat} (hd : 0 < d) :
    2 * d * ((2 * q + d - 1) / (2 * d)) < 2 * q + d ∧ 2 * q ≤ 2 * d * ((2 * q + d - 1) / (2 * d)) + d := by
  have hdiv := Nat.div_add_mod (2 * q + d - 1) (2 * d)
  have hmod := Nat.mod_lt (2 * q + d - 1) (show 0 < 2 * d by omega)
  omega

/-- R200: the two policies, each with the end of its interval that it takes. -/
theorem f2b_spec {n fs : Nat} (hfs : 1 ≤ fs) (f : Nat) (rnd : Bool) :
    (rnd = false → 2 * (fs * 2 ^ 16) * f2b n fs f rnd ≤ 2 * (f * n) + fs * 2 ^ 16 ∧
      2 * (f * n) < 2 * (fs * 2 ^ 16) * f2b n fs f rnd + fs * 2 ^ 16) ∧
    (rnd = true → 2 * (fs * 2 ^ 16) * f2b n fs f rnd < 2 * (f * n) + fs * 2 ^ 16 ∧
      2 * (f * n) ≤ 2 * (fs * 2 ^ 16) * f2b n fs f rnd + fs * 2 ^ 16) := by
  have hd : 0 < fs * 2 ^ 16 := by positivity
  constructor <;> rintro rfl
  · exact round_half_up hd
  · exact round_half_down hd

/-- R200: a word in Q16.16 is below `2^16` Hz, and at 1 Hz a bin is `1/4096` Hz or more wide. -/
theorem f2b_lt {n fs f : Nat} (hfs : 1 ≤ fs) (hn : n ≤ 4096) (hf : f < 2 ^ 32) (rnd : Bool) :
    f2b n fs f rnd < 2 ^ 29 := by
  have hq : f * n ≤ (2 ^ 32 - 1) * 4096 := Nat.mul_le_mul (by omega) hn
  have hd : 2 ^ 16 ≤ fs * 2 ^ 16 := Nat.le_mul_of_pos_left _ hfs
  have hle : 2 * (fs * 2 ^ 16) * f2b n fs f rnd ≤ 2 * (f * n) + fs * 2 ^ 16 := by
    cases rnd
    · exact ((f2b_spec hfs f false).1 rfl).1
    · exact ((f2b_spec hfs f true).2 rfl).1.le
  by_contra hge
  have hbig : 2 * (fs * 2 ^ 16) * 2 ^ 29 ≤ 2 * (fs * 2 ^ 16) * f2b n fs f rnd :=
    Nat.mul_le_mul_left _ (Nat.not_lt.mp hge)
  omega

/-- Settles O23: the integer is `f2b` of the latched frequency. -/
theorem f2bRoundsToNearestBin : Obligations.F2bRoundsToNearestBin := by
  unfold Obligations.F2bRoundsToNearestBin
  intro s hexec hfs hn
  extract_lets q d
  obtain ⟨hup, hdown⟩ := f2b_spec (n := s.cfg.n) hfs s.latched.arg0.toNat s.latched.rnd
  exact ⟨_, f2b_lt hfs hn s.latched.arg0.isLt s.latched.rnd, hup, hdown, exec_of_executing hexec⟩

end Sys2Proof.Machine
end

section
/-! Capture and hand-off (45_capture_handoff.md): the converter (R222), the claim (R229) and `SAMPLE_IN` (R221). -/

namespace Sys2Proof.Machine

/-! ## The converter (R222) -/

/-- R222: a code of `W` bits less mid-scale, scaled to 16 bits, is in the range of a sample. -/
theorem centredCode_fits {W c : Nat} (h1 : 1 ≤ W) (h16 : W ≤ 16) (hc : c < 2 ^ W) :
    -2 ^ 15 ≤ ((c : Int) - 2 ^ (W - 1)) * 2 ^ (16 - W) ∧ ((c : Int) - 2 ^ (W - 1)) * 2 ^ (16 - W) < 2 ^ 15 := by
  have hscale : (0 : Int) < 2 ^ (16 - W) := by positivity
  have hmid : (2 : Int) ^ (W - 1) * 2 ^ (16 - W) = 2 ^ 15 := by
    rw [← pow_add, show W - 1 + (16 - W) = 15 by omega]
  have hfull : (2 : Int) ^ W * 2 ^ (16 - W) = 2 ^ 16 := by
    rw [← pow_add, Nat.add_sub_cancel' h16]
  have hlo : 0 ≤ (c : Int) * 2 ^ (16 - W) := by positivity
  have hhi : (c : Int) * 2 ^ (16 - W) < 2 ^ W * 2 ^ (16 - W) :=
    mul_lt_mul_of_pos_right (by exact_mod_cast hc) hscale
  rw [sub_mul, hmid]
  omega

/-- Settles O50: the scaled code fits a sample, so taking it as 16 bits does not wrap. -/
theorem converterMapsCodes : Obligations.ConverterMapsCodes := by
  unfold Obligations.ConverterMapsCodes
  intro W v h8 h16
  refine ⟨?raw, if_neg Bool.false_ne_true⟩
  case raw =>
    obtain ⟨hlo, hhi⟩ := centredCode_fits (by omega) h16 (Nat.mod_lt v.toNat (Nat.two_pow_pos W))
    rw [conv, if_pos rfl]
    exact BitVec.toInt_ofInt_eq_self (by decide) hlo hhi

/-! ## The claim (R229) -/

/-- R229: a step of a waiting command tries its claim. -/
theorem exec_of_waiting {i : Instr} {s : State} (hwait : s.eng = .wait) : exec i s = .next (claim s) :=
  (exec_eq_runCommand i s).trans (runCommand_wait hwait)

/-- Settles O9: each of the two ends of a claim is one side of the statement. -/
theorem claimTakesTheReadySlot : Obligations.ClaimTakesTheReadySlot := by
  unfold Obligations.ClaimTakesTheReadySlot
  intro s i _ hwait
  rw [exec_of_waiting hwait]
  rcases claim_cases s with ⟨hready, hclaim⟩ | ⟨hnot, hclaim⟩
  · refine ⟨fun hne => absurd hready hne, fun _ => ?_⟩
    rw [hclaim]
    rfl
  · exact ⟨fun _ => by rw [hclaim], fun hready => absurd hready hnot⟩

/-! ## `SAMPLE_IN` (R221) -/

/-- R223: a capture event neither reads nor changes the bus response. -/
theorem captureEvent_withResp (v : BitVec 16) (r : Response) (s : State) :
    captureEvent v { s with resp := r } = { captureEvent v s with resp := r } := by
  rw [captureEvent_explicit, captureEvent_explicit]
  cases s.ctrl.en
  case false => rfl
  case true => rfl

/-- Settles O52: the write captures its low half word, and the acknowledgement passes the capture. -/
theorem sampleInIsACapture : Obligations.SampleInIsACapture := by
  unfold Obligations.SampleInIsACapture
  intro s w rest
  refine ⟨captureEvent (w.extractLsb' 0 16) { s with inputs := rest }, ?capture, ?write⟩
  case capture => rw [step_cons rfl, runInput]
  case write =>
    rw [step_regWrite rfl (r := .sampleIn) (by decide) rfl nofun, writeReg, ← captureEvent_withResp]

end Sys2Proof.Machine
end

section
/-! `RUN` as its four stages (46_run.md R240, R241): completing a stage and putting the engine back in EXEC writes `eng` and
`done` only, and no later stage reads either. -/

namespace Sys2Proof.Machine

/-- `s` with the two fields that completion writes (R124) set to `e` and `d`. -/
def withEngDone (e : Engine) (d : Bool) (s : State) : State := { s with eng := e, done := d }

/-- A completed state put back in EXEC. -/
theorem complete_with_exec (s : State) : { complete s with eng := .exec } = withEngDone .exec true s := rfl

/-! ## What the stages do not read -/

section
variable {w : Nat} (e : Engine) (d : Bool)

theorem readOr_withEngDone (v : Option (BitVec w)) (s : State) :
    readOr v (withEngDone e d s) = Prod.map id (withEngDone e d) (readOr v s) := by
  cases v with
  | some x => rfl
  | none => rfl

theorem readAll_withEngDone (get : Nat → Option (BitVec w)) (is : List Nat) (s : State) :
    readAll get is (withEngDone e d s) = Prod.map id (withEngDone e d) (readAll get is s) := by
  induction is generalizing s with
  | nil => rfl
  | cons i is ih =>
    rw [readAll, readOr_withEngDone, Prod.map_snd, ih]
    rfl

theorem writeSpecs_withEngDone (vs : List SpecWord) (k : Nat) (s : State) :
    writeSpecs k vs (withEngDone e d s) = withEngDone e d (writeSpecs k vs s) := by
  induction vs generalizing k s with
  | nil => rfl
  | cons v vs ih => exact ih (k + 1) (writeSpec k v s)

/-- R171: the operands of the transform are `DEC` and `cfg`. -/
theorem bodyXform_withEngDone (s : State) : bodyXform (withEngDone e d s) = withEngDone e d (bodyXform s) := by
  have hread : readDec (withEngDone e d s) = Prod.map id (withEngDone e d) (readDec s) :=
    readAll_withEngDone e d s.dec _ s
  rw [bodyXform, hread]
  exact writeSpecs_withEngDone e d _ 0 (readDec s).2

theorem hpsHarmonic_withEngDone (i : Nat) (p : SpecWord × State) (k : Nat) :
    hpsHarmonic i (Prod.map id (withEngDone e d) p) k = Prod.map id (withEngDone e d) (hpsHarmonic i p k) := by
  by_cases hk : k * i < p.2.cfg.b
  · have hread : readOr ((withEngDone e d p.2).spec (k * i)) (withEngDone e d p.2) =
        Prod.map id (withEngDone e d) (readOr (p.2.spec (k * i)) p.2) := readOr_withEngDone e d (p.2.spec (k * i)) p.2
    rw [hpsHarmonic_in hk, hpsHarmonic_in (p := Prod.map id (withEngDone e d) p) hk, Prod.map_snd, hread]
    rfl
  · rw [hpsHarmonic_out hk, hpsHarmonic_out (p := Prod.map id (withEngDone e d) p) hk]

theorem hpsCandidate_withEngDone (s : State) (i : Nat) :
    hpsCandidate (withEngDone e d s) i = withEngDone e d (hpsCandidate s i) := by
  have hread : readOr ((withEngDone e d s).spec i) (withEngDone e d s) =
      Prod.map id (withEngDone e d) (readOr (s.spec i) s) :=
    readOr_withEngDone e d (s.spec i) s
  rw [hpsCandidate_eq, hread, List.foldl_hom _ (hpsHarmonic_withEngDone e d i)]
  rfl

/-- R181: the operands of the scan are `SPEC` and `cfg`. -/
theorem bodyHps_withEngDone (s : State) : bodyHps (withEngDone e d s) = withEngDone e d (bodyHps s) :=
  List.foldl_hom (withEngDone e d) (hpsCandidate_withEngDone e d)

/-- R192: the operands of peak selection are `SPEC`, `cfg`, the note table and the latched threshold. -/
theorem bodyPeak_withEngDone (s : State) : bodyPeak (withEngDone e d s) = withEngDone e d (bodyPeak s) := by
  have hread : readSpec (withEngDone e d s) = Prod.map id (withEngDone e d) (readSpec s) :=
    readAll_withEngDone e d s.spec _ s
  rw [bodyPeak_eq, hread]
  rfl

end

/-! ## The stages in a row -/

/-- A stage whose body does not read what completion wrote answers on a completed state put back in EXEC what its body
leaves of the state before the completion. -/
theorem exec_of_reentered {i : Instr}
    (hbody : ∀ s, bodyOf i (withEngDone .exec true s) = withEngDone .exec true (bodyOf i s))
    (s : State) : exec i { complete s with eng := .exec } = .next (complete (bodyOf i s)) := by
  calc exec i { complete s with eng := .exec }
      = exec i (withEngDone .exec true s) := by rw [complete_with_exec]
    _ = .next (complete (bodyOf i (withEngDone .exec true s))) := exec_of_executing rfl
    _ = .next (complete (withEngDone .exec true (bodyOf i s))) := by rw [hbody]
    _ = .next (complete (bodyOf i s)) := rfl

/-- Settles O28: after `FILT`, each stage answers what its body leaves of the bodies before it, and the body of `RUN` is
those four in a row. -/
theorem runIsTheFourStages : Obligations.RunIsTheFourStages := by
  unfold Obligations.RunIsTheFourStages
  intro s hexec
  exact ⟨_, _, _, _, exec_of_executing hexec,
    exec_of_reentered (i := .xform) (bodyXform_withEngDone .exec true) (bodyFilt s),
    exec_of_reentered (i := .hps) (bodyHps_withEngDone .exec true) (bodyXform (bodyFilt s)),
    exec_of_reentered (i := .peak) (bodyPeak_withEngDone .exec true) (bodyHps (bodyXform (bodyFilt s))),
    exec_of_executing hexec⟩

end Sys2Proof.Machine
end

section
/-! The encoding on byte lanes and table words (20_memory.md R71, 30_encoding.md R100 to R103). -/

namespace Sys2Proof

/-- R71: a word and its four lanes, lane 0 least significant, are each the other. -/
theorem wordOfLanes_eq_iff {b0 b1 b2 b3 : Byte} {w : Word} :
    wordOfLanes b0 b1 b2 b3 = w ↔ [b0, b1, b2, b3] = lanesOfWord w := by
  constructor
  case mp =>
    rintro rfl
    simp only [lanesOfWord, wordOfLanes, List.cons.injEq, and_true]
    and_intros <;> ext i hi <;> simp <;> grind
  case mpr =>
    intro h
    simp only [lanesOfWord, List.cons.injEq, and_true] at h
    obtain ⟨rfl, rfl, rfl, rfl⟩ := h
    ext i hi
    simp only [wordOfLanes]
    grind

/-- R100: one word is one command, whatever lanes come after it. -/
theorem decodeBytes_lanes {b0 b1 b2 b3 : Byte} {bs rest : List Byte} {i : Instr} :
    decodeBytes (b0 :: b1 :: b2 :: b3 :: bs) = .ok (i, rest) ↔ wordOfLanes b0 b1 b2 b3 = encode i ∧ bs = rest := by
  rw [← decode_eq_ok_iff, decodeBytes]
  cases decode (wordOfLanes b0 b1 b2 b3) <;> simp

/-- R72: fewer than four lanes are no command. -/
theorem decodeBytes_of_length_lt {bs : List Byte} (h : bs.length < 4) : decodeBytes bs = .error .truncated := by
  match bs with
  | [] | [_] | [_, _] | [_, _, _] => rfl
  | _ :: _ :: _ :: _ :: _ => exact absurd h (by simp)

theorem decodeBytes_eq_ok_iff {bs rest : List Byte} {i : Instr} :
    decodeBytes bs = .ok (i, rest) ↔ bs = lanesOfWord (encode i) ++ rest := by
  match bs with
  | b0 :: b1 :: b2 :: b3 :: bs =>
    rw [decodeBytes_lanes, wordOfLanes_eq_iff]
    simp [lanesOfWord, and_assoc]
  | [] | [_] | [_, _] | [_, _, _] =>
    rw [decodeBytes_of_length_lt (by simp)]
    simp [lanesOfWord]

/-- A table word is decoded from its own lanes. -/
theorem decodeTableWord_eq_some_iff {nbits w : Nat} {i : Instr} :
    decodeTableWord nbits w = some i ↔ cmdWordOf nbits w = encode i := by
  rw [← decode_eq_ok_iff, decodeTableWord, lanesOfWord, decodeBytes, wordOfLanes_eq_iff.mpr rfl]
  cases decode (cmdWordOf nbits w) <;> simp

/-- Settles O2: on lanes by `decodeBytes_eq_ok_iff`, and a table word below `2^32` is the number of its word. -/
theorem decodeInvertsEncode : Obligations.DecodeInvertsEncode := by
  unfold Obligations.DecodeInvertsEncode
  intro i _
  refine ⟨fun bs rest => decodeBytes_eq_ok_iff, fun w => ?_⟩
  rw [decodeTableWord_eq_some_iff, cmdWordOf, ← BitVec.toNat_inj, BitVec.toNat_ofNat, Nat.mod_mod]

/-- Settles O3: two words are the `encode` of their command, and two are illegal by R102. -/
theorem specExampleWordsDecode : Obligations.SpecExampleWordsDecode := by
  unfold Obligations.SpecExampleWordsDecode
  have illegal (w : Nat) (h : (cmdWordOf 32 w).toNat / 256 ≠ 0) : decodeTableWord 32 w = none :=
    Option.eq_none_iff_forall_ne_some.mpr fun i hi =>
      decode_ne_ok_of_illegal (.inl h) i (decode_eq_ok_iff.mpr (decodeTableWord_eq_some_iff.mp hi))
  exact ⟨decodeTableWord_eq_some_iff.mpr rfl, decodeTableWord_eq_some_iff.mpr rfl, illegal _ (by decide),
    illegal _ (by decide)⟩

end Sys2Proof
end

section
/-! What the command bodies leave of the state: the bytes they can store to, and the fields they can change (R151, R155,
R171, R181, R192, R195 to R198, R241). -/

namespace Sys2Proof.Machine

/-! ## Stores to a part of the memory -/

/-- `m'` is `m` after stores of entries whose bytes all lie in `R`. -/
inductive Stores (R : Nat → Prop) (m : Memory) : Memory → Prop
  | none : Stores R m m
  | entry {m' : Memory} {w : Nat} (n a : Nat) (v : BitVec w) (hin : ∀ x, a ≤ x → x < a + n → R x)
      (h : Stores R m m') : Stores R m (m'.setEntry n a v)

section
variable {R Q : Nat → Prop} {m m' m'' : Memory}

theorem Stores.trans (h : Stores R m m') (h' : Stores R m' m'') : Stores R m m'' := by
  induction h' with
  | none => exact h
  | entry n a v hin _ ih => exact .entry n a v hin ih

theorem Stores.mono (h : Stores R m m') (hsub : ∀ x, R x → Q x) : Stores Q m m' := by
  induction h with
  | none => exact .none
  | entry n a v hin _ ih => exact .entry n a v (fun x hlo hhi => hsub x (hin x hlo hhi)) ih

theorem Stores.byte_eq (h : Stores R m m') {x : Nat} (hx : ¬R x) : m'.byte x = m.byte x := by
  induction h with
  | none => rfl
  | entry n a v hin _ ih =>
    rw [byte_setEntry_of_outside, ih]
    by_contra hinside
    exact hx (hin x (by omega) (by omega))

/-- A store never makes an entry unwritten (R56). -/
theorem Stores.entry_isSome (h : Stores R m m') {w n a : Nat} (hw : (m.entry w n a).isSome = true) :
    (m'.entry w n a).isSome = true := by
  induction h with
  | none => exact hw
  | entry n a v _ _ ih => exact entry_isSome_setEntry v ih

theorem Stores.wf (h : Stores R m m') (hwf : m.wf = true) : m'.wf = true := by
  induction h with
  | none => exact hwf
  | entry n a v _ _ ih => exact wf_setEntry ih n a v

end

/-- The bytes of `DEC[0 … n−1]` (R45). -/
def InDec (n x : Nat) : Prop := ∃ j, j < n ∧ decAddr j ≤ x ∧ x < decAddr j + 2

/-- The bytes of `SPEC[0 … b−1]` (R46). -/
def InSpec (b x : Nat) : Prop := specAddr 0 ≤ x ∧ x < specAddr b

theorem stores_writeDecs {n j : Nat} {vs : List Sample} (hn : j + vs.length ≤ n) (s : State) :
    Stores (InDec n) s.mem (writeDecs j vs s).mem := by
  induction vs generalizing j s with
  | nil => exact .none
  | cons v vs ih =>
    rw [List.length_cons] at hn
    have hfirst : Stores (InDec n) s.mem (writeDec j v s).mem :=
      .entry 2 (decAddr j) v (fun x hlo hhi => ⟨j, by omega, hlo, hhi⟩) .none
    exact hfirst.trans (ih (by omega) (writeDec j v s))

theorem stores_writeSpec {b k : Nat} (hk : k < b) (v : SpecWord) (s : State) :
    Stores (InSpec b) s.mem (writeSpec k v s).mem :=
  .entry 16 (specAddr k) v (fun x hlo hhi => by unfold InSpec; unfold specAddr at *; omega) .none

theorem stores_writeSpecs {b k : Nat} {vs : List SpecWord} (hb : k + vs.length ≤ b) (s : State) :
    Stores (InSpec b) s.mem (writeSpecs k vs s).mem := by
  induction vs generalizing k s with
  | nil => exact .none
  | cons v vs ih =>
    rw [List.length_cons] at hb
    exact (stores_writeSpec (by omega) v s).trans (ih (by omega) (writeSpec k v s))

/-! ## Where each body stores -/

theorem SameButDraws.mem_eq {s t : State} (h : SameButDraws s t) : t.mem = s.mem := by
  obtain ⟨fs, c, rfl⟩ := h
  rfl

/-- R151: `FILT` stores to `DEC[0 … N−1]`. -/
theorem stores_bodyFilt (s : State) : Stores (InDec s.cfg.n) s.mem (bodyFilt s).mem := by
  have hread : (readFrame s).2.mem = s.mem := (readAll_state _ _ s).mem_eq
  rw [← hread]
  exact stores_writeDecs (by simp [decimate]) (readFrame s).2

/-- R171: `XFORM` stores to `SPEC[0 … B−1]`. -/
theorem stores_bodyXform (s : State) : Stores (InSpec s.cfg.b) s.mem (bodyXform s).mem := by
  have hread : (readDec s).2.mem = s.mem := (readAll_state _ _ s).mem_eq
  rw [← hread]
  exact stores_writeSpecs (by simp [magnitudes]) (readDec s).2

theorem stores_foldl_hpsCandidate {b : Nat} {is : List Nat} (hb : ∀ i ∈ is, i < b) (s : State) :
    Stores (InSpec b) s.mem (is.foldl hpsCandidate s).mem := by
  induction is generalizing s with
  | nil => exact .none
  | cons i is ih =>
    have hread := ((readOr_state (s.spec i) s).trans (foldl_hpsHarmonic_state i [2, 3, 4] _)).mem_eq
    have hfirst : Stores (InSpec b) s.mem (hpsCandidate s i).mem := by
      rw [hpsCandidate_eq, ← hread]
      exact stores_writeSpec (hb i List.mem_cons_self) _ _
    exact hfirst.trans (ih (fun j hj => hb j (List.mem_cons_of_mem i hj)) (hpsCandidate s i))

/-- R181: `HPS` stores to candidates of `SPEC`, which are bins below `B`. -/
theorem stores_bodyHps (s : State) : Stores (InSpec s.cfg.b) s.mem (bodyHps s).mem :=
  stores_foldl_hpsCandidate (fun i hi => by have := mem_hpsScan.mp hi; omega) s

theorem bodyPeak_mem (s : State) : (bodyPeak s).mem = s.mem := by
  obtain ⟨fs, c, pb, pm, f, r, ce, h⟩ := bodyPeak_state s
  rw [h]

/-- The bytes a command can store to (R151, R171, R181). -/
def InResults (c : Cfg) (x : Nat) : Prop := InDec c.n x ∨ InSpec c.b x

/-- R241: `RUN` stores where its four stages do. -/
theorem stores_bodyRun (s : State) : Stores (InResults s.cfg) s.mem (bodyRun s).mem := by
  have hfilt := (stores_bodyFilt s).mono (Q := InResults s.cfg) fun x => .inl
  have hxform := stores_bodyXform (bodyFilt s)
  have hhps := stores_bodyHps (bodyXform (bodyFilt s))
  rw [bodyXform_cfg, bodyFilt_cfg] at hhps
  rw [bodyFilt_cfg] at hxform
  rw [bodyRun, bodyPeak_mem]
  exact (hfilt.trans (hxform.mono fun x => .inr)).trans (hhps.mono fun x => .inr)

theorem stores_bodyOf (i : Instr) (s : State) : Stores (InResults s.cfg) s.mem (bodyOf i s).mem := by
  cases i with
  | run => exact stores_bodyRun s
  | filt => exact (stores_bodyFilt s).mono fun x => .inl
  | xform => exact (stores_bodyXform s).mono fun x => .inr
  | hps => exact (stores_bodyHps s).mono fun x => .inr
  | peak =>
    rw [bodyOf, bodyPeak_mem]
    exact .none
  | note =>
    obtain ⟨o0, o1, h⟩ := bodyNote_state s
    rw [bodyOf, h]
    exact .none
  | nop | firclr | b2f | f2b | cents => exact .none

/-! ## The other fields -/

/-- R151, R228: the release of the claimed slot, by the commands that claim one. -/
def release (i : Instr) (s : State) : State :=
  { s with
    slot0 := if claimsSlot i then (setSlot s.latched.slot .empty s).slot0 else s.slot0
    slot1 := if claimsSlot i then (setSlot s.latched.slot .empty s).slot1 else s.slot1
    rdslot := if claimsSlot i then !s.rdslot else s.rdslot }

theorem slot_release (i : Instr) (s : State) (b : Bool) :
    (release i s).slot b = if claimsSlot i = true ∧ b = s.latched.slot then .empty else s.slot b := by
  cases hi : claimsSlot i <;> cases hl : s.latched.slot <;> cases b <;> simp [release, State.slot, hi, hl]

/-- Once what a body can change: the memory, the delay line, the output and result registers, the record of faults and the
count of free values; and of the hand-off, what the release of the slot does. -/
theorem bodyOf_state (i : Instr) (s : State) : ∃ m dl o0 o1 r f ce pb pm fs c, bodyOf i s =
    { release i s with
      mem := m, dl := dl, out0 := o0, out1 := o1, result := r, freq := f, cents := ce, peakbin := pb, peakmag := pm,
      faults := fs, freeCtr := c } := by
  cases i with
  | run =>
    obtain ⟨m, fs, c, dl, pb, pm, f, r, ce, h⟩ := bodyRun_state s
    exact ⟨_, _, _, _, _, _, _, _, _, _, _, h⟩
  | filt =>
    obtain ⟨m, fs, c, dl, h⟩ := bodyFilt_state s
    exact ⟨_, _, _, _, _, _, _, _, _, _, _, h⟩
  | xform =>
    obtain ⟨m, fs, c, h⟩ := bodyXform_state s
    exact ⟨_, _, _, _, _, _, _, _, _, _, _, h⟩
  | hps =>
    obtain ⟨m, fs, c, h⟩ := bodyHps_state s
    exact ⟨_, _, _, _, _, _, _, _, _, _, _, h⟩
  | peak =>
    obtain ⟨fs, c, pb, pm, f, r, ce, h⟩ := bodyPeak_state s
    exact ⟨_, _, _, _, _, _, _, _, _, _, _, h⟩
  | note =>
    obtain ⟨o0, o1, h⟩ := bodyNote_state s
    exact ⟨_, _, _, _, _, _, _, _, _, _, _, h⟩
  | nop | firclr | b2f | f2b | cents => exact ⟨_, _, _, _, _, _, _, _, _, _, _, rfl⟩

theorem bodyRun_faults {s : State} {f : Fault} (h : f ∈ s.faults) : f ∈ (bodyRun s).faults :=
  bodyPeak_faults (bodyHps_faults (bodyXform_faults (bodyFilt_faults h)))

/-- No command clears a recorded fault (R56). -/
theorem bodyOf_faults (i : Instr) {s : State} {f : Fault} (h : f ∈ s.faults) : f ∈ (bodyOf i s).faults := by
  cases i with
  | run => exact bodyRun_faults h
  | filt => exact bodyFilt_faults h
  | xform => exact bodyXform_faults h
  | hps => exact bodyHps_faults h
  | peak => exact bodyPeak_faults h
  | note =>
    obtain ⟨o0, o1, hn⟩ := bodyNote_state s
    rw [bodyOf, hn]
    exact h
  | nop | firclr | b2f | f2b | cents => exact h

theorem bodyFilt_dl_length (s : State) : (bodyFilt s).dl.length = s.rom.firCoef.length - 1 := by
  simp [bodyFilt_eq, nextDl]

theorem bodyXform_dl (s : State) : (bodyXform s).dl = s.dl := by
  obtain ⟨m, fs, c, h⟩ := bodyXform_state s
  rw [h]

theorem bodyHps_dl (s : State) : (bodyHps s).dl = s.dl := by
  obtain ⟨m, fs, c, h⟩ := bodyHps_state s
  rw [h]

theorem bodyPeak_dl (s : State) : (bodyPeak s).dl = s.dl := by
  obtain ⟨fs, c, pb, pm, f, r, ce, h⟩ := bodyPeak_state s
  rw [h]

/-- R47: every command leaves `T − 1` entries in the delay line. -/
theorem bodyOf_dl_length (i : Instr) {s : State} (h : s.dl.length = s.rom.firCoef.length - 1) :
    (bodyOf i s).dl.length = s.rom.firCoef.length - 1 := by
  cases i with
  | run => rw [bodyOf, bodyRun, bodyPeak_dl, bodyHps_dl, bodyXform_dl, bodyFilt_dl_length]
  | filt => exact bodyFilt_dl_length s
  | xform => rw [bodyOf, bodyXform_dl, h]
  | hps => rw [bodyOf, bodyHps_dl, h]
  | peak => rw [bodyOf, bodyPeak_dl, h]
  | firclr => exact List.length_replicate
  | note =>
    obtain ⟨o0, o1, hn⟩ := bodyNote_state s
    rw [bodyOf, hn, h]
  | nop | b2f | f2b | cents => exact h

end Sys2Proof.Machine
end

section
/-! What one step can do (R84): a reset, a `STATUS` write, or a row of elementary changes, none of which clears an error or
a fault, with at most one move of the engine after them. -/

namespace Sys2Proof.Machine

/-- The elementary changes that are no move of the engine, each with what holds when a step makes it. -/
inductive Change : State → State → Prop
  /-- The next input is taken. -/
  | input (s : State) (es : List Input) : Change s { s with inputs := es }
  /-- The bus answers an access (R73, R75, R76). -/
  | answer (s : State) (r : Response) : Change s { s with resp := r }
  /-- Faults are recorded and free values drawn (R11, R12). -/
  | record (s : State) (fs : List Fault) (c : Nat) (hkept : ∀ f ∈ s.faults, f ∈ fs) :
      Change s { s with faults := fs, freeCtr := c }
  /-- An error is raised (R252). -/
  | error (s : State) (c : ErrCode) : Change s (raiseError c s)
  /-- An operand register is written (R136). -/
  | operands (s : State) (m : SpecWord) (a b : Word) : Change s { s with thresh := m, arg0 := a, arg1 := b }
  /-- A configuration register of a stopped block is written (R76, R133). -/
  | config (s : State) (c : ConfigReg) (f : BitVec 17) (l : BitVec 11) (hstopped : s.ctrl.en = false) :
      Change s { s with config := c, fs := f, hpslo := l }
  /-- The fields of `CTRL` that are never locked are written (R130). -/
  | freeCtrl (s : State) (v : Word) : Change s (writeFreeCtrl v s)
  /-- `RAWIN` of a stopped block is written (R130). -/
  | rawin (s : State) (b : Bool) (hstopped : s.ctrl.en = false) :
      Change s { s with ctrl := { s.ctrl with rawin := b } }
  /-- The block is started (R131). -/
  | start (s : State) (hstopped : s.ctrl.en = false) (hidle : s.eng = .idle) (hlegal : legalConfig s = true) :
      Change s (startPipeline s)
  /-- The block is stopped (R132). -/
  | stop (s : State) (hidle : s.eng = .idle) : Change s (stopPipeline s)
  /-- A host write stores in the `DEC` window (R81). -/
  | dec (s : State) (j : Nat) (v : Sample) : Change s (writeDec j v s)
  /-- A host write stores in the `SPEC` window (R82). -/
  | spec (s : State) (k : Nat) (v : SpecWord) : Change s (writeSpec k v s)
  /-- A sample is captured (R223). -/
  | captured (s : State) (v : BitVec 16) : Change s (captureEvent v s)

/-- The moves of the engine. -/
inductive Move : State → State → Prop
  /-- A command is accepted (R121). -/
  | accepted (s : State) (i : Instr) (hidle : s.eng = .idle) (hen : needsEN i = true → s.ctrl.en = true)
      (harg : i = .cents → s.arg0 ≠ 0 ∧ s.arg1 ≠ 0) : Move s (accept i s)
  /-- The waiting command claims the read slot (R229). -/
  | claimed (s : State) (hwait : s.eng = .wait) (hready : s.slot s.rdslot = .ready) : Move s (claim s)
  /-- The executing command completes (R124). -/
  | completed (s : State) (hexec : s.eng = .exec) : Move s (complete (bodyOf s.latched.op s))

/-- A row of elementary changes. -/
abbrev Changes : State → State → Prop := Relation.ReflTransGen Change

theorem Change.one {s t : State} (h : Change s t) : Changes s t := .single h

/-- A write is taken and acknowledged (R76). -/
theorem changes_acknowledged (s : State) (es : List Input) : Changes s { s with inputs := es, resp := .ack } :=
  (Change.input s es).one.tail (.answer _ .ack)

/-! ## The engine's turn (R123) -/

theorem engineTurn_move {s t : State} (h : engineTurn s = .next t) : t = s ∨ Move s t := by
  rcases engineTurn_cases s with ⟨-, hturn⟩ | ⟨hbusy, hturn⟩
  · exact .inl (Host.Outcome.next.inj (h.symm.trans hturn))
  · rw [hturn] at h
    rcases exec_cases h with ⟨hidle, -⟩ | ⟨hwait, rfl⟩ | ⟨hexec, rfl⟩
    · exact absurd hidle hbusy
    · rcases claim_cases s with ⟨hready, -⟩ | ⟨-, hsame⟩
      · exact .inr (.claimed s hwait hready)
      · exact .inl hsame
    · exact .inr (.completed s hexec)

/-! ## Host reads (R75) -/

theorem readTarget_faults {t : Target} {s : State} {f : Fault} (h : f ∈ s.faults) : f ∈ (readTarget t s).2.faults := by
  cases t with
  | dec j => exact readOr_faults h
  | spec k l => exact readOr_faults h
  | inp a => exact readOr_faults h
  | reg | noteTab | firCoef | firDl | reserved => exact h

theorem memRead_faults {addr : Offset} {s : State} {f : Fault} (h : f ∈ s.faults) :
    f ∈ (memRead addr s).2.faults := by
  unfold memRead
  dsimp only
  split
  · exact h
  · exact readTarget_faults h

theorem hostRead_changes (addr : Offset) (width : Nat) (s : State) : Changes s (hostRead addr width s) := by
  by_cases hok : accessOk addr width = true
  · obtain ⟨fs, c, hread⟩ := memRead_state addr s
    have hkept : ∀ f ∈ s.faults, f ∈ fs := fun f hf => by
      have := memRead_faults (addr := addr) hf
      rwa [hread] at this
    simp only [hostRead, if_pos hok, hread]
    exact (Change.record s fs c hkept).one.tail (.answer _ _)
  · rw [hostRead_bad (Bool.not_eq_true _ ▸ hok)]
    exact (Change.answer s _).one

/-! ## Host writes (R76) -/

theorem offer_change_or_move {w : Word} {s t : State} (h : offer w s = .next t) : Change s t ∨ Move s t := by
  rcases offer_cases w s with ⟨-, ho⟩ | ⟨-, -, ho⟩ | ⟨i, hidle, -, ho⟩
  · obtain rfl := Host.Outcome.next.inj (h.symm.trans ho)
    exact .inl (.error s _)
  · obtain rfl := Host.Outcome.next.inj (h.symm.trans ho)
    exact .inl (.error s _)
  · obtain rfl := Host.Outcome.next.inj (h.symm.trans (ho.trans (exec_of_idle hidle)))
    rcases offerDecoded_cases i s with ⟨-, -, hd⟩ | ⟨-, -, hd⟩ | ⟨hen, harg, hd⟩
    · exact .inl (hd ▸ .error s _)
    · exact .inl (hd ▸ .error s _)
    · exact .inr (hd ▸ .accepted s i hidle hen harg)

theorem busy_eq_true_iff {s : State} : s.busy = true ↔ s.eng ≠ .idle := by simp [State.busy]

theorem writeCtrlStopped_changes (v : Word) {s : State} (hstopped : s.ctrl.en = false) :
    Changes s (writeCtrlStopped v s) := by
  have hrawin := (Change.rawin s (v.getLsbD 2) hstopped).one
  rw [writeCtrlStopped]
  split_ifs with hstart hbusy hillegal
  · exact hrawin.tail (.error _ _)
  · exact hrawin.tail (.error _ _)
  · exact hrawin.tail (.start _ hstopped (not_not.mp (mt busy_eq_true_iff.mpr hbusy)) (by simpa using hillegal))
  · exact hrawin

theorem writeCtrlStarted_changes (v : Word) (s : State) : Changes s (writeCtrlStarted v s) := by
  have hrawin : Changes s (if v.getLsbD 2 != s.ctrl.rawin then raiseError .locked s else s) := by
    split
    · exact (Change.error s _).one
    · exact .refl
  unfold writeCtrlStarted
  extract_lets s1
  split_ifs with hstart hbusy
  · exact hrawin
  · exact hrawin.tail (.error _ _)
  · exact hrawin.tail (.stop _ (not_not.mp (mt busy_eq_true_iff.mpr hbusy)))

theorem writeCtrl_changes {v : Word} (hv : v.getLsbD 31 = false) (s : State) : Changes s (writeCtrl v s) := by
  have hfree := (Change.freeCtrl s v).one
  rw [writeCtrl, if_neg (Bool.eq_false_iff.mp hv)]
  dsimp only
  split_ifs with hen
  · exact hfree.trans (writeCtrlStarted_changes v _)
  · exact hfree.trans (writeCtrlStopped_changes v (by simpa using hen))

theorem writeLocked_changes {write : State → State} {s : State}
    (h : s.ctrl.en = false → Changes s (write s)) : Changes s (writeLocked write s) := by
  unfold writeLocked
  split_ifs with hen
  · exact (Change.error s _).one
  · exact h (by simpa using hen)

/-- A register write other than a soft reset or a `STATUS` write. -/
theorem writeReg_changes {r : Reg} {v : Word} (hstatus : r ≠ .status) (hctrl : r = .ctrl → v.getLsbD 31 = false)
    (s : State) : Changes s (writeReg r v s) := by
  cases r with
  | status => exact absurd rfl hstatus
  | ctrl => exact writeCtrl_changes (hctrl rfl) s
  | config =>
    rw [writeReg, writeConfig]
    exact writeLocked_changes fun hen => (Change.config s _ s.fs s.hpslo hen).one
  | fs =>
    rw [writeReg, writeFs]
    exact writeLocked_changes fun hen => (Change.config s s.config _ s.hpslo hen).one
  | hpslo =>
    rw [writeReg, writeHpslo]
    exact writeLocked_changes fun hen => (Change.config s s.config s.fs _ hen).one
  | thresh l => exact (Change.operands s _ s.arg0 s.arg1).one
  | arg0 => exact (Change.operands s s.thresh _ s.arg1).one
  | arg1 => exact (Change.operands s s.thresh s.arg0 _).one
  | sampleIn => exact (Change.captured s _).one
  | id | binw | cmd | cursor | out0 | out1 | result | freq | cents | peakbin | peakmag | notecount | firtaps => exact .refl

theorem changes_fault (f : Fault) (s : State) : Changes s (modelFault f (drawn s)) :=
  (Change.record s (recordFault f s.faults) (s.freeCtr + 1) fun g hg => (mem_recordFault f g _).mpr (.inr hg)).one

theorem writeTarget_changes {t : Target} {v : Word} (hstatus : t ≠ .reg .status)
    (hctrl : t = .reg .ctrl → v.getLsbD 31 = false) (s : State) : Changes s (writeTarget t v s) := by
  cases t with
  | reg r => exact writeReg_changes (fun h => hstatus (h ▸ rfl)) (fun h => hctrl (h ▸ rfl)) s
  | dec j =>
    rw [writeTarget, hostWriteDec]
    split_ifs
    · exact (changes_fault _ s).tail (.dec _ _ _)
    · exact (Change.dec s _ _).one
  | spec k l =>
    rw [writeTarget, hostWriteSpec]
    split_ifs
    · exact (changes_fault _ s).tail (.spec _ _ _)
    · exact (Change.spec s _ _).one
  | noteTab | firCoef | firDl | inp | reserved => exact .refl

/-! ## The step -/

/-- The offset of each register (R22). -/
def regOffset : Reg → Nat
  | .id => 0x000
  | .ctrl => 0x004
  | .config => 0x008
  | .fs => 0x00C
  | .hpslo => 0x010
  | .binw => 0x014
  | .cmd => 0x018
  | .status => 0x01C
  | .cursor => 0x020
  | .thresh l => 0x024 + 4 * l.val
  | .arg0 => 0x034
  | .arg1 => 0x038
  | .out0 => 0x03C
  | .out1 => 0x040
  | .result => 0x044
  | .freq => 0x048
  | .cents => 0x04C
  | .peakbin => 0x050
  | .peakmag l => 0x054 + 4 * l.val
  | .sampleIn => 0x064
  | .notecount => 0x068
  | .firtaps => 0x06C

/-- Only its own offset names a register (R22). -/
theorem eq_regOffset_of_regAt {a : Nat} {r : Reg} (h : regAt a = some r) : a = regOffset r := by
  unfold regAt at h
  split at h <;> cases h <;> rfl

theorem targetOf_regOffset (r : Reg) : targetOf (regOffset r) = .reg r := by
  cases r with
  | thresh l | peakmag l =>
    revert l
    decide
  | _ => rfl

theorem targetOf_eq_reg_iff {a : Nat} {r : Reg} : targetOf a = .reg r ↔ a = regOffset r := by
  constructor
  case mp =>
    intro h
    unfold targetOf at h
    split_ifs at h with hlow
    cases hreg : regAt a with
    | none => simp [hreg] at h
    | some r' => exact eq_regOffset_of_regAt (by simpa [hreg] using h)
  case mpr =>
    rintro rfl
    exact targetOf_regOffset r

/-- What a step is: a power-on reset, a soft reset, a `STATUS` write, or a row of elementary changes, the last of which may
be a move of the engine. -/
inductive StepKind (s : State) : State → Prop
  | powerOn {rest : List Input} (hin : s.inputs = .powerOn :: rest) :
      StepKind s (powerOnReset { s with inputs := rest })
  | soft {v : Word} {rest : List Input} (hin : s.inputs = .hostWrite 0x004 32 v :: rest) (hv : v.getLsbD 31 = true) :
      StepKind s (softReset { s with inputs := rest, resp := .ack })
  | status {v : Word} {rest : List Input} (hin : s.inputs = .hostWrite 0x01C 32 v :: rest) :
      StepKind s (writeStatus v { s with inputs := rest, resp := .ack })
  | changes {t : State} (hrow : Changes s t) : StepKind s t
  | move {u t : State} (hrow : Changes s u) (hmove : Move u t) : StepKind s t

theorem hostWrite_kind {addr : Offset} {width : Nat} {v : Word} {s t : State} {rest : List Input}
    (hin : s.inputs = .hostWrite addr width v :: rest)
    (h : hostWrite addr width v { s with inputs := rest } = .next t) : StepKind s t := by
  have htake := (Change.input s rest).one
  by_cases hok : accessOk addr width = true
  · obtain ⟨rfl, -⟩ : width = 32 ∧ addr.toNat % 4 = 0 := by simpa [accessOk] using hok
    have hack := changes_acknowledged s rest
    rw [hostWrite_good hok] at h
    split_ifs at h with hcmd
    · rcases offer_change_or_move h with hchange | hmove
      · exact .changes (hack.tail hchange)
      · exact .move hack hmove
    · cases h
      by_cases hstatus : targetOf addr.toNat = .reg .status
      · obtain rfl : addr = 0x01C := BitVec.eq_of_toNat_eq (targetOf_eq_reg_iff.mp hstatus)
        exact .status hin
      · by_cases hsoft : targetOf addr.toNat = .reg .ctrl ∧ v.getLsbD 31 = true
        · obtain ⟨hctrl, hv⟩ := hsoft
          obtain rfl : addr = 0x004 := BitVec.eq_of_toNat_eq (targetOf_eq_reg_iff.mp hctrl)
          rw [hctrl, writeTarget, writeReg, writeCtrl, if_pos hv]
          exact .soft hin hv
        · exact .changes (hack.trans (writeTarget_changes hstatus (fun hc => by simpa [hc] using hsoft) _))
  · rw [hostWrite_bad (Bool.not_eq_true _ ▸ hok)] at h
    cases h
    exact .changes (htake.tail (.answer _ _))

theorem step_kind {s t : State} (h : step s = .next t) : StepKind s t := by
  cases hin : s.inputs with
  | nil =>
    rw [step_nil hin] at h
    rcases engineTurn_move h with rfl | hmove
    · exact .changes .refl
    · exact .move .refl hmove
  | cons e rest =>
    have htake := (Change.input s rest).one
    rw [step_cons hin] at h
    cases e with
    | hostRead addr width =>
      cases h
      exact .changes (htake.trans (hostRead_changes addr width _))
    | hostWrite addr width v => exact hostWrite_kind hin h
    | capture v =>
      cases h
      exact .changes (htake.tail (.captured _ v))
    | engine =>
      rcases engineTurn_move h with rfl | hmove
      · exact .changes htake
      · exact .move htake hmove
    | powerOn =>
      cases h
      exact .powerOn hin

/-! ## Invariants -/

/-- What every elementary change keeps, a row of them keeps. -/
theorem Changes.keeps {P : State → Prop} {s t : State} (hchange : ∀ {u v}, Change u v → P u → P v) (h : Changes s t)
    (hs : P s) : P t := by
  induction h with
  | refl => exact hs
  | tail _ hlast ih => exact hchange hlast ih

/-- The induction behind every invariant: the two resets, the `STATUS` write, the elementary changes and the engine's
moves keep it, so every step does. -/
theorem step_keeps {P : State → Prop} (hpowerOn : ∀ {u}, P u → P (powerOnReset u))
    (hsoft : ∀ {u}, P u → P (softReset u)) (hstatus : ∀ {u} v, P u → P (writeStatus v u))
    (hchange : ∀ {u v}, Change u v → P u → P v) (hmove : ∀ {u v}, Move u v → P u → P v)
    {s t : State} (hs : P s) (h : step s = .next t) : P t := by
  cases step_kind h with
  | powerOn hin => exact hpowerOn (hchange (.input s _) hs)
  | soft hin hv => exact hsoft ((changes_acknowledged s _).keeps hchange hs)
  | status hin => exact hstatus _ ((changes_acknowledged s _).keeps hchange hs)
  | changes hrow => exact hrow.keeps hchange hs
  | move hrow hm => exact hmove hm (hrow.keeps hchange hs)

end Sys2Proof.Machine
end

section
/-! What no step changes or loses: the ROMs (R48, R49), recorded faults (R56), recorded errors (R252), the operands of a held
command (R122), and the canonical form of the memory. -/

namespace Sys2Proof.Machine

open Safety

/-- R123, log entry 10: no command stops the machine. -/
theorem exec_answers (i : Instr) (s : State) : ∃ t, exec i s = .next t := by
  cases h : s.eng with
  | idle => exact ⟨_, exec_of_idle h⟩
  | wait => exact ⟨_, exec_of_waiting h⟩
  | exec => exact ⟨_, exec_of_executing h⟩

theorem engineTurn_answers (s : State) : ∃ t, engineTurn s = .next t := by
  rcases engineTurn_cases s with ⟨-, h⟩ | ⟨-, h⟩
  · exact ⟨s, h⟩
  · exact h ▸ exec_answers _ s

theorem hostWrite_answers (addr : Offset) (width : Nat) (v : Word) (s : State) :
    ∃ t, hostWrite addr width v s = .next t := by
  by_cases hok : accessOk addr width = true
  · rw [hostWrite_good hok]
    split_ifs
    · rcases offer_cases v { s with resp := .ack } with ⟨-, h⟩ | ⟨-, -, h⟩ | ⟨i, -, -, h⟩
      · exact ⟨_, h⟩
      · exact ⟨_, h⟩
      · exact h ▸ exec_answers i _
    · exact ⟨_, rfl⟩
  · exact ⟨_, hostWrite_bad (Bool.not_eq_true _ ▸ hok) v s⟩

/-- Settles O7: each agent's step answers. -/
theorem stepAlwaysAnswers : Obligations.StepAlwaysAnswers := by
  unfold Obligations.StepAlwaysAnswers
  intro s
  cases hin : s.inputs with
  | nil => exact step_nil hin ▸ engineTurn_answers s
  | cons e rest =>
    rw [step_cons hin]
    cases e with
    | hostWrite addr width v => exact hostWrite_answers addr width v _
    | engine => exact engineTurn_answers _
    | hostRead | capture | powerOn => exact ⟨_, rfl⟩

/-! ## The ROMs -/

section
variable {s t : State}

theorem claim_eq (hready : s.slot s.rdslot = .ready) : claim s =
    { setSlot s.rdslot .claimed s with latched := { s.latched with slot := s.rdslot }, eng := .exec } :=
  if_pos hready

/-- No elementary change writes the ROMs, or is a step of the command lifecycle. -/
theorem Change.kept (h : Change s t) : t.rom = s.rom ∧ t.eng = s.eng ∧ t.latched = s.latched := by
  cases h with
  | captured v =>
    obtain ⟨m, sl0, sl1, fr, cu, fs, hcap⟩ := captureEvent_state v s
    rw [hcap]
    exact ⟨rfl, rfl, rfl⟩
  | _ => exact ⟨rfl, rfl, rfl⟩

theorem Move.rom_eq (h : Move s t) : t.rom = s.rom := by
  cases h with
  | accepted i => rfl
  | claimed _ hready => rw [claim_eq hready]; rfl
  | completed =>
    obtain ⟨m, dl, o0, o1, r, f, ce, pb, pm, fs, c, hbody⟩ := bodyOf_state s.latched.op s
    rw [hbody]
    rfl

end

/-- Settles O46: each elementary change, each move of the engine and each reset keeps the ROMs. -/
theorem stepKeepsTheRoms : Obligations.StepKeepsTheRoms := by
  unfold Obligations.StepKeepsTheRoms
  intro s t h
  exact step_keeps (P := fun u => u.rom = s.rom) id id (fun v hu => by rwa [writeStatus_eq])
    (fun hc hu => hc.kept.1.trans hu) (fun hm hu => hm.rom_eq.trans hu) rfl h

/-! ## The fault record -/

section
variable {s t : State}

/-- A fault is only ever added (R56). -/
theorem Change.faults (h : Change s t) {f : Fault} (hf : f ∈ s.faults) : f ∈ t.faults := by
  cases h with
  | record fs c hkept => exact hkept f hf
  | captured v => exact captureEvent_faults v hf
  | _ => exact hf

theorem Move.faults (h : Move s t) {f : Fault} (hf : f ∈ s.faults) : f ∈ t.faults := by
  cases h with
  | accepted i => exact hf
  | claimed _ hready => rw [claim_eq hready]; exact hf
  | completed => exact bodyOf_faults s.latched.op hf

end

/-- Settles O59: only a power-on reset clears the record. -/
theorem faultRecordIsSticky : Obligations.FaultRecordIsSticky := by
  unfold Obligations.FaultRecordIsSticky
  intro s t hnot h f hf
  have hkeep {u : State} (hrow : Changes s u) : f ∈ u.faults := hrow.keeps (fun hc hu => hc.faults hu) hf
  cases step_kind h with
  | powerOn hin => exact absurd hin (hnot _)
  | soft => exact hf
  | status =>
    rw [writeStatus_eq]
    exact hf
  | changes hrow => exact hkeep hrow
  | move hrow hm => exact hm.faults (hkeep hrow)

/-! ## The error record -/

section
variable {s t : State}

theorem Change.err_of_some (h : Change s t) {c : ErrCode} (hs : s.err = some c) : t.err = some c := by
  cases h with
  | error c' => rw [raiseError_of_some hs, hs]
  | captured v =>
    obtain ⟨m, sl0, sl1, fr, cu, fs, hcap⟩ := captureEvent_state v s
    rw [hcap, hs]
  | _ => exact hs

/-- R251: no move of the engine touches the error record. -/
theorem Move.err_eq (h : Move s t) : t.err = s.err := by
  cases h with
  | accepted i => rfl
  | claimed _ hready => rw [claim_eq hready]; rfl
  | completed =>
    obtain ⟨m, dl, o0, o1, r, f, ce, pb, pm, fs, c, hbody⟩ := bodyOf_state s.latched.op s
    rw [hbody]
    rfl

end

/-- Settles O12: a capture event changes the hand-off only, and the engine's turn is nothing or one of its moves. -/
theorem engineAndCaptureRaiseNoError : Obligations.EngineAndCaptureRaiseNoError := by
  unfold Obligations.EngineAndCaptureRaiseNoError
  intro s t hin h
  have hturn {u : State} (hu : engineTurn u = .next t) : t.err = u.err := by
    rcases engineTurn_move hu with rfl | hm
    · rfl
    · exact hm.err_eq
  rcases hin with hin | ⟨rest, hin⟩ | ⟨v, rest, hin⟩
  · exact hturn (step_nil hin ▸ h)
  · exact hturn (u := { s with inputs := rest }) ((step_cons hin).symm.trans h)
  · obtain rfl := Host.Outcome.next.inj ((step_cons hin).symm.trans h)
    obtain ⟨m, sl0, sl1, fr, cu, fs, hcap⟩ := captureEvent_state v { s with inputs := rest }
    rw [hcap]

/-- Settles O38: a reset or a `STATUS` write with bit 3 set clears the error, and every other step keeps it. -/
theorem firstErrorIsKept : Obligations.FirstErrorIsKept := by
  unfold Obligations.FirstErrorIsKept
  intro s t c hs h
  have hkeep {u : State} (hrow : Changes s u) : u.err = some c := hrow.keeps (fun hc hu => hc.err_of_some hu) hs
  cases step_kind h with
  | powerOn hin => exact .inr ⟨rfl, .inl ⟨_, hin⟩⟩
  | soft hin hv => exact .inr ⟨rfl, .inr (.inl ⟨_, _, hin, hv⟩)⟩
  | @status v rest hin =>
    rw [writeStatus_eq]
    by_cases hv : v.getLsbD 3 = true
    · exact .inr ⟨if_pos hv, .inr (.inr ⟨_, _, hin, hv⟩)⟩
    · exact .inl ((if_neg hv).trans hs)
  | changes hrow => exact .inl (hkeep hrow)
  | move hrow hm => exact .inl (hm.err_eq.trans (hkeep hrow))

/-! ## The operands of a held command -/

section
variable {s t : State}

theorem Changes.eng_eq (h : Changes s t) : t.eng = s.eng :=
  h.keeps (P := fun u => u.eng = s.eng) (fun hc hu => hc.kept.2.1.trans hu) rfl

theorem Changes.latched_eq (h : Changes s t) : t.latched = s.latched :=
  h.keeps (P := fun u => u.latched = s.latched) (fun hc hu => hc.kept.2.2.trans hu) rfl

theorem bodyOf_latched (i : Instr) (s : State) : (bodyOf i s).latched = s.latched := by
  obtain ⟨m, dl, o0, o1, r, f, ce, pb, pm, fs, c, hbody⟩ := bodyOf_state i s
  rw [hbody]
  rfl

/-- R122, R229: of a held command's operands the claim sets the slot, and no other move sets any. -/
theorem Move.latched (h : Move s t) (hheld : s.eng ≠ .idle) :
    t.latched = { s.latched with slot := t.latched.slot } ∧ (s.eng = .exec → t.latched.slot = s.latched.slot) := by
  cases h with
  | accepted i hidle => exact absurd hidle hheld
  | claimed hwait hready =>
    rw [claim_eq hready]
    exact ⟨rfl, fun hexec => by rw [hwait] at hexec; cases hexec⟩
  | completed =>
    rw [complete_latched, bodyOf_latched]
    exact ⟨rfl, fun _ => rfl⟩

end

/-- Settles O11: elementary changes keep `latched`, and of the moves an acceptance needs the engine idle. -/
theorem heldCommandKeepsItsOperands : Obligations.HeldCommandKeepsItsOperands := by
  unfold Obligations.HeldCommandKeepsItsOperands
  intro s t hheld hnoReset hnoSoft h
  have hsame {u : State} (hu : u.latched = s.latched) :
      u.latched = { s.latched with slot := u.latched.slot } ∧ (s.eng = .exec → u.latched.slot = s.latched.slot) := by
    rw [hu]
    exact ⟨rfl, fun _ => rfl⟩
  cases step_kind h with
  | powerOn hin => exact absurd hin (hnoReset _)
  | soft hin hv => exact absurd hin (hnoSoft _ _ hv)
  | status => exact hsame (by rw [writeStatus_eq])
  | changes hrow => exact hsame hrow.latched_eq
  | move hrow hm =>
    rw [← hrow.eng_eq] at hheld
    rw [← hrow.eng_eq, ← hrow.latched_eq]
    exact hm.latched hheld

/-! ## The form of the memory (log entry 12) -/

section
variable {s t : State}

theorem Change.memoryOk (h : Change s t) (hs : MemoryOk s) : MemoryOk t := by
  cases h with
  | dec j v => exact wf_setEntry hs _ _ _
  | spec k v => exact wf_setEntry hs _ _ _
  | captured v =>
    rw [captureEvent_explicit]
    split
    · exact wf_setEntry hs _ _ _
    · exact hs
  | _ => exact hs

theorem Move.memoryOk (h : Move s t) (hs : MemoryOk s) : MemoryOk t := by
  cases h with
  | accepted i => exact hs
  | claimed _ hready => rw [claim_eq hready]; exact hs
  | completed => exact (stores_bodyOf s.latched.op s).wf hs

end

/-- Settles O57: whatever is stored is stored as entries, and a reset leaves an empty memory. -/
theorem stepKeepsMemoryForm : Obligations.StepKeepsMemoryForm := by
  unfold Obligations.StepKeepsMemoryForm
  intro s t hs h
  exact step_keeps (P := MemoryOk) (fun _ => wf_nil) (fun _ => wf_nil)
    (fun v hu => by rw [writeStatus_eq]; exact hu) Change.memoryOk Move.memoryOk hs h

end Sys2Proof.Machine
end

section
/-! The control invariant (R20, R31, R47, R53, R121, R131, R228) is kept by every step. -/

namespace Sys2Proof.Machine

open Safety

/-- What the control invariant speaks of. -/
def controlPart (s : State) : Bool × Bool × ConfigReg × BitVec 17 × BitVec 11 × Engine × Byte × SlotState × SlotState ×
    BitVec 17 × List Sample × Latched × Cfg × Rom :=
  (s.ctrl.en, s.ctrl.rawin, s.config, s.fs, s.hpslo, s.eng, s.curcmd, s.slot0, s.slot1, s.cursor, s.dl, s.latched, s.cfg,
    s.rom)

section
variable {s t : State}

theorem controlOk_congr (h : ControlOk s) (heq : controlPart t = controlPart s) : ControlOk t := by
  obtain ⟨⟨_, _, _, _, _, _⟩, _⟩ := s
  obtain ⟨⟨_, _, _, _, _, _⟩, _⟩ := t
  cases heq
  exact ⟨h.dl, h.legal, h.cfg, h.started, h.waits, h.cents, h.curcmd, h.stopped, h.cursor⟩

/-- R57: the reset state is a stopped, idle block. -/
theorem controlOk_reset (r : Rom) : ControlOk (State.resetWith r) where
  dl := List.length_replicate
  legal := nofun
  cfg := nofun
  started h := absurd rfl h
  waits := nofun
  cents h := absurd rfl h
  curcmd h := absurd rfl h
  stopped _ := ⟨rfl, rfl, rfl⟩
  cursor := nofun

/-- R101: every command that claims a slot needs the block started. -/
theorem needsEN_of_claimsSlot {i : Instr} (h : claimsSlot i = true) : needsEN i = true := by
  rcases claimsSlot_iff.mp h with rfl | rfl <;> rfl

/-- A stopped block may be configured anew (R133). -/
theorem controlOk_reconfigured (h : ControlOk s) (hstopped : s.ctrl.en = false) (c : ConfigReg) (f : BitVec 17)
    (l : BitVec 11) (b : Bool) :
    ControlOk { s with config := c, fs := f, hpslo := l, ctrl := { s.ctrl with rawin := b } } where
  dl := h.dl
  legal hen := absurd hen (by simp [hstopped])
  cfg hen := absurd hen (by simp [hstopped])
  started := h.started
  waits := h.waits
  cents := h.cents
  curcmd := h.curcmd
  stopped := h.stopped
  cursor hen := absurd hen (by simp [hstopped])

/-- R131: a legal configuration has frames of 32 to 65536 samples. -/
theorem frame_bounds_of_legal (hlegal : legalConfig s = true) :
    32 ≤ (cfgOfRegisters s).n * (cfgOfRegisters s).d ∧ (cfgOfRegisters s).n * (cfgOfRegisters s).d ≤ 65536 := by
  simp only [legalConfig, Bool.and_eq_true, decide_eq_true_eq] at hlegal
  obtain ⟨⟨⟨⟨⟨⟨⟨⟨hlo, hhi⟩, hosf⟩, hosf'⟩, -⟩, -⟩, -⟩, -⟩, -⟩ := hlegal
  have hn : 2 ^ 5 ≤ 2 ^ s.config.log2n.toNat := Nat.pow_le_pow_right two_pos hlo
  have hn' : 2 ^ s.config.log2n.toNat ≤ 2 ^ 12 := Nat.pow_le_pow_right two_pos hhi
  exact ⟨Nat.mul_le_mul hn hosf, Nat.mul_le_mul hn' hosf'⟩

theorem controlOk_start (hidle : s.eng = .idle) (hlegal : legalConfig s = true) : ControlOk (startPipeline s) where
  dl := List.length_replicate
  legal _ := hlegal
  cfg _ := rfl
  started h := absurd hidle h
  waits h := by
    have hwait : s.eng = .wait := h
    rw [hidle] at hwait
    cases hwait
  cents h := absurd hidle h
  curcmd h := absurd hidle h
  stopped := nofun
  cursor _ := by
    have hnd := (frame_bounds_of_legal hlegal).1
    show 0 < 2 * ((cfgOfRegisters s).n * (cfgOfRegisters s).d)
    omega

theorem controlOk_stop (h : ControlOk s) (hidle : s.eng = .idle) : ControlOk (stopPipeline s) where
  dl := h.dl
  legal := nofun
  cfg := nofun
  started hne := absurd hidle hne
  waits := h.waits
  cents := h.cents
  curcmd := h.curcmd
  stopped _ := ⟨rfl, rfl, rfl⟩
  cursor := nofun

/-- R223: a capture event moves the cursor of a started block within its range. -/
theorem controlOk_capture (h : ControlOk s) (v : BitVec 16) : ControlOk (captureEvent v s) := by
  rw [captureEvent_explicit]
  split
  case isFalse => exact h
  case isTrue hen =>
    refine ⟨h.dl, h.legal, h.cfg, h.started, h.waits, h.cents, h.curcmd, fun hoff => ?stopped, fun _ => ?cursor⟩
    case stopped => exact absurd (hen.symm.trans hoff) (by decide)
    case cursor =>
      have hcur := h.cursor hen
      calc (BitVec.ofNat 17 ((s.cursor.toNat + 1) % (2 * s.nd))).toNat
          ≤ (s.cursor.toNat + 1) % (2 * s.nd) := by rw [BitVec.toNat_ofNat]; exact Nat.mod_le _ _
        _ < 2 * s.nd := Nat.mod_lt _ (by omega)

theorem Change.controlOk (h : Change s t) (hs : ControlOk s) : ControlOk t := by
  cases h with
  | config c f l hstopped => exact controlOk_reconfigured hs hstopped c f l s.ctrl.rawin
  | rawin b hstopped => exact controlOk_reconfigured hs hstopped s.config s.fs s.hpslo b
  | start hstopped hidle hlegal => exact controlOk_start hidle hlegal
  | stop hidle => exact controlOk_stop hs hidle
  | captured v => exact controlOk_capture hs v
  | input | answer | record | error | operands | freeCtrl | dec | spec => exact controlOk_congr hs rfl

theorem controlOk_accept (h : ControlOk s) {i : Instr} (hen : needsEN i = true → s.ctrl.en = true)
    (harg : i = .cents → s.arg0 ≠ 0 ∧ s.arg1 ≠ 0) : ControlOk (accept i s) where
  dl := h.dl
  legal := h.legal
  cfg := h.cfg
  started _ := hen
  waits hwait := by
    rw [accept_eng] at hwait
    split at hwait
    case isTrue hclaims => exact hclaims
    case isFalse => cases hwait
  cents _ := harg
  curcmd _ := rfl
  stopped := h.stopped
  cursor := h.cursor

theorem controlOk_claim (h : ControlOk s) (hwait : s.eng = .wait) (hready : s.slot s.rdslot = .ready) :
    ControlOk (claim s) := by
  have hheld : s.eng ≠ .idle := by rw [hwait]; decide
  have hclaims := h.waits hwait
  rw [claim_eq hready]
  exact {
    dl := h.dl
    legal := h.legal
    cfg := h.cfg
    started := fun _ => h.started hheld
    waits := nofun
    cents := fun _ => h.cents hheld
    curcmd := fun _ => h.curcmd hheld
    stopped := fun hoff =>
      absurd ((h.started hheld (needsEN_of_claimsSlot hclaims)).symm.trans hoff) (by decide)
    cursor := h.cursor }

/-- R124: a completed command leaves an idle engine, and the slots of a stopped block empty. -/
theorem controlOk_complete (h : ControlOk s) (i : Instr) : ControlOk (complete (bodyOf i s)) := by
  have hdl := bodyOf_dl_length i h.dl
  obtain ⟨m, dl, o0, o1, r, f, ce, pb, pm, fs, c, hbody⟩ := bodyOf_state i s
  rw [hbody] at hdl ⊢
  exact {
    dl := hdl
    legal := h.legal
    cfg := h.cfg
    started := fun hne => absurd rfl hne
    waits := nofun
    cents := fun hne => absurd rfl hne
    curcmd := fun hne => absurd rfl hne
    stopped := fun hoff => by
      obtain ⟨h0, h1, hcur⟩ := h.stopped hoff
      simp [release, h0, h1, hcur]
    cursor := h.cursor }

theorem Move.controlOk (h : Move s t) (hs : ControlOk s) : ControlOk t := by
  cases h with
  | accepted i _ hen harg => exact controlOk_accept hs hen harg
  | claimed hwait hready => exact controlOk_claim hs hwait hready
  | completed => exact controlOk_complete hs s.latched.op

theorem controlOk_writeStatus (h : ControlOk s) (v : Word) : ControlOk (writeStatus v s) := by
  rw [writeStatus_eq]
  exact controlOk_congr h rfl

end

/-- Settles O54: each elementary change and each move of the engine keeps the invariant, and a reset establishes it. -/
theorem stepKeepsControl : Obligations.StepKeepsControl := by
  unfold Obligations.StepKeepsControl
  intro s t hs h
  exact step_keeps (P := ControlOk) (fun {u} _ => controlOk_congr (controlOk_reset u.rom) rfl)
    (fun {u} _ => controlOk_congr (controlOk_reset u.rom) rfl) (fun v hu => controlOk_writeStatus hu v)
    Change.controlOk Move.controlOk hs h

end Sys2Proof.Machine
end

section
/-! The slot geometry (R227) and what a capture event does to it and to the frames (R85, R223 to R226). -/

namespace Sys2Proof.Machine

open Safety

/-! ## The position of the cursor (R227) -/

section
variable {s t : State}

/-- Position `p` of slot `b` is where the cursor is, if it is at that entry. -/
theorem position_of_cursor {b : Bool} {p : Nat} (hcur : s.cursor.toNat = s.slotBase b + p) (hp : p < s.nd) :
    s.curSlot = b ∧ s.curPos = p := by
  rw [State.curSlot, State.curPos, hcur, State.slotBase]
  cases b
  case false => simp [Nat.mod_eq_of_lt hp, Nat.div_eq_of_lt hp]
  case true => simp [Nat.mod_eq_of_lt hp, Nat.div_eq_of_lt hp, Nat.add_div_left p (show 0 < s.nd by omega)]

theorem curPos_lt (hnd : 1 ≤ s.nd) : s.curPos < s.nd := Nat.mod_lt _ hnd

theorem cursor_eq (hcur : s.cursor.toNat < 2 * s.nd) : s.cursor.toNat = s.slotBase s.curSlot + s.curPos := by
  by_cases hlow : s.cursor.toNat < s.nd
  · obtain ⟨hslot, hpos⟩ := position_of_cursor (s := s) (b := false) (p := s.cursor.toNat) (Nat.zero_add _).symm hlow
    rw [hslot, hpos, State.slotBase, if_neg Bool.false_ne_true, Nat.zero_add]
  · have hsplit : s.cursor.toNat = s.slotBase true + (s.cursor.toNat - s.nd) := by
      rw [State.slotBase, if_pos rfl]
      omega
    obtain ⟨hslot, hpos⟩ := position_of_cursor hsplit (by omega)
    rw [hslot, hpos]
    exact hsplit

theorem curSlot_eq (hcur : s.cursor.toNat < 2 * s.nd) : s.curSlot = decide (s.nd ≤ s.cursor.toNat) := by
  have hpos := curPos_lt (s := s) (by omega)
  rw [cursor_eq hcur, eq_comm]
  cases s.curSlot
  case false => simpa [State.slotBase] using hpos
  case true => simp [State.slotBase]

/-- What the geometry of a capture event needs: a frame of at least one sample, two of which the cursor can count. -/
structure InRange (s : State) : Prop where
  pos : 1 ≤ s.nd
  fits : 2 * s.nd ≤ 131072
  cursor : s.cursor.toNat < 2 * s.nd

/-- R31, R131: a started block is in range. -/
theorem inRange_of_started (h : ControlOk s) (hen : s.ctrl.en = true) : InRange s := by
  have hbounds := frame_bounds_of_legal (h.legal hen)
  rw [← h.cfg hen] at hbounds
  obtain ⟨hlo, hhi⟩ := hbounds
  exact ⟨by unfold State.nd; omega, by unfold State.nd; omega, h.cursor hen⟩

/-! ## The step of a capture event (R223) -/

theorem cursor_captured (h : InRange s) (v : BitVec 16) :
    (captured v s).cursor.toNat = (s.cursor.toNat + 1) % (2 * s.nd) := by
  have hlt : (s.cursor.toNat + 1) % (2 * s.nd) < 2 * s.nd := Nat.mod_lt _ (by have := h.pos; omega)
  have hfits := h.fits
  show (BitVec.ofNat 17 _).toNat = _
  rw [BitVec.toNat_ofNat, Nat.mod_eq_of_lt (by omega)]

/-- R225: after the last sample of a slot the cursor is at the start of the other. -/
theorem position_captured_last (h : InRange s) (v : BitVec 16) (hlast : s.curPos + 1 = s.nd) :
    (captured v s).curSlot = !s.curSlot ∧ (captured v s).curPos = 0 := by
  have hcur := cursor_eq h.cursor
  refine position_of_cursor ?_ h.pos
  rw [cursor_captured h, hcur, State.slotBase, State.slotBase, Nat.add_assoc, hlast]
  show _ = (if !s.curSlot then s.nd else 0) + 0
  cases s.curSlot
  case false => simpa using Nat.mod_eq_of_lt (show s.nd < 2 * s.nd by have := h.pos; omega)
  case true => simp [← two_mul]

/-- R223: before it, the cursor moves on in its slot. -/
theorem position_captured_inner (h : InRange s) (v : BitVec 16) (hinner : s.curPos + 1 ≠ s.nd) :
    (captured v s).curSlot = s.curSlot ∧ (captured v s).curPos = s.curPos + 1 := by
  have hcur := cursor_eq h.cursor
  have hpos := curPos_lt h.pos
  have hlt : s.curPos + 1 < s.nd := by omega
  have hbase : s.slotBase s.curSlot ≤ s.nd := by
    unfold State.slotBase
    split <;> omega
  refine position_of_cursor ?_ hlt
  rw [cursor_captured h, hcur, Nat.mod_eq_of_lt (by omega), Nat.add_assoc]
  rfl

theorem slot_captured (v : BitVec 16) (s : State) (b : Bool) :
    (captured v s).slot b = if b = s.curSlot then nextSlot s else s.slot b := by
  cases b <;> cases h : s.curSlot <;> simp [captured, State.slot, h]

/-- R223: of `IN`, the entry at the cursor is stored. -/
theorem inp_captured_same (v : BitVec 16) (s : State) :
    (captured v s).inp s.cursor.toNat = some (conv s.cfg.rawin s.cfg.adcw v) :=
  inp_writeIn_same s.cursor.toNat (conv s.cfg.rawin s.cfg.adcw v) s

theorem inp_captured_ne (v : BitVec 16) (s : State) {a : Nat} (ha : a ≠ s.cursor.toNat) :
    (captured v s).inp a = s.inp a :=
  inp_writeIn_ne ha (conv s.cfg.rawin s.cfg.adcw v) s

theorem inWritten_captured (v : BitVec 16) {a : Nat} (h : InWritten s a) : InWritten (captured v s) a :=
  entry_isSome_setEntry (conv s.cfg.rawin s.cfg.adcw v) h

theorem inWritten_captured_cursor (v : BitVec 16) (s : State) : InWritten (captured v s) s.cursor.toNat := by
  rw [InWritten, inp_captured_same]
  rfl

/-! ## The frames -/

/-- Frames stay written while nothing is unwritten, no slot becomes full, and the cursor stays. -/
theorem framesWritten_of_kept (h : FramesWritten s) (hen : t.ctrl.en = s.ctrl.en) (hcfg : t.cfg = s.cfg)
    (hcur : t.cursor = s.cursor) (hfull : ∀ b, Full t b → Full s b) (hin : ∀ a, InWritten s a → InWritten t a) :
    FramesWritten t := by
  have hnd : t.nd = s.nd := by rw [State.nd, State.nd, hcfg]
  have hbase (b : Bool) : t.slotBase b = s.slotBase b := by rw [State.slotBase, State.slotBase, hnd]
  have hslot : t.curSlot = s.curSlot := by rw [State.curSlot, State.curSlot, hcur, hnd]
  have hpos : t.curPos = s.curPos := by rw [State.curPos, State.curPos, hcur, hnd]
  refine ⟨fun hent n hn => hin _ ?_, fun b hb n hn => hin _ ?_⟩
  · rw [hslot, hbase]
    exact h.partly (hen ▸ hent) n (hpos ▸ hn)
  · rw [hbase]
    exact h.wholly b (hfull b hb) n (hnd ▸ hn)

/-- With the cursor at 0 and both slots empty nothing is captured yet. -/
theorem framesWritten_of_empty (h0 : s.slot0 = .empty) (h1 : s.slot1 = .empty) (hcur : s.cursor = 0) :
    FramesWritten s := by
  have hpos : s.curPos = 0 := by rw [State.curPos, hcur]; exact Nat.zero_mod _
  have hempty (b : Bool) : s.slot b = .empty := by cases b <;> simp [State.slot, h0, h1]
  refine ⟨fun _ n hn => ?_, fun b hb => ?_⟩
  · rw [hpos] at hn
    exact absurd hn n.not_lt_zero
  · rw [hempty b] at hb
    rcases hb with hb | hb <;> cases hb

/-- R225: the sample at the cursor extends the part of its slot that is written by one. -/
theorem framesWritten_captured (h : FramesWritten s) (hen : s.ctrl.en = true) (hrange : InRange s) (v : BitVec 16) :
    FramesWritten (captured v s) := by
  have hpart (n : Nat) (hn : n < s.curPos + 1) : InWritten (captured v s) (s.slotBase s.curSlot + n) := by
    rcases Nat.lt_succ_iff_lt_or_eq.mp hn with hbefore | rfl
    · exact inWritten_captured v (h.partly hen n hbefore)
    · rw [← cursor_eq hrange.cursor]
      exact inWritten_captured_cursor v s
  refine ⟨fun _ n hn => ?partly, fun b hb n hn => ?wholly⟩
  case partly =>
    by_cases hlast : s.curPos + 1 = s.nd
    · rw [(position_captured_last hrange v hlast).2] at hn
      exact absurd hn n.not_lt_zero
    · obtain ⟨hslot, hpos⟩ := position_captured_inner hrange v hlast
      rw [hpos] at hn
      rw [hslot]
      exact hpart n hn
  case wholly =>
    have hbefore (hfull : Full s b) : InWritten (captured v s) (s.slotBase b + n) :=
      inWritten_captured v (h.wholly b hfull n hn)
    rw [slot_captured, nextSlot] at hb
    split_ifs at hb with hcur hlast hfirst
    · subst hcur
      exact hpart n (hlast ▸ hn)
    · rcases hb with hb | hb <;> cases hb
    · exact hbefore (hcur ▸ hb)
    · exact hbefore hb

theorem framesWritten_capture (hctl : ControlOk s) (h : FramesWritten s) (v : BitVec 16) :
    FramesWritten (captureEvent v s) := by
  rw [captureEvent_explicit]
  split
  case isFalse => exact h
  case isTrue hen =>
    exact framesWritten_of_kept (framesWritten_captured h hen (inRange_of_started hctl hen) v) rfl rfl rfl (fun _ => id)
      fun _ => id

theorem Change.framesWritten (h : Change s t) (hctl : ControlOk s) (hs : FramesWritten s) : FramesWritten t := by
  cases h with
  | start => exact framesWritten_of_empty rfl rfl rfl
  | stop => exact framesWritten_of_empty rfl rfl rfl
  | captured v => exact framesWritten_capture hctl hs v
  | dec j v => exact framesWritten_of_kept hs rfl rfl rfl (fun _ => id) fun a ha => entry_isSome_setEntry v ha
  | spec k v => exact framesWritten_of_kept hs rfl rfl rfl (fun _ => id) fun a ha => entry_isSome_setEntry v ha
  | input | answer | record | error | operands | config | freeCtrl | rawin =>
    exact framesWritten_of_kept hs rfl rfl rfl (fun _ => id) fun _ => id

theorem Move.framesWritten (h : Move s t) (hs : FramesWritten s) : FramesWritten t := by
  cases h with
  | accepted i => exact framesWritten_of_kept hs rfl rfl rfl (fun _ => id) fun _ => id
  | claimed _ hready =>
    refine framesWritten_of_kept hs ?_ ?_ ?_ (fun b hb => ?_) fun a ha => ?_ <;> rw [claim_eq hready] at *
    · rfl
    · rfl
    · rfl
    · by_cases hb' : b = s.rdslot
      · exact .inl (hb' ▸ hready)
      · change (setSlot s.rdslot .claimed s).slot b = .ready ∨ (setSlot s.rdslot .claimed s).slot b = .claimed at hb
        rwa [slot_setSlot, if_neg hb'] at hb
    · exact ha
  | completed =>
    have hkept (a : Nat) (ha : InWritten s a) : InWritten (complete (bodyOf s.latched.op s)) a :=
      (stores_bodyOf s.latched.op s).entry_isSome ha
    obtain ⟨m, dl, o0, o1, r, f, ce, pb, pm, fs, c, hbody⟩ := bodyOf_state s.latched.op s
    rw [hbody] at hkept ⊢
    refine framesWritten_of_kept hs rfl rfl rfl (fun b hb => ?_) hkept
    change (release s.latched.op s).slot b = .ready ∨ (release s.latched.op s).slot b = .claimed at hb
    rw [slot_release] at hb
    split_ifs at hb
    · rcases hb with hb | hb <;> cases hb
    · exact hb

end

/-- Settles O55, along with the control invariant, which gives the cursor its range. -/
theorem stepKeepsFramesWritten : Obligations.StepKeepsFramesWritten := by
  unfold Obligations.StepKeepsFramesWritten
  intro s t hctl hs h
  have hboth : ControlOk t ∧ FramesWritten t := step_keeps (P := fun u => ControlOk u ∧ FramesWritten u)
    (fun {u} _ => ⟨controlOk_congr (controlOk_reset u.rom) rfl, framesWritten_of_empty rfl rfl rfl⟩)
    (fun {u} _ => ⟨controlOk_congr (controlOk_reset u.rom) rfl, framesWritten_of_empty rfl rfl rfl⟩)
    (fun v hu => ⟨controlOk_writeStatus hu.1 v, by
      rw [writeStatus_eq]
      exact framesWritten_of_kept hu.2 rfl rfl rfl (fun _ => id) fun _ => id⟩)
    (fun hc hu => ⟨hc.controlOk hu.1, hc.framesWritten hu.1 hu.2⟩)
    (fun hm hu => ⟨hm.controlOk hu.1, hm.framesWritten hu.2⟩) ⟨hctl, hs⟩ h
  exact hboth.2

end Sys2Proof.Machine
end

section
/-! The hand-off of the slots (R85, R224, R228, R229, R230) is kept by every step that records no fault. -/

namespace Sys2Proof.Machine

open Safety

/-- What the hand-off invariant speaks of. -/
def handoffPart (s : State) : Bool × BitVec 17 × Cfg × SlotState × SlotState × Bool × Engine × Latched :=
  (s.ctrl.en, s.cursor, s.cfg, s.slot0, s.slot1, s.rdslot, s.eng, s.latched)

section
variable {s t : State}

theorem handoffOk_congr (h : HandoffOk s) (heq : handoffPart t = handoffPart s) : HandoffOk t := by
  obtain ⟨⟨_, _, _, _, _, _⟩, _⟩ := s
  obtain ⟨⟨_, _, _, _, _, _⟩, _⟩ := t
  cases heq
  exact ⟨h.filling, h.fillingOnly, h.claimed, h.order⟩

/-- With the cursor at 0, both slots empty and no command executing, nothing is handed off; a started block begins with
slot 0. -/
theorem handoffOk_of_empty (h0 : s.slot0 = .empty) (h1 : s.slot1 = .empty) (hcur : s.cursor = 0) (hexec : s.eng ≠ .exec)
    (hrd : s.ctrl.en = true → s.rdslot = false) : HandoffOk s := by
  have hempty (b : Bool) : s.slot b = .empty := by cases b <;> simp [State.slot, h0, h1]
  have hpos : s.curPos = 0 := by rw [State.curPos, hcur]; exact Nat.zero_mod _
  have hslot : s.curSlot = false := by rw [State.curSlot, hcur]; simp
  exact {
    filling := fun _ hne => absurd hpos hne
    fillingOnly := fun b hb => by rw [hempty b] at hb; cases hb
    claimed := fun b => iff_of_false (by rw [hempty b]; nofun) fun ⟨he, _⟩ => hexec he
    order := fun hen => .inl ⟨hslot.trans (hrd hen).symm, .inl (hempty _), hempty _⟩ }

/-! ## Capture events -/

/-- R226: a sample that starts no slot but an `EMPTY` one finds its slot `EMPTY` at position 0, else `FILLING`. -/
theorem slot_curSlot (h : HandoffOk s) (hen : s.ctrl.en = true) (hstart : s.curPos = 0 → s.slot s.curSlot = .empty) :
    Filling s s.curSlot := by
  by_cases hpos : s.curPos = 0
  · exact .inl (hstart hpos)
  · exact .inr (h.filling hen hpos)

theorem nextSlot_inner (h : HandoffOk s) (hen : s.ctrl.en = true) (hinner : s.curPos + 1 ≠ s.nd) :
    nextSlot s = .filling := by
  rw [nextSlot, if_neg hinner]
  split_ifs with hpos
  · rfl
  · exact h.filling hen hpos

/-- R228 item 4: a sample of a slot that is not its last leaves the order as it is, and the last one publishes the slot. -/
theorem order_captured (h : HandoffOk s) (hen : s.ctrl.en = true) (hrange : InRange s)
    (hstart : s.curPos = 0 → s.slot s.curSlot = .empty) (v : BitVec 16) :
    ((captured v s).curSlot = s.rdslot ∧ Filling (captured v s) s.rdslot ∧ (captured v s).slot (!s.rdslot) = .empty) ∨
    ((captured v s).curSlot = !s.rdslot ∧ Full (captured v s) s.rdslot ∧ Filling (captured v s) (!s.rdslot)) ∨
    ((captured v s).curSlot = s.rdslot ∧ (captured v s).curPos = 0 ∧ Full (captured v s) s.rdslot ∧
      (captured v s).slot (!s.rdslot) = .ready) := by
  have hself : ¬(s.rdslot = !s.rdslot) := by cases s.rdslot <;> decide
  have hself' : ¬((!s.rdslot) = s.rdslot) := fun hx => hself hx.symm
  unfold Filling Full
  simp only [slot_captured]
  by_cases hlast : s.curPos + 1 = s.nd
  case pos =>
    have hnext : nextSlot s = .ready := if_pos hlast
    obtain ⟨hcs, hcp⟩ := position_captured_last hrange v hlast
    rcases h.order hen with ⟨hcur, -, hother⟩ | ⟨hcur, hfull, -⟩ | ⟨hcur, hpos, hfull, -⟩
    · right; left
      simp [hcs, hcur, hnext, hself', hother]
    · right; right
      simp only [hcs, hcp, hcur, hnext, hself, if_false, Bool.not_not, if_true, and_true, true_and]
      exact hfull
    · have hempty := hstart hpos
      rw [hcur] at hempty
      unfold Full at hfull
      simp [hempty] at hfull
  case neg =>
    have hnext := nextSlot_inner h hen hlast
    obtain ⟨hcs, hcp⟩ := position_captured_inner hrange v hlast
    rcases h.order hen with ⟨hcur, -, hother⟩ | ⟨hcur, hfull, -⟩ | ⟨hcur, hpos, hfull, -⟩
    · left
      simp [hcs, hcur, hnext, hself', hother]
    · right; left
      simp only [hcs, hcur, hnext, hself, if_false, if_true, or_true, and_true, true_and]
      exact hfull
    · have hempty := hstart hpos
      rw [hcur] at hempty
      unfold Full at hfull
      simp [hempty] at hfull

theorem handoffOk_captured (h : HandoffOk s) (hen : s.ctrl.en = true) (hrange : InRange s)
    (hstart : s.curPos = 0 → s.slot s.curSlot = .empty) (v : BitVec 16) : HandoffOk (captured v s) where
  filling _ hne := by
    have hinner : s.curPos + 1 ≠ s.nd := fun hlast => hne (position_captured_last hrange v hlast).2
    rw [(position_captured_inner hrange v hinner).1, slot_captured, if_pos rfl, nextSlot_inner h hen hinner]
  fillingOnly b hb := by
    rw [slot_captured] at hb
    split_ifs at hb with hcur
    · have hinner : s.curPos + 1 ≠ s.nd := fun hlast => by
        rw [nextSlot, if_pos hlast] at hb
        cases hb
      obtain ⟨hcs, hcp⟩ := position_captured_inner hrange v hinner
      exact ⟨hcs.trans hcur.symm, by omega⟩
    · exact absurd (h.fillingOnly b hb).1.symm hcur
  claimed b := by
    rw [slot_captured]
    split_ifs with hcur
    · subst hcur
      have hnot : s.slot s.curSlot ≠ .claimed := by
        rcases slot_curSlot h hen hstart with hslot | hslot <;> rw [hslot] <;> nofun
      have hnext : nextSlot s ≠ .claimed := by
        unfold nextSlot
        split_ifs
        · nofun
        · nofun
        · exact hnot
      exact iff_of_false hnext (mt (h.claimed _).mpr hnot)
    · exact h.claimed b
  order _ := order_captured h hen hrange hstart v

theorem handoffOk_capture (hctl : ControlOk s) (h : HandoffOk s) (v : BitVec 16)
    (hfree : FaultFree (captureEvent v s)) : HandoffOk (captureEvent v s) := by
  cases hen : s.ctrl.en with
  | false => rwa [captureEvent_stopped hen]
  | true =>
    obtain ⟨hstart, hcap⟩ := captureEvent_eq hen hfree
    rw [hcap]
    exact handoffOk_captured h hen (inRange_of_started hctl hen) hstart v

/-! ## The command lifecycle -/

theorem handoffOk_accept (h : HandoffOk s) (hidle : s.eng = .idle) (i : Instr) : HandoffOk (accept i s) where
  filling := h.filling
  fillingOnly := h.fillingOnly
  claimed b := by
    refine iff_of_false ?_ ?_
    · exact fun hb => absurd ((h.claimed b).mp hb).1 (by rw [hidle]; decide)
    · rintro ⟨heng, hclaims, -⟩
      have hi : claimsSlot i = true := hclaims
      rw [accept_eng, if_pos hi] at heng
      cases heng
  order := h.order

/-- R229: the claim turns the read slot from `READY` to `CLAIMED`, so the order stays. -/
theorem handoffOk_claim (hctl : ControlOk s) (h : HandoffOk s) (hwait : s.eng = .wait)
    (hready : s.slot s.rdslot = .ready) : HandoffOk (claim s) := by
  have hslot (b : Bool) : (claim s).slot b = if b = s.rdslot then .claimed else s.slot b := by
    rw [claim_eq hready]
    exact slot_setSlot s.rdslot b .claimed s
  have hclaims := hctl.waits hwait
  have hother : ¬((!s.rdslot) = s.rdslot) := by cases s.rdslot <;> decide
  have hcs : (claim s).curSlot = s.curSlot := by rw [claim_eq hready]; rfl
  have hcp : (claim s).curPos = s.curPos := by rw [claim_eq hready]; rfl
  have hrd : (claim s).rdslot = s.rdslot := by rw [claim_eq hready]; rfl
  have hen : (claim s).ctrl.en = s.ctrl.en := by rw [claim_eq hready]; rfl
  have hlatched : (claim s).eng = .exec ∧ (claim s).latched = { s.latched with slot := s.rdslot } := by
    rw [claim_eq hready]
    exact ⟨rfl, rfl⟩
  refine ⟨fun hent hne => ?filling, fun b hb => ?fillingOnly, fun b => ?claimed, fun hent => ?order⟩
  case filling =>
    have hfill := h.filling (hen ▸ hent) (hcp ▸ hne)
    rw [hcs, hslot, if_neg ?_]
    · exact hfill
    · rintro hcur
      rw [hcur, hready] at hfill
      cases hfill
  case fillingOnly =>
    rw [hslot] at hb
    split_ifs at hb
    rw [hcs, hcp]
    exact h.fillingOnly b hb
  case claimed =>
    rw [hslot, hlatched.1, hlatched.2]
    by_cases hb : b = s.rdslot
    · rw [if_pos hb]
      exact iff_of_true rfl ⟨rfl, hclaims, hb.symm⟩
    · rw [if_neg hb]
      refine iff_of_false (fun hcl => ?_) fun ⟨_, _, hsl⟩ => hb hsl.symm
      exact absurd ((h.claimed b).mp hcl).1 (by rw [hwait]; decide)
  case order =>
    unfold Filling Full
    simp only [hslot, hcs, hcp, hrd, if_neg hother]
    rcases h.order (hen ▸ hent) with ⟨-, hfill, -⟩ | ⟨hcur, -, hfill⟩ | ⟨hcur, hpos, -, hnext⟩
    · rcases hfill with hfill | hfill <;> rw [hready] at hfill <;> cases hfill
    · exact .inr (.inl ⟨hcur, .inr rfl, hfill⟩)
    · exact .inr (.inr ⟨hcur, hpos, .inr rfl, hnext⟩)

/-- R228: a claimed slot is the one to read next. -/
theorem rdslot_of_claimed (h : HandoffOk s) (hen : s.ctrl.en = true) {b : Bool} (hb : s.slot b = .claimed) :
    b = s.rdslot := by
  by_contra hne
  obtain rfl : b = !s.rdslot := Bool.eq_not.mpr hne
  rcases h.order hen with ⟨-, -, hother⟩ | ⟨-, -, hother⟩ | ⟨-, -, -, hother⟩
  · rw [hb] at hother
    cases hother
  · unfold Filling at hother
    rcases hother with hother | hother <;> rw [hb] at hother <;> cases hother
  · rw [hb] at hother
    cases hother

/-- R228: the release of the claimed slot passes the read slot on, and the order with it. -/
theorem handoffOk_release (hctl : ControlOk s) (h : HandoffOk s) (hexec : s.eng = .exec)
    (hclaims : claimsSlot s.latched.op = true) :
    HandoffOk { setSlot s.latched.slot .empty s with rdslot := !s.rdslot, eng := .idle } := by
  have hheld : s.eng ≠ .idle := by rw [hexec]; decide
  have hen : s.ctrl.en = true := hctl.started hheld (needsEN_of_claimsSlot hclaims)
  have hcl : s.slot s.latched.slot = .claimed := (h.claimed _).mpr ⟨hexec, hclaims, rfl⟩
  have hrd : s.latched.slot = s.rdslot := rdslot_of_claimed h hen hcl
  rw [hrd] at hcl ⊢
  have hslot (b : Bool) : State.slot { setSlot s.rdslot .empty s with rdslot := !s.rdslot, eng := .idle } b =
      if b = s.rdslot then .empty else s.slot b := slot_setSlot s.rdslot b .empty s
  have hother : ¬((!s.rdslot) = s.rdslot) := by cases s.rdslot <;> decide
  refine ⟨fun _ hne => ?filling, fun b hb => ?fillingOnly, fun b => ?claimed, fun _ => ?order⟩
  case filling =>
    have hfill : s.slot s.curSlot = .filling := h.filling hen hne
    refine (hslot s.curSlot).trans ((if_neg fun hcur => ?_).trans hfill)
    rw [hcur, hcl] at hfill
    cases hfill
  case fillingOnly =>
    rw [hslot] at hb
    split_ifs at hb
    exact h.fillingOnly b hb
  case claimed =>
    rw [hslot]
    refine iff_of_false (fun hb => ?_) fun ⟨heng, _⟩ => by cases heng
    split_ifs at hb with hb'
    exact hb' (rdslot_of_claimed h hen hb)
  case order =>
    unfold Filling Full
    simp only [hslot, Bool.not_not, if_neg hother]
    rcases h.order hen with ⟨-, hfill, -⟩ | ⟨hcur, -, hfill⟩ | ⟨hcur, -, -, hnext⟩
    · rcases hfill with hfill | hfill <;> rw [hcl] at hfill <;> cases hfill
    · exact .inl ⟨hcur, hfill, rfl⟩
    · exact .inr (.inl ⟨hcur, .inl hnext, .inl rfl⟩)

/-- R124: the completion of a command that claims no slot leaves the hand-off alone. -/
theorem handoffOk_idle (h : HandoffOk s) (hclaims : ¬claimsSlot s.latched.op = true) :
    HandoffOk { s with eng := .idle } :=
  ⟨h.filling, h.fillingOnly, fun b => iff_of_false (fun hb => hclaims ((h.claimed b).mp hb).2.1)
    (fun ⟨heng, _⟩ => nomatch heng), h.order⟩

theorem handoffOk_complete (hctl : ControlOk s) (h : HandoffOk s) (hexec : s.eng = .exec) :
    HandoffOk (complete (bodyOf s.latched.op s)) := by
  obtain ⟨m, dl, o0, o1, r, f, ce, pb, pm, fs, c, hbody⟩ := bodyOf_state s.latched.op s
  rw [hbody]
  by_cases hclaims : claimsSlot s.latched.op = true
  · exact handoffOk_congr (handoffOk_release hctl h hexec hclaims) (by simp [handoffPart, release, hclaims])
  · exact handoffOk_congr (handoffOk_idle h hclaims) (by simp [handoffPart, release, hclaims])

/-! ## The step -/

theorem Change.handoffOk (h : Change s t) (hctl : ControlOk s) (hs : HandoffOk s) (hfree : FaultFree t) :
    HandoffOk t := by
  cases h with
  | start hstopped hidle =>
    exact handoffOk_of_empty rfl rfl rfl (fun heng => by cases hidle.symm.trans heng) fun _ => rfl
  | stop hidle => exact handoffOk_of_empty rfl rfl rfl (fun heng => by cases hidle.symm.trans heng) nofun
  | captured v => exact handoffOk_capture hctl hs v hfree
  | input | answer | record | error | operands | config | freeCtrl | rawin | dec | spec => exact handoffOk_congr hs rfl

theorem Move.handoffOk (h : Move s t) (hctl : ControlOk s) (hs : HandoffOk s) : HandoffOk t := by
  cases h with
  | accepted i hidle => exact handoffOk_accept hs hidle i
  | claimed hwait hready => exact handoffOk_claim hctl hs hwait hready
  | completed hexec => exact handoffOk_complete hctl hs hexec

theorem handoffOk_reset (r : Rom) : HandoffOk (State.resetWith r) :=
  handoffOk_of_empty rfl rfl rfl nofun nofun

end

/-- Settles O56. A fault-free end has a fault-free way to it, so what every step keeps is the control invariant, and the
hand-off of the states that record no fault. -/
theorem stepKeepsHandoff : Obligations.StepKeepsHandoff := by
  unfold Obligations.StepKeepsHandoff
  intro s t hctl hs h hfree
  have hreset (r : Rom) {u : State} (hu : controlPart u = controlPart (State.resetWith r))
      (hu' : handoffPart u = handoffPart (State.resetWith r)) : ControlOk u ∧ (FaultFree u → HandoffOk u) :=
    ⟨controlOk_congr (controlOk_reset r) hu, fun _ => handoffOk_congr (handoffOk_reset r) hu'⟩
  have hboth : ControlOk t ∧ (FaultFree t → HandoffOk t) :=
    step_keeps (P := fun u => ControlOk u ∧ (FaultFree u → HandoffOk u)) (fun {u} _ => hreset u.rom rfl rfl)
      (fun {u} _ => hreset u.rom rfl rfl)
      (fun v hu => by
        refine ⟨controlOk_writeStatus hu.1 v, ?_⟩
        rw [writeStatus_eq]
        exact fun hf => handoffOk_congr (hu.2 hf) rfl)
      (fun hc hu => ⟨hc.controlOk hu.1, fun hf =>
        hc.handoffOk hu.1 (hu.2 (no_fault_of_subset (fun _ => hc.faults) hf)) hf⟩)
      (fun hm hu => ⟨hm.controlOk hu.1, fun hf =>
        hm.handoffOk hu.1 (hu.2 (no_fault_of_subset (fun _ => hm.faults) hf))⟩) ⟨hctl, fun _ => hs⟩ h
  exact hboth.2 hfree

/-! ## The claimed frame (R230) -/

/-- The slots do not overlap (R227). -/
theorem slotBase_add_ne {s : State} {b b' : Bool} {n n' : Nat} (hne : b ≠ b') (hn : n < s.nd) (hn' : n' < s.nd) :
    s.slotBase b + n ≠ s.slotBase b' + n' := by
  cases b <;> cases b' <;> simp [State.slotBase] at hne ⊢ <;> omega

/-- R226, R230: a capture event that records no fault stores outside the claimed slot. -/
theorem inp_capture_of_claimed {s : State} (hctl : ControlOk s) (h : HandoffOk s) (v : BitVec 16)
    (hfree : (captureEvent v s).faults = []) {b : Bool} {n : Nat} (hb : s.slot b = .claimed) (hn : n < s.nd) :
    (captureEvent v s).inp (s.slotBase b + n) = s.inp (s.slotBase b + n) := by
  cases hen : s.ctrl.en with
  | false => rw [captureEvent_stopped hen]
  | true =>
    obtain ⟨hstart, hcap⟩ := captureEvent_eq hen hfree
    have hrange := inRange_of_started hctl hen
    rw [hcap, inp_captured_ne]
    rw [cursor_eq hrange.cursor]
    refine slotBase_add_ne (fun hcur => ?_) hn (curPos_lt hrange.pos)
    rw [hcur] at hb
    rcases slot_curSlot h hen hstart with hfill | hfill <;> rw [hb] at hfill <;> cases hfill

/-- R101: the commands that run on a stopped block store nothing. -/
theorem bodyOf_mem_of_not_needsEN {i : Instr} (hi : needsEN i = false) (s : State) : (bodyOf i s).mem = s.mem := by
  cases i with
  | note =>
    obtain ⟨o0, o1, h⟩ := bodyNote_state s
    rw [bodyOf, h]
  | nop | firclr | cents => rfl
  | run | filt | xform | hps | peak | b2f | f2b => cases hi

/-- R45, R46, R131: the entries a started block's commands store lie below `IN`. -/
theorem not_inResults {s : State} (hctl : ControlOk s) (hen : s.ctrl.en = true) {a : Nat} (ha : 0x80000 ≤ a) :
    ¬InResults s.cfg a := by
  obtain ⟨l, hlo, hhi, hn, hb, -, -⟩ := cfg_of_started hctl hen
  have hn' : 2 ^ l ≤ 2 ^ 12 := Nat.pow_le_pow_right two_pos hhi
  have hb' : 2 ^ (l - 1) ≤ 2 ^ 11 := Nat.pow_le_pow_right two_pos (by omega)
  rintro (⟨j, hj, -, hlt⟩ | ⟨-, hlt⟩)
  · unfold decAddr at hlt
    omega
  · unfold specAddr at hlt
    omega

theorem Move.byte_inp {s t : State} (h : Move s t) (hctl : ControlOk s) {a : Nat} (ha : 0x80000 ≤ a) :
    t.mem.byte a = s.mem.byte a := by
  cases h with
  | accepted i => rfl
  | claimed _ hready => rw [claim_eq hready]; rfl
  | completed hexec =>
    rw [complete_mem]
    cases hneeds : needsEN s.latched.op with
    | false => rw [bodyOf_mem_of_not_needsEN hneeds]
    | true =>
      have hen := hctl.started (by rw [hexec]; decide) hneeds
      exact (stores_bodyOf s.latched.op s).byte_eq (not_inResults hctl hen ha)

/-- Settles O53: a capture event stores in the slot at the cursor, which is not claimed, and a command stores in `DEC` and
`SPEC`, which lie below `IN`. -/
theorem claimedFrameIsUndisturbed : Obligations.ClaimedFrameIsUndisturbed := by
  unfold Obligations.ClaimedFrameIsUndisturbed
  intro s t hctl hhand h
  refine ⟨fun v rest hin hfree b n hb hn => ?capture, fun hin a ha => ?engine⟩
  case capture =>
    obtain rfl := Host.Outcome.next.inj ((step_cons hin).symm.trans h)
    exact inp_capture_of_claimed (s := { s with inputs := rest }) (controlOk_congr hctl rfl) (handoffOk_congr hhand rfl) v
      hfree hb hn
  case engine =>
    have hturn {u : State} (hu : engineTurn u = .next t) (hctl : ControlOk u) : t.mem.byte a = u.mem.byte a := by
      rcases engineTurn_move hu with rfl | hm
      · rfl
      · exact hm.byte_inp hctl ha
    rcases hin with hin | ⟨rest, hin⟩
    · exact hturn (step_nil hin ▸ h) hctl
    · exact hturn (u := { s with inputs := rest }) ((step_cons hin).symm.trans h) (controlOk_congr hctl rfl)

end Sys2Proof.Machine
end

section
/-! A capture event in full (R223 to R226), the agreement of the result registers (R35, R37), and the reset state (R57). -/

namespace Sys2Proof.Machine

open Safety

/-! ## Capture events -/

/-- R223: of the memory only the entry at the cursor is stored. -/
theorem byte_captured (v : BitVec 16) (s : State) {a : Nat}
    (ha : a < inAddr s.cursor.toNat ∨ inAddr s.cursor.toNat + 2 ≤ a) : (captured v s).mem.byte a = s.mem.byte a :=
  byte_setEntry_of_outside ha

/-- Settles O51: the event is `captured`, with the record of an overrun. -/
theorem captureStoresTheSample : Obligations.CaptureStoresTheSample := by
  unfold Obligations.CaptureStoresTheSample
  intro s v rest hin
  rw [step_cons hin]
  refine ⟨fun hoff => congrArg Host.Outcome.next (captureEvent_stopped (s := { s with inputs := rest }) hoff v), fun hen hnd hfits hcur => ?started⟩
  case started =>
    extract_lets c b n
    have hrange : InRange { s with inputs := rest } := ⟨one_le_two.trans hnd, hfits, hcur⟩
    have hb : State.curSlot { s with inputs := rest } = b := curSlot_eq hcur
    have hslot := slot_captured v { s with inputs := rest }
    rw [hb] at hslot
    have hother : ¬((!b) = b) := by cases b <;> decide
    have hlast : n + 1 = s.nd ↔ n = s.nd - 1 := by omega
    refine ⟨_, congrArg Host.Outcome.next ((captureEvent_explicit v _).trans (if_pos hen)), inp_captured_same v _,
      cursor_captured hrange v, ?slot, ?other, ?frdy, ?kept, ?overrun, fun a ha => byte_captured v _ ha, rfl⟩
    case slot =>
      refine (hslot b).trans ((if_pos rfl).trans ?_)
      rw [nextSlot, hb]
      simp only [← hlast]
      rfl
    case other => exact (hslot (!b)).trans (if_neg hother)
    case frdy =>
      rw [← hlast]
      show (s.frdy || decide (n + 1 = s.nd)) = true ↔ _
      rw [Bool.or_eq_true, decide_eq_true_iff]
    case kept =>
      rintro hnone
      refine if_neg ?_
      rw [hb]
      rintro ⟨hfirst, hne⟩
      exact hnone.elim (· hfirst) hne
    case overrun =>
      rintro ⟨hfirst, hne⟩
      have hoverrun : State.curPos { s with inputs := rest } = 0 ∧
          State.slot { s with inputs := rest } (State.curSlot { s with inputs := rest }) ≠ .empty := ⟨hfirst, hb ▸ hne⟩
      exact (if_pos hoverrun).symm ▸ (mem_recordFault .overrun .overrun s.faults).mpr (.inl rfl)

/-! ## The result registers -/

/-- R194: the index of the nearest note is in the table. -/
theorem nearest_lt {nt : List Word} (hwf : wfNoteTable nt = true) {f idx : Nat} {c : Int}
    (h : nearest nt f = some (idx, c)) : idx < nt.length := by
  have hpos := wfNoteTable_length_pos hwf
  rw [nearest_eq hwf] at h
  split_ifs at h
  cases hfind : nt.findIdx? (above f) with
  | none =>
    rw [hfind] at h
    cases h
    omega
  | some u =>
    obtain ⟨hu, -⟩ := List.findIdx?_eq_some_iff_getElem.mp hfind
    rw [hfind] at h
    dsimp only at h
    split_ifs at h <;> cases h <;> omega

/-- The agreement of the result registers, of the two words alone. -/
structure ResultWords (r c : Word) : Prop where
  exclusive : ¬(r.getLsbD 31 = true ∧ r.getLsbD 30 = true)
  reservedBits : r.extractLsb' 7 23 = 0#23
  noNote : r.getLsbD 31 = false → r.extractLsb' 0 7 = 0#7
  noCents : r.getLsbD 31 = false → c = 0

theorem resultOk_iff {s : State} : ResultOk s ↔ ResultWords s.result s.cents :=
  ⟨fun ⟨he, hr, hn, hc⟩ => ⟨he, hr, hn, hc⟩, fun ⟨he, hr, hn, hc⟩ => ⟨he, hr, hn, hc⟩⟩

theorem resultOk_congr {s t : State} (h : ResultOk s) (hr : t.result = s.result) (hc : t.cents = s.cents) :
    ResultOk t := by
  rw [resultOk_iff, hr, hc]
  exact resultOk_iff.mp h

theorem resultWords_zero : ResultWords 0 0 := ⟨by decide, by decide, fun _ => by decide, fun _ => rfl⟩

theorem resultWords_gated : ResultWords 0x40000000 0 := ⟨by decide, by decide, fun _ => by decide, fun _ => rfl⟩

/-- R35: an index of a table of at most 128 notes leaves the bits above it 0 but `VALID`. -/
theorem resultWords_note {idx : Nat} (hidx : idx < 128) (c : Word) : ResultWords (noteWord idx) c := by
  have hsmall (i : Nat) (hi : 7 ≤ i) : idx.testBit i = false :=
    Nat.testBit_lt_two_pow (hidx.trans_le (Nat.pow_le_pow_right two_pos hi))
  have hbit (i : Nat) (hi : 7 ≤ i) : (noteWord idx).getLsbD i = (0x80000000 : Word).getLsbD i := by
    rw [noteWord, BitVec.getLsbD_or, BitVec.getLsbD_ofNat, hsmall i hi, Bool.and_false, Bool.or_false]
  have hvalid : (noteWord idx).getLsbD 31 = true := hbit 31 (by decide)
  refine ⟨fun ⟨_, hgated⟩ => ?_, BitVec.eq_of_getLsbD_eq fun i hi => ?_, fun h => ?_, fun h => ?_⟩
  · exact absurd ((hbit 30 (by decide)).symm.trans hgated) (by decide)
  · rw [BitVec.getLsbD_extractLsb', hbit (7 + i) (by omega)]
    revert i
    decide
  · exact absurd (hvalid.symm.trans h) (by decide)
  · exact absurd (hvalid.symm.trans h) (by decide)

theorem resultWords_pitchOf {nt : List Word} (hwf : wfNoteTable nt = true) (thresh m : SpecWord) (f : Word) :
    ResultWords (pitchOf nt thresh m f).1 (pitchOf nt thresh m f).2 := by
  unfold pitchOf
  split_ifs
  · exact resultWords_gated
  · cases hnear : nearest nt f.toNat with
    | none => exact resultWords_zero
    | some p =>
      have hlen := (wfNoteTable_iff.mp hwf).2.1
      exact resultWords_note ((nearest_lt hwf hnear).trans_le hlen) _

/-- R192: of the bodies, only those of `PEAK` and `RUN` write the result registers. -/
theorem resultOk_bodyPeak {s : State} (hwf : wfNoteTable s.rom.noteTable = true) : ResultOk (bodyPeak s) := by
  rw [resultOk_iff, bodyPeak_eq]
  exact resultWords_pitchOf hwf _ _ _

theorem bodyFilt_rom (s : State) : (bodyFilt s).rom = s.rom := by
  obtain ⟨m, fs, c, dl, h⟩ := bodyFilt_state s
  rw [h]
  rfl

theorem bodyXform_rom (s : State) : (bodyXform s).rom = s.rom := by
  obtain ⟨m, fs, c, h⟩ := bodyXform_state s
  rw [h]

theorem bodyHps_rom (s : State) : (bodyHps s).rom = s.rom := by
  obtain ⟨m, fs, c, h⟩ := bodyHps_state s
  rw [h]

theorem resultOk_bodyOf {s : State} (hrom : RomOk s) (h : ResultOk s) (i : Instr) : ResultOk (bodyOf i s) := by
  cases i with
  | peak => exact resultOk_bodyPeak hrom.1
  | run => exact resultOk_bodyPeak (by rw [bodyHps_rom, bodyXform_rom, bodyFilt_rom]; exact hrom.1)
  | filt =>
    obtain ⟨m, fs, c, dl, hbody⟩ := bodyFilt_state s
    rw [bodyOf, hbody]
    exact resultOk_congr h rfl rfl
  | xform =>
    obtain ⟨m, fs, c, hbody⟩ := bodyXform_state s
    rw [bodyOf, hbody]
    exact resultOk_congr h rfl rfl
  | hps =>
    obtain ⟨m, fs, c, hbody⟩ := bodyHps_state s
    rw [bodyOf, hbody]
    exact resultOk_congr h rfl rfl
  | note =>
    obtain ⟨o0, o1, hbody⟩ := bodyNote_state s
    rw [bodyOf, hbody]
    exact resultOk_congr h rfl rfl
  | nop | firclr | b2f | f2b | cents => exact resultOk_congr h rfl rfl

theorem Change.resultOk {s t : State} (h : Change s t) (hs : ResultOk s) : ResultOk t := by
  rw [resultOk_iff] at hs ⊢
  cases h with
  | captured v =>
    obtain ⟨m, sl0, sl1, fr, cu, fs, hcap⟩ := captureEvent_state v s
    rw [hcap]
    exact hs
  | _ => exact hs

theorem Move.resultOk {s t : State} (h : Move s t) (hrom : RomOk s) (hs : ResultOk s) : ResultOk t := by
  cases h with
  | accepted i => exact resultOk_congr hs rfl rfl
  | claimed _ hready =>
    rw [claim_eq hready]
    exact resultOk_congr hs rfl rfl
  | completed => exact resultOk_congr (resultOk_bodyOf hrom hs s.latched.op) rfl rfl

/-- Settles O58, along with the conformity of the ROMs, which no step changes. -/
theorem stepKeepsResults : Obligations.StepKeepsResults := by
  unfold Obligations.StepKeepsResults
  intro s t hrom hs h
  have hkept {u v : State} (hrom : v.rom = u.rom) (hu : RomOk u) : RomOk v := by
    unfold RomOk at hu ⊢
    rwa [hrom]
  have hboth : RomOk t ∧ ResultOk t := step_keeps (P := fun u => RomOk u ∧ ResultOk u)
    (fun hu => ⟨hu.1, resultOk_iff.mpr resultWords_zero⟩) (fun hu => ⟨hu.1, resultOk_iff.mpr resultWords_zero⟩)
    (fun v hu => by
      rw [writeStatus_eq]
      exact ⟨hu.1, resultOk_congr hu.2 rfl rfl⟩)
    (fun hc hu => ⟨hkept hc.kept.1 hu.1, hc.resultOk hu.2⟩)
    (fun hm hu => ⟨hkept hm.rom_eq hu.1, hm.resultOk hu.1 hu.2⟩) ⟨hrom, hs⟩ h
  exact hboth.2

/-! ## The reset state -/

/-- Settles O60: the reset state is idle, stopped and empty. -/
theorem resetMeetsTheInvariants : Obligations.ResetMeetsTheInvariants := by
  unfold Obligations.ResetMeetsTheInvariants
  exact ⟨controlOk_reset _, framesWritten_of_empty rfl rfl rfl, handoffOk_reset _, wf_nil,
    resultOk_iff.mpr resultWords_zero, rfl⟩

/-- Settles O32: every field is read off the reset state, and its delay line is one of zeros. -/
theorem resetValues : Obligations.ResetValues := by
  unfold Obligations.ResetValues
  exact ⟨rfl, by decide, by decide, rfl, rfl, rfl, rfl, rfl, rfl, rfl, rfl, rfl, rfl, rfl, rfl, rfl, rfl, rfl, rfl, rfl,
    rfl, fun x hx => List.eq_of_mem_replicate hx, fun a => rfl, rfl, rfl⟩

end Sys2Proof.Machine
end

section
/-! The engine's turn and the offer of a command (R121, R123 to R125, R155), and writes to `CTRL` and the configuration
registers (R130 to R133, R135, R280 to R283). -/

namespace Sys2Proof.Machine

/-! ## Commands -/

/-- R121: a command offered to the idle engine. -/
theorem offer_of_decode {w : Word} {i : Instr} {s : State} (hidle : s.eng = .idle) (hd : decode w = .ok i) :
    offer w s = exec i s := by
  rcases offer_cases w s with ⟨hbusy, -⟩ | ⟨-, ⟨e, hd'⟩, -⟩ | ⟨i', -, hd', ho⟩
  · exact absurd hidle hbusy
  · rw [hd] at hd'
    cases hd'
  · rw [hd] at hd'
    cases hd'
    exact ho

/-- Settles O5: `CMD` is offered the word, which the idle engine decodes; `withFetchWord` queues that very write. -/
theorem stepRunsOfferedCommand : Obligations.StepRunsOfferedCommand := by
  unfold Obligations.StepRunsOfferedCommand
  have hwrite (s : State) (w : Word) (i : Instr) (rest : List Input) (hin : s.inputs = .hostWrite 0x018 32 w :: rest)
      (hidle : s.eng = .idle) (hd : decode w = .ok i) : step s = exec i { s with inputs := rest, resp := .ack } :=
    (step_cmdWrite hin).trans (offer_of_decode hidle hd)
  refine ⟨hwrite, fun s w i hidle hd => ?fetch⟩
  case fetch =>
    exact hwrite (s.withFetchWord 32 w) _ i s.inputs rfl hidle
      (decode_eq_ok_iff.mpr (decodeTableWord_eq_some_iff.mp hd))

theorem engineTurn_eq (s : State) : engineTurn s = if s.eng = .idle then .next s else exec s.latched.op s := by
  rcases engineTurn_cases s with ⟨hidle, h⟩ | ⟨hheld, h⟩
  · rw [h, if_pos hidle]
  · rw [h, if_neg hheld]

/-- Settles O6: with no input, or the engine's own, the step is the engine's turn. -/
theorem stepRunsHeldCommand : Obligations.StepRunsHeldCommand := by
  unfold Obligations.StepRunsHeldCommand
  intro s
  refine ⟨fun hin => (step_nil hin).trans (engineTurn_eq s), fun rest hin => ?_⟩
  rw [step_cons hin, runInput, engineTurn_eq]

/-- Settles O10: the body of `NOP` is to do nothing. -/
theorem nopCompletes : Obligations.NopCompletes := by
  unfold Obligations.NopCompletes
  intro s hexec
  rw [exec_of_executing hexec, bodyOf, bodyNop, complete]

/-- Settles O13: the body of `FIRCLR` clears the delay line. -/
theorem firclrClearsDelayLine : Obligations.FirclrClearsDelayLine := by
  unfold Obligations.FirclrClearsDelayLine
  intro s hexec
  rw [exec_of_executing hexec, bodyOf, bodyFirclr, clearDl, complete]

/-! ## Resets -/

theorem step_ctrlWrite {s : State} {v : Word} {rest : List Input} (hin : s.inputs = .hostWrite 0x004 32 v :: rest) :
    step s = .next (writeCtrl v { s with inputs := rest, resp := .ack }) := by
  rw [step_regWrite hin (r := .ctrl) (by decide) rfl nofun, writeReg]

/-- Settles O33: bit 31 of a `CTRL` write goes before all others. -/
theorem resetsLeaveTheResetState : Obligations.ResetsLeaveTheResetState := by
  unfold Obligations.ResetsLeaveTheResetState
  intro s rest
  refine ⟨fun v hin hv => ?soft, fun hin => ?powerOn⟩
  case soft =>
    rw [step_ctrlWrite hin, writeCtrl, if_pos hv]
    rfl
  case powerOn =>
    rw [step_cons hin, runInput]
    rfl

/-! ## `CTRL` -/

theorem writeCtrl_of_stopped {v : Word} {s : State} (hv : v.getLsbD 31 = false) (hen : s.ctrl.en = false) :
    writeCtrl v s = writeCtrlStopped v (writeFreeCtrl v s) := by
  have hen' : ¬(writeFreeCtrl v s).ctrl.en = true := Bool.eq_false_iff.mp hen
  rw [writeCtrl, if_neg (Bool.eq_false_iff.mp hv), if_neg hen']

theorem writeCtrl_of_started {v : Word} {s : State} (hv : v.getLsbD 31 = false) (hen : s.ctrl.en = true) :
    writeCtrl v s = writeCtrlStarted v (writeFreeCtrl v s) := by
  have hen' : (writeFreeCtrl v s).ctrl.en = true := hen
  rw [writeCtrl, if_neg (Bool.eq_false_iff.mp hv), if_pos hen']

/-- R131: `legal_config()` in numbers. -/
theorem legalConfig_iff {s : State} : legalConfig s = true ↔
    5 ≤ s.config.log2n.toNat ∧ s.config.log2n.toNat ≤ 12 ∧ 1 ≤ s.config.osf.toNat ∧ s.config.osf.toNat ≤ 16 ∧
      8 ≤ s.config.adcw.toNat ∧ s.config.adcw.toNat ≤ 16 ∧ 1 ≤ s.fs.toNat ∧ 1 ≤ s.hpslo.toNat ∧
      s.hpslo.toNat ≤ 2 ^ (s.config.log2n.toNat - 1) - 1 := by
  simp only [legalConfig, Bool.and_eq_true, decide_eq_true_eq, and_assoc]

/-- R131: a frame of `2^l` samples has `2^(l−1)` bins. -/
theorem cfgOfRegisters_eq {s : State} (hl : 5 ≤ s.config.log2n.toNat) : cfgOfRegisters s =
    { n := 2 ^ s.config.log2n.toNat, b := 2 ^ (s.config.log2n.toNat - 1), d := s.config.osf.toNat, fs := s.fs.toNat,
      hpslo := s.hpslo.toNat, adcw := s.config.adcw.toNat, rawin := s.ctrl.rawin,
      binw := s.fs.toNat * 2 ^ (16 - s.config.log2n.toNat) } := by
  rw [cfgOfRegisters, ← Nat.pow_div (m := s.config.log2n.toNat) (n := 1) (by omega) two_pos, pow_one]

theorem startPipeline_eq {s : State} (hl : 5 ≤ s.config.log2n.toNat) : startPipeline s = { s with
    ctrl := { s.ctrl with en := true }
    cfg := { n := 2 ^ s.config.log2n.toNat, b := 2 ^ (s.config.log2n.toNat - 1), d := s.config.osf.toNat,
             fs := s.fs.toNat, hpslo := s.hpslo.toNat, adcw := s.config.adcw.toNat, rawin := s.ctrl.rawin,
             binw := s.fs.toNat * 2 ^ (16 - s.config.log2n.toNat) }
    cursor := 0
    slot0 := .empty
    slot1 := .empty
    rdslot := false
    dl := List.replicate (s.rom.firCoef.length - 1) 0 } := by
  rw [← cfgOfRegisters_eq hl]
  rfl

/-- R130: what a `CTRL` write to a stopped block does once the free fields and `RAWIN` are stored. -/
theorem writeCtrlStopped_eq {v : Word} {s u : State}
    (hu : { s with ctrl := { s.ctrl with rawin := v.getLsbD 2 } } = u) : writeCtrlStopped v s =
      if v.getLsbD 0 = false then u
      else if u.eng ≠ .idle then raiseError .locked u
      else if legalConfig u = true then startPipeline u
      else raiseError .cfg u := by
  simp only [writeCtrlStopped, hu]
  cases hstart : v.getLsbD 0
  case false => rfl
  case true =>
    show (if u.busy = true then _ else _) = if u.eng ≠ .idle then _ else _
    refine if_congr busy_eq_true_iff rfl ?_
    cases legalConfig u <;> rfl

/-- Settles O34: the branches of the write are those of the statement. -/
theorem ctrlWriteOfAStoppedBlock : Obligations.CtrlWriteOfAStoppedBlock := by
  unfold Obligations.CtrlWriteOfAStoppedBlock
  intro s v rest hin hen hv
  have hstored : { writeFreeCtrl v { s with inputs := rest, resp := .ack } with
      ctrl := { (writeFreeCtrl v { s with inputs := rest, resp := .ack }).ctrl with rawin := v.getLsbD 2 } } =
      { s with
        inputs := rest
        resp := .ack
        ctrl := { en := false, rnd := v.getLsbD 1, rawin := v.getLsbD 2, ieDone := v.getLsbD 3,
                  ieErr := v.getLsbD 4, ieFrdy := v.getLsbD 5 } } := by
    simp only [writeFreeCtrl, hen]
  rw [step_ctrlWrite hin, writeCtrl_of_stopped (s := { s with inputs := rest, resp := .ack }) hv hen,
    writeCtrlStopped_eq hstored]
  refine congrArg Host.Outcome.next (if_congr Iff.rfl rfl (if_congr Iff.rfl rfl ?_))
  exact if_ctx_congr legalConfig_iff (fun hlegal => startPipeline_eq hlegal.1) fun _ => rfl

/-- R130, R133: what a `CTRL` write to a started block does once the free fields are stored, a refused change of `RAWIN`
noted. -/
theorem writeCtrlStarted_eq {v : Word} {s u : State}
    (hu : (if v.getLsbD 2 = s.ctrl.rawin then s else raiseError .locked s) = u) : writeCtrlStarted v s =
      if v.getLsbD 0 = true then u
      else if u.eng ≠ .idle then raiseError .locked u
      else stopPipeline u := by
  have hnoted : (if v.getLsbD 2 != s.ctrl.rawin then raiseError .locked s else s) = u := by
    rw [← hu]
    cases v.getLsbD 2 <;> cases s.ctrl.rawin <;> rfl
  simp only [writeCtrlStarted, hnoted]
  exact if_congr Iff.rfl rfl (if_congr busy_eq_true_iff rfl rfl)

/-- R252: of two errors raised in one write the first is recorded. -/
theorem raiseError_twice (c : ErrCode) (s : State) : raiseError c (raiseError c s) = raiseError c s := by
  cases h : s.err <;> simp [raiseError, h]

/-- Settles O35: the branches of the write are those of the statement; a second `LOCKED` is not recorded. -/
theorem ctrlWriteOfAStartedBlock : Obligations.CtrlWriteOfAStartedBlock := by
  unfold Obligations.CtrlWriteOfAStartedBlock
  intro s v rest hin hen hv
  have hstored : writeFreeCtrl v { s with inputs := rest, resp := .ack } = { s with
      inputs := rest
      resp := .ack
      ctrl := { en := true, rnd := v.getLsbD 1, rawin := s.ctrl.rawin, ieDone := v.getLsbD 3,
                ieErr := v.getLsbD 4, ieFrdy := v.getLsbD 5 } } := by
    simp only [writeFreeCtrl, hen]
  rw [step_ctrlWrite hin, writeCtrl_of_started (s := { s with inputs := rest, resp := .ack }) hv hen,
    writeCtrlStarted_eq rfl, hstored]
  refine congrArg Host.Outcome.next ?_
  by_cases hrawin : v.getLsbD 2 = s.ctrl.rawin
  · simp only [hrawin, if_true]
    rfl
  · simp only [hrawin, if_false, raiseError_twice]
    rfl

/-! ## The configuration registers -/

/-- R133: `LOCKED` while started, else the write. -/
theorem writeLocked_eq (write : State → State) (s : State) :
    writeLocked write s = if s.ctrl.en = true then raiseError .locked s else write s := rfl

/-- Settles O36: each of the three registers is written through the lock. -/
theorem configurationIsLockedWhileStarted : Obligations.ConfigurationIsLockedWhileStarted := by
  unfold Obligations.ConfigurationIsLockedWhileStarted
  intro s off v rest hin hoff
  rcases hoff with rfl | rfl | rfl
  · rw [step_regWrite hin (r := .config) (by decide) rfl nofun]
    rfl
  · rw [step_regWrite hin (r := .fs) (by decide) rfl nofun]
    rfl
  · rw [step_regWrite hin (r := .hpslo) (by decide) rfl nofun]
    rfl

end Sys2Proof.Machine
end

section
/-! Host accesses in full (20_memory.md R75 to R82, R292): what a step that reads or writes a target answers, and the reads
of the registers (R21 to R40, R262). -/

namespace Sys2Proof.Machine

/-! ## A step that reads or writes a target -/

theorem accessOk_of_aligned {addr : Offset} (hal : addr.toNat % 4 = 0) : accessOk addr 32 = true := by
  simp [accessOk, hal]

section
variable {s : State} {addr : Offset} {rest : List Input} {t : Target}

theorem step_read (hin : s.inputs = .hostRead addr 32 :: rest) (hal : addr.toNat % 4 = 0) : step s =
    .next { (memRead addr { s with inputs := rest }).2 with resp := .data (memRead addr { s with inputs := rest }).1 } := by
  rw [step_cons hin, runInput, hostRead, if_pos (accessOk_of_aligned hal)]

/-- R75: a read, but for those that R292 leaves unspecified while busy. -/
theorem step_readTarget (hin : s.inputs = .hostRead addr 32 :: rest) (hal : addr.toNat % 4 = 0)
    (ht : targetOf addr.toNat = t) (hfree : s.eng = .idle ∨ unspecifiedWhileBusy t = false) : step s =
      .next { (readTarget t { s with inputs := rest }).2 with
        resp := .data (readTarget t { s with inputs := rest }).1 } := by
  have hspecified : ¬((State.busy { s with inputs := rest } && unspecifiedWhileBusy t) = true) := by
    rcases hfree with hidle | hfree
    · simp [State.busy, hidle]
    · simp [hfree]
  rw [step_read hin hal, memRead, ht, if_neg hspecified]

/-- R292: an unspecified read draws a free value and does nothing else (log entries 6 and 9). -/
theorem step_readUnspecified (hin : s.inputs = .hostRead addr 32 :: rest) (hal : addr.toNat % 4 = 0)
    (ht : targetOf addr.toNat = t) (hbusy : s.eng ≠ .idle) (hun : unspecifiedWhileBusy t = true) : step s =
      .next { s with inputs := rest, resp := .data (freeValue 32 s), freeCtr := s.freeCtr + 1 } := by
  have hboth : (State.busy { s with inputs := rest } && unspecifiedWhileBusy t) = true := by
    simp [hun, State.busy, hbusy]
  rw [step_read hin hal, memRead, ht, if_pos hboth]
  rfl

/-- R76: a write to a target other than `CMD`. -/
theorem step_writeTarget {v : Word} (hin : s.inputs = .hostWrite addr 32 v :: rest) (hal : addr.toNat % 4 = 0)
    (ht : targetOf addr.toNat = t) (hcmd : t ≠ .reg .cmd) :
    step s = .next (writeTarget t v { s with inputs := rest, resp := .ack }) := by
  rw [step_cons hin, runInput, hostWrite_good (accessOk_of_aligned hal), ht, if_neg hcmd]

/-! ## The registers -/

theorem regOffset_aligned (r : Reg) : regOffset r % 4 = 0 := by
  cases r with
  | thresh l | peakmag l =>
    simp only [regOffset]
    omega
  | _ => rfl

theorem regOffset_lt (r : Reg) : regOffset r < 0x070 := by
  cases r with
  | thresh l | peakmag l =>
    simp only [regOffset]
    omega
  | _ => decide

/-- R75: reading a register changes nothing but the response. -/
theorem step_readReg {r : Reg} (hin : s.inputs = .hostRead addr 32 :: rest) (haddr : addr.toNat = regOffset r)
    (hfree : s.eng = .idle ∨ unspecifiedWhileBusy (.reg r) = false) :
    step s = .next { s with inputs := rest, resp := .data (readReg r s) } := by
  rw [step_readTarget hin (haddr ▸ regOffset_aligned r) (haddr ▸ targetOf_regOffset r) hfree]
  cases r <;> rfl

end

/-! ## `STATUS` (R30) -/

/-- R30: bit by bit, which field a bit of the word belongs to. -/
theorem getLsbD_statusWord (s : State) (i : Nat) : s.statusWord.getLsbD i =
    if i < 1 then (BitVec.ofBool s.busy).getLsbD i
    else if i < 2 then (BitVec.ofBool s.waiting).getLsbD (i - 1)
    else if i < 3 then (BitVec.ofBool s.done).getLsbD (i - 2)
    else if i < 4 then (BitVec.ofBool s.err.isSome).getLsbD (i - 3)
    else if i < 8 then s.errcode.getLsbD (i - 4)
    else if i < 10 then s.slot0.code.getLsbD (i - 8)
    else if i < 12 then s.slot1.code.getLsbD (i - 10)
    else if i < 13 then (BitVec.ofBool s.rdslot).getLsbD (i - 12)
    else if i < 14 then (BitVec.ofBool s.frdy).getLsbD (i - 13)
    else if i < 15 then (BitVec.ofBool s.irq).getLsbD (i - 14)
    else if i < 16 then false
    else if i < 24 then BitVec.getLsbD s.curcmd (i - 16)
    else false := by
  have hrange {a b : Nat} (hb : 0 < b) : i - a < b ↔ i < a + b := by omega
  change BitVec.getLsbD (w := 8 + 8 + 1 + 1 + 1 + 1 + 2 + 2 + 4 + 1 + 1 + 1 + 1) _ i = _
  unfold State.statusWord
  simp only [BitVec.getLsbD_append]
  simp only [Nat.sub_sub, Nat.reduceAdd, BitVec.getLsbD_zero]
  simp only [hrange Nat.one_pos, hrange two_pos, hrange (show 0 < 4 by decide), hrange (show 0 < 8 by decide),
    Nat.reduceAdd]

theorem flags_statusWord (s : State) :
    s.statusWord.getLsbD 0 = s.busy ∧ s.statusWord.getLsbD 1 = s.waiting ∧ s.statusWord.getLsbD 2 = s.done ∧
      s.statusWord.getLsbD 3 = s.err.isSome ∧ s.statusWord.getLsbD 12 = s.rdslot ∧ s.statusWord.getLsbD 13 = s.frdy ∧
      s.statusWord.getLsbD 14 = s.irq ∧ s.statusWord.getLsbD 15 = false := by
  refine ⟨?_, ?_, ?_, ?_, ?_, ?_, ?_, ?_⟩ <;> rw [getLsbD_statusWord] <;> simp

/-- R30: the fields of more than one bit. -/
theorem extractLsb'_statusWord (s : State) :
    s.statusWord.extractLsb' 4 4 = s.errcode ∧ s.statusWord.extractLsb' 8 2 = s.slot0.code ∧
      s.statusWord.extractLsb' 10 2 = s.slot1.code ∧ s.statusWord.extractLsb' 16 8 = s.curcmd ∧
      s.statusWord.extractLsb' 24 8 = 0 := by
  refine ⟨?_, ?_, ?_, ?_, ?_⟩ <;> refine BitVec.eq_of_getLsbD_eq fun i hi => ?_ <;>
    rw [BitVec.getLsbD_extractLsb', getLsbD_statusWord] <;> grind

/-- R262: the interrupt output is each flag with its enable. -/
theorem irq_eq_true_iff {s : State} : s.irq = true ↔
    s.done = true ∧ s.ctrl.ieDone = true ∨ s.err ≠ none ∧ s.ctrl.ieErr = true ∨
      s.frdy = true ∧ s.ctrl.ieFrdy = true := by
  simp [State.irq, or_assoc, Option.isSome_iff_ne_none]

/-- Settles O39: the word is `statusWord`, read field by field. -/
theorem statusReadShowsTheFlags : Obligations.StatusReadShowsTheFlags := by
  unfold Obligations.StatusReadShowsTheFlags
  intro s rest hin
  obtain ⟨hbusy, hwaiting, hdone, hisSome, hrdslot, hfrdy, hirq, h15⟩ := flags_statusWord s
  obtain ⟨herr, hslot0, hslot1, hcurcmd, hzero⟩ := extractLsb'_statusWord s
  have hcode {c : ErrCode} (h : s.err = some c) : s.errcode = c.code := by rw [State.errcode, h]
  refine ⟨s.statusWord, step_readReg (r := .status) hin rfl (.inr rfl), ?_⟩
  rw [hbusy, hwaiting, hdone, hisSome, hrdslot, hfrdy, hirq, h15, herr, hslot0, hslot1, hcurcmd, hzero]
  exact ⟨busy_eq_true_iff, beq_iff_eq, rfl, rfl, fun h => by rw [State.errcode, h], hcode, hcode, hcode, hcode, hcode,
    hcode, congrArg SlotState.code, congrArg SlotState.code, congrArg SlotState.code, congrArg SlotState.code,
    congrArg SlotState.code, congrArg SlotState.code, congrArg SlotState.code, congrArg SlotState.code, rfl, rfl,
    irq_eq_true_iff, rfl, rfl, rfl⟩

end Sys2Proof.Machine
end

section
/-! The registers as a host reads them (R21 to R40), and writes to the read-only ones (R76). -/

namespace Sys2Proof.Machine

/-! ## Words of fields -/

/-- R23: the `CTRL` word as a sum. -/
theorem ctrlWord_eq (c : Ctrl) : c.word = BitVec.ofNat 32 (c.en.toNat + 2 * c.rnd.toNat + 4 * c.rawin.toNat +
    8 * c.ieDone.toNat + 16 * c.ieErr.toNat + 32 * c.ieFrdy.toNat) := by
  obtain ⟨en, rnd, rawin, ieDone, ieErr, ieFrdy⟩ := c
  revert en rnd rawin ieDone ieErr ieFrdy
  decide

/-- A word put above another adds to it at its place. -/
theorem toNat_append_add {m n : Nat} (x : BitVec m) (y : BitVec n) : (x ++ y).toNat = 2 ^ n * x.toNat + y.toNat := by
  rw [BitVec.toNat_append, ← Nat.shiftLeft_add_eq_or_of_lt y.isLt, Nat.shiftLeft_eq, Nat.mul_comm]

/-- R25: the `CONFIG` word as a sum. -/
theorem configWord_eq (c : ConfigReg) :
    c.word = BitVec.ofNat 32 (c.log2n.toNat + 2 ^ 8 * c.osf.toNat + 2 ^ 16 * c.adcw.toNat) := by
  have hl := c.log2n.isLt
  have ho := c.osf.isLt
  have ha := c.adcw.isLt
  refine BitVec.eq_of_toNat_eq ?_
  rw [BitVec.toNat_ofNat, Nat.mod_eq_of_lt (by omega)]
  change BitVec.toNat (0#11 ++ c.adcw ++ 0#3 ++ c.osf ++ 0#4 ++ c.log2n) = _
  simp only [toNat_append_add, BitVec.toNat_ofNat]
  omega

/-- R71: limb `l` as a quotient. -/
theorem limb_eq (x : SpecWord) (l : Nat) : limb x l = BitVec.ofNat 32 (x.toNat / 2 ^ (32 * l)) := by
  refine BitVec.eq_of_toNat_eq ?_
  rw [limb, BitVec.extractLsb'_toNat, BitVec.toNat_ofNat, Nat.shiftRight_eq_div_pow]

/-! ## `BINW` (R28) -/

/-- R28: `FS·2^(16−LOG2N)` fits a word, and times `B` it is `FS·2^15`. -/
theorem binw_exact {s : State} (hl : 5 ≤ s.config.log2n.toNat ∧ s.config.log2n.toNat ≤ 12) :
    s.binw.toNat = s.fs.toNat * 2 ^ (16 - s.config.log2n.toNat) ∧
      s.binw.toNat * 2 ^ (s.config.log2n.toNat - 1) = s.fs.toNat * 2 ^ 15 := by
  have hfits : s.fs.toNat * 2 ^ (16 - s.config.log2n.toNat) < 2 ^ 32 := by
    calc s.fs.toNat * 2 ^ (16 - s.config.log2n.toNat) ≤ s.fs.toNat * 2 ^ 11 :=
          Nat.mul_le_mul_left _ (Nat.pow_le_pow_right two_pos (by omega))
      _ < 2 ^ 32 := by have := s.fs.isLt; omega
  have hbinw : s.binw.toNat = s.fs.toNat * 2 ^ (16 - s.config.log2n.toNat) := by
    rw [State.binw, if_pos hl, BitVec.toNat_ofNat, Nat.mod_eq_of_lt hfits]
  refine ⟨hbinw, ?_⟩
  rw [hbinw, mul_assoc, ← pow_add]
  congr 2
  omega

/-! ## The statement -/

/-- Offset `p.1` is that of a register that now reads `p.2`, and whose reads are unspecified while busy if `u`. -/
def ReadsAs (s : State) (u : Bool) (p : Offset × Word) : Prop :=
  ∃ r, p.1.toNat = regOffset r ∧ readReg r s = p.2 ∧ unspecifiedWhileBusy (.reg r) = u

/-- Offset `off` is that of a register that ignores writes. -/
def ReadOnly (off : Offset) : Prop :=
  ∃ r, off.toNat = regOffset r ∧ r ≠ .cmd ∧ ∀ v s, writeReg r v s = s

/-- Settles O40: each offset of the three lists is that of its register. -/
theorem registerReadsAndReadOnlyWrites : Obligations.RegisterReadsAndReadOnlyWrites := by
  unfold Obligations.RegisterReadsAndReadOnlyWrites
  intro s v rest
  refine ⟨fun p hp hin => ?exact, fun hin => ?binw, fun p hp hin => ?results, fun off hoff hin => ?writes⟩
  case exact =>
    obtain ⟨r, haddr, hread, hfree⟩ : ReadsAs s false p := by
      simp only [List.mem_cons, List.not_mem_nil, or_false] at hp
      rcases hp with rfl | rfl | rfl | rfl | rfl | rfl | rfl | rfl | rfl | rfl | rfl | rfl | rfl | rfl
      exacts [⟨.id, rfl, rfl, rfl⟩, ⟨.ctrl, rfl, ctrlWord_eq _, rfl⟩, ⟨.config, rfl, configWord_eq _, rfl⟩,
        ⟨.fs, rfl, (BitVec.ofNat_toNat 32 _).symm, rfl⟩, ⟨.hpslo, rfl, (BitVec.ofNat_toNat 32 _).symm, rfl⟩,
        ⟨.cmd, rfl, rfl, rfl⟩, ⟨.cursor, rfl, (BitVec.ofNat_toNat 32 _).symm, rfl⟩,
        ⟨.thresh 0, rfl, (limb_eq _ 0).trans (by rw [Nat.mul_zero, pow_zero, Nat.div_one]), rfl⟩,
        ⟨.thresh 1, rfl, limb_eq _ 1, rfl⟩, ⟨.thresh 2, rfl, limb_eq _ 2, rfl⟩, ⟨.thresh 3, rfl, limb_eq _ 3, rfl⟩,
        ⟨.arg0, rfl, rfl, rfl⟩, ⟨.arg1, rfl, rfl, rfl⟩, ⟨.sampleIn, rfl, rfl, rfl⟩]
    exact hread ▸ step_readReg hin haddr (.inr hfree)
  case binw =>
    exact ⟨s.binw, step_readReg (r := .binw) hin rfl (.inr rfl), binw_exact, fun hl => if_neg hl⟩
  case results =>
    obtain ⟨r, haddr, hread, hun⟩ : ReadsAs s true p := by
      simp only [List.mem_cons, List.not_mem_nil, or_false] at hp
      rcases hp with rfl | rfl | rfl | rfl | rfl | rfl | rfl | rfl | rfl | rfl
      exacts [⟨.out0, rfl, rfl, rfl⟩, ⟨.out1, rfl, rfl, rfl⟩, ⟨.result, rfl, rfl, rfl⟩, ⟨.freq, rfl, rfl, rfl⟩,
        ⟨.cents, rfl, rfl, rfl⟩, ⟨.peakbin, rfl, (BitVec.ofNat_toNat 32 _).symm, rfl⟩,
        ⟨.peakmag 0, rfl, (limb_eq _ 0).trans (by rw [Nat.mul_zero, pow_zero, Nat.div_one]), rfl⟩,
        ⟨.peakmag 1, rfl, limb_eq _ 1, rfl⟩, ⟨.peakmag 2, rfl, limb_eq _ 2, rfl⟩, ⟨.peakmag 3, rfl, limb_eq _ 3, rfl⟩]
    exact ⟨fun hidle => hread ▸ step_readReg hin haddr (.inl hidle), fun hbusy =>
      ⟨_, step_readUnspecified hin (haddr ▸ regOffset_aligned r) (haddr ▸ targetOf_regOffset r) hbusy hun⟩⟩
  case writes =>
    obtain ⟨r, haddr, hcmd, hignore⟩ : ReadOnly off := by
      simp only [List.mem_cons, List.not_mem_nil, or_false] at hoff
      rcases hoff with rfl | rfl | rfl | rfl | rfl | rfl | rfl | rfl | rfl | rfl | rfl | rfl | rfl | rfl | rfl
      exacts [⟨.id, rfl, nofun, fun _ _ => rfl⟩, ⟨.binw, rfl, nofun, fun _ _ => rfl⟩,
        ⟨.cursor, rfl, nofun, fun _ _ => rfl⟩, ⟨.out0, rfl, nofun, fun _ _ => rfl⟩,
        ⟨.out1, rfl, nofun, fun _ _ => rfl⟩, ⟨.result, rfl, nofun, fun _ _ => rfl⟩,
        ⟨.freq, rfl, nofun, fun _ _ => rfl⟩, ⟨.cents, rfl, nofun, fun _ _ => rfl⟩,
        ⟨.peakbin, rfl, nofun, fun _ _ => rfl⟩, ⟨.peakmag 0, rfl, nofun, fun _ _ => rfl⟩,
        ⟨.peakmag 1, rfl, nofun, fun _ _ => rfl⟩, ⟨.peakmag 2, rfl, nofun, fun _ _ => rfl⟩,
        ⟨.peakmag 3, rfl, nofun, fun _ _ => rfl⟩, ⟨.notecount, rfl, nofun, fun _ _ => rfl⟩,
        ⟨.firtaps, rfl, nofun, fun _ _ => rfl⟩]
    have hne : Target.reg r ≠ .reg .cmd := fun h => hcmd (Target.reg.inj h)
    rw [step_writeTarget hin (haddr ▸ regOffset_aligned r) (haddr ▸ targetOf_regOffset r) hne, writeTarget, hignore]

end Sys2Proof.Machine
end

section
/-! Host reads add no fault but `UNWRITTEN` (R75, R77), reserved offsets (R43), and the windows (R79 to R82). -/

namespace Sys2Proof.Machine

open Safety

/-! ## The faults of a read -/

theorem readOr_faults_new {w : Nat} {v : Option (BitVec w)} {s : State} {f : Fault} (h : f ∈ (readOr v s).2.faults) :
    f ∈ s.faults ∨ f = .unwritten := by
  cases v with
  | some x => exact .inl h
  | none => exact ((mem_recordFault .unwritten f s.faults).mp h).symm

/-- R75: of the targets only the memory entries can be found unwritten. -/
theorem readTarget_faults_new {t : Target} {s : State} {f : Fault} (h : f ∈ (readTarget t s).2.faults) :
    f ∈ s.faults ∨ f = .unwritten := by
  cases t with
  | dec j => exact readOr_faults_new h
  | spec k l => exact readOr_faults_new h
  | inp a => exact readOr_faults_new h
  | reg | noteTab | firCoef | firDl | reserved => exact .inl h

theorem memRead_faults_new {addr : Offset} {s : State} {f : Fault} (h : f ∈ (memRead addr s).2.faults) :
    f ∈ s.faults ∨ f = .unwritten := by
  unfold memRead at h
  dsimp only at h
  split at h
  · exact .inl h
  · exact readTarget_faults_new h

/-- R22: the memory windows begin at `0x4000`. -/
theorem readTarget_faults_of_lt {a : Nat} (ha : a < 0x4000) (s : State) :
    (readTarget (targetOf a) s).2.faults = s.faults := by
  have hkind : (∃ r, targetOf a = .reg r) ∨ (∃ j, targetOf a = .noteTab j) ∨ (∃ k, targetOf a = .firCoef k) ∨
      (∃ m, targetOf a = .firDl m) ∨ targetOf a = .reserved := by
    grind [targetOf]
  rcases hkind with ⟨_, h⟩ | ⟨_, h⟩ | ⟨_, h⟩ | ⟨_, h⟩ | h <;> rw [h] <;> rfl

theorem memRead_faults_of_lt {addr : Offset} (haddr : addr.toNat < 0x4000) (s : State) :
    (memRead addr s).2.faults = s.faults := by
  unfold memRead
  dsimp only
  split
  · rfl
  · exact readTarget_faults_of_lt haddr s

/-- Settles O43: a bad access is a bus error, and a good one is `memRead` with its answer. -/
theorem readsChangeNoBlockState : Obligations.ReadsChangeNoBlockState := by
  unfold Obligations.ReadsChangeNoBlockState
  intro s addr width rest hin
  by_cases hok : accessOk addr width = true
  · obtain ⟨fs, c, hread⟩ := memRead_state addr { s with inputs := rest }
    have hstep : step s = .next { (memRead addr { s with inputs := rest }).2 with
        resp := .data (memRead addr { s with inputs := rest }).1 } := by
      rw [step_cons hin, runInput, hostRead, if_pos hok]
    exact ⟨_, hstep, by rw [hread], fun f => memRead_faults_new (s := { s with inputs := rest }),
      fun haddr => memRead_faults_of_lt haddr { s with inputs := rest }⟩
  · rw [step_hostRead_bad (Bool.not_eq_true _ ▸ hok) hin]
    exact ⟨_, rfl, rfl, fun f => .inl, fun _ => rfl⟩

/-! ## Reserved offsets (R43) -/

theorem targetOf_of_gap {a : Nat} (ha : 0x070 ≤ a ∧ a < 0x1000) : targetOf a = .reserved := by
  have hreg : regAt a = none := by
    cases h : regAt a with
    | none => rfl
    | some r =>
      have := eq_regOffset_of_regAt h
      have := regOffset_lt r
      omega
  rw [targetOf, if_pos ha.2, hreg]

/-- `t` reads 0 and ignores writes. -/
structure Void (s : State) (t : Target) : Prop where
  reads : readTarget t s = (0, s)
  ignores : ∀ v u, writeTarget t v u = u
  target : t ≠ .reg .cmd

theorem void_reserved (s : State) : Void s .reserved := ⟨rfl, fun _ _ => rfl, nofun⟩

theorem void_noteTab {s : State} {j : Nat} (hj : s.rom.noteTable.length ≤ j) : Void s (.noteTab j) :=
  ⟨by rw [readTarget, List.getD_eq_default _ _ hj], fun _ _ => rfl, nofun⟩

theorem void_firCoef {s : State} {k : Nat} (hk : s.rom.firCoef.length ≤ k) : Void s (.firCoef k) :=
  ⟨by rw [readTarget, List.getD_eq_default _ _ hk]; rfl, fun _ _ => rfl, nofun⟩

theorem void_firDl {s : State} {m : Nat} (hm : s.dl.length ≤ m) : Void s (.firDl m) :=
  ⟨by rw [readTarget, List.getD_eq_default _ _ hm]; rfl, fun _ _ => rfl, nofun⟩

/-- The offsets that R43 reserves whether busy or not: those outside the registers and windows, and the tails of the ROM
windows. -/
def Gap (r : Rom) (a : Nat) : Prop :=
  (0x070 ≤ a ∧ a < 0x1000) ∨ (0x1000 + 4 * r.noteTable.length ≤ a ∧ a < 0x2000) ∨
    (0x2000 + 4 * r.firCoef.length ≤ a ∧ a < 0x3000) ∨ (0x3400 ≤ a ∧ a < 0x4000) ∨ (0x10000 ≤ a ∧ a < 0x80000)

theorem void_of_gap {s : State} {a : Nat} (hal : a % 4 = 0) (h : Gap s.rom a) :
    Void s (targetOf a) ∧ unspecifiedWhileBusy (targetOf a) = false := by
  have hreserved (ht : targetOf a = .reserved) :
      Void s (targetOf a) ∧ unspecifiedWhileBusy (targetOf a) = false := ht ▸ ⟨void_reserved s, rfl⟩
  rcases h with h | ⟨hlo, hhi⟩ | ⟨hlo, hhi⟩ | ⟨hlo, hhi⟩ | ⟨hlo, hhi⟩
  · exact hreserved (targetOf_of_gap h)
  · by_cases hwin : a < 0x1200
    · have ht : targetOf a = .noteTab ((a - 0x1000) / 4) := by
        rw [targetOf, if_neg (by omega), if_pos hwin]
      rw [ht]
      exact ⟨void_noteTab (by omega), rfl⟩
    · exact hreserved (by grind [targetOf])
  · by_cases hwin : a < 0x2400
    · have ht : targetOf a = .firCoef ((a - 0x2000) / 4) := by
        rw [targetOf, if_neg (by omega), if_neg (by omega), if_neg (by omega), if_pos hwin]
      rw [ht]
      exact ⟨void_firCoef (by omega), rfl⟩
    · exact hreserved (by grind [targetOf])
  · exact hreserved (by grind [targetOf])
  · exact hreserved (by grind [targetOf])

/-- R43, R47: the tail of the `FIRDL` window beyond the delay line. -/
theorem targetOf_firdlTail {a : Nat} (hlo : 0x3000 ≤ a) (hhi : a < 0x3400) : targetOf a = .firDl ((a - 0x3000) / 4) := by
  rw [targetOf, if_neg (by omega), if_neg (by omega), if_neg (by omega), if_neg (by omega), if_neg (by omega), if_pos hhi]

theorem step_readVoid {s : State} {addr : Offset} {rest : List Input} (hin : s.inputs = .hostRead addr 32 :: rest)
    (hal : addr.toNat % 4 = 0) (hvoid : Void { s with inputs := rest } (targetOf addr.toNat))
    (hfree : s.eng = .idle ∨ unspecifiedWhileBusy (targetOf addr.toNat) = false) :
    step s = .next { s with inputs := rest, resp := .data 0 } := by
  rw [step_readTarget hin hal rfl hfree, hvoid.reads]

theorem step_writeIgnored {s : State} {addr : Offset} {v : Word} {rest : List Input} {t : Target}
    (hin : s.inputs = .hostWrite addr 32 v :: rest) (hal : addr.toNat % 4 = 0) (ht : targetOf addr.toNat = t)
    (hignores : ∀ v u, writeTarget t v u = u) (hcmd : t ≠ .reg .cmd) :
    step s = .next { s with inputs := rest, resp := .ack } := by
  rw [step_writeTarget hin hal ht hcmd, hignores]

/-- Settles O44: whatever such an offset names reads 0 and ignores writes. -/
theorem reservedOffsetsReadZero : Obligations.ReservedOffsetsReadZero := by
  unfold Obligations.ReservedOffsetsReadZero
  intro s addr v rest hal gap firdlTail
  have htail (h : firdlTail) : targetOf addr.toNat = .firDl ((addr.toNat - 0x3000) / 4) :=
    targetOf_firdlTail (by have := h.1; omega) h.2
  refine ⟨fun hin h => ?read, fun hin h => ?write⟩
  case read =>
    rcases h with h | ⟨h, hidle, hdl⟩
    · obtain ⟨hvoid, hfree⟩ := void_of_gap (s := { s with inputs := rest }) hal h
      exact step_readVoid hin hal hvoid (.inr hfree)
    · refine step_readVoid hin hal ?_ (.inl hidle)
      rw [htail h]
      exact void_firDl (by have := h.1; show s.dl.length ≤ _; omega)
  case write =>
    rcases h with h | h
    · obtain ⟨hvoid, -⟩ := void_of_gap (s := s) hal h
      exact step_writeIgnored hin hal rfl hvoid.ignores hvoid.target
    · exact step_writeIgnored hin hal (htail h) (fun _ _ => rfl) nofun

end Sys2Proof.Machine
end

section
/-! The windows (20_memory.md R79 to R82): the ROMs and the delay line, and the entries of `DEC`, `SPEC` and `IN`. -/

namespace Sys2Proof.Machine

open Safety

theorem toNat_ofNat20 {a : Nat} (ha : a < 2 ^ 20) : (BitVec.ofNat 20 a).toNat = a := by
  rw [BitVec.toNat_ofNat, Nat.mod_eq_of_lt ha]

/-! ## A window entry -/

section
variable {s : State} {a : Nat} {v : Word} {rest : List Input} {t : Target}

theorem step_readEntry (hin : s.inputs = .hostRead (BitVec.ofNat 20 a) 32 :: rest) (ha : a < 2 ^ 20) (hal : a % 4 = 0)
    (ht : targetOf a = t) (hfree : s.eng = .idle ∨ unspecifiedWhileBusy t = false) : step s =
      .next { (readTarget t { s with inputs := rest }).2 with
        resp := .data (readTarget t { s with inputs := rest }).1 } :=
  step_readTarget hin (by rwa [toNat_ofNat20 ha]) (by rwa [toNat_ofNat20 ha]) hfree

theorem step_readEntryBusy (hin : s.inputs = .hostRead (BitVec.ofNat 20 a) 32 :: rest) (ha : a < 2 ^ 20)
    (hal : a % 4 = 0) (ht : targetOf a = t) (hbusy : s.eng ≠ .idle) (hun : unspecifiedWhileBusy t = true) :
    ∃ u : Word, step s = .next { s with inputs := rest, resp := .data u, freeCtr := s.freeCtr + 1 } :=
  ⟨_, step_readUnspecified hin (by rwa [toNat_ofNat20 ha]) (by rwa [toNat_ofNat20 ha]) hbusy hun⟩

theorem step_writeEntry (hin : s.inputs = .hostWrite (BitVec.ofNat 20 a) 32 v :: rest) (ha : a < 2 ^ 20)
    (hal : a % 4 = 0) (ht : targetOf a = t) (hcmd : t ≠ .reg .cmd) :
    step s = .next (writeTarget t v { s with inputs := rest, resp := .ack }) :=
  step_writeTarget hin (by rwa [toNat_ofNat20 ha]) (by rwa [toNat_ofNat20 ha]) hcmd

end

/-! ## The ROM windows and the delay line -/

/-- Settles O45: each entry is its target, which reads the table and ignores writes. -/
theorem readOnlyWindowsReadTheirEntries : Obligations.ReadOnlyWindowsReadTheirEntries := by
  unfold Obligations.ReadOnlyWindowsReadTheirEntries
  intro s v rest hrom
  obtain ⟨hnotes, htaps⟩ := hrom
  obtain ⟨-, hnotes, -, -⟩ := wfNoteTable_iff.mp hnotes
  have htaps : s.rom.firCoef.length ≤ 256 := by
    simp only [wfFirCoef, Bool.and_eq_true, decide_eq_true_eq] at htaps
    exact htaps.2
  have hlength {w n : Nat} (hw : n < 2 ^ w) : (BitVec.ofNat w n).setWidth 32 = BitVec.ofNat 32 n := by
    rw [← BitVec.ofNat_toNat, BitVec.toNat_ofNat, Nat.mod_eq_of_lt hw]
  refine ⟨fun hin => ?notecount, fun hin => ?firtaps, fun j hj => ⟨fun hin => ?note, fun hin => ?noteWrite⟩,
    fun k hk => ⟨fun hin => ?coef, fun hin => ?coefWrite⟩,
    fun m hm => ⟨fun x hin hidle hlt hx => ?dl, fun hin hbusy => ?dlBusy, fun hin => ?dlWrite⟩⟩
  case notecount =>
    rw [step_readReg (r := .notecount) hin rfl (.inr rfl), readReg, hlength (by omega)]
  case firtaps =>
    rw [step_readReg (r := .firtaps) hin rfl (.inr rfl), readReg, hlength (by omega)]
  case note => exact step_readEntry hin (by omega) (by omega) (targetOf_noteTab (by omega)) (.inr rfl)
  case noteWrite => exact step_writeEntry hin (by omega) (by omega) (targetOf_noteTab (by omega)) nofun
  case coef => exact step_readEntry hin (by omega) (by omega) (targetOf_firCoef (by omega)) (.inr rfl)
  case coefWrite => exact step_writeEntry hin (by omega) (by omega) (targetOf_firCoef (by omega)) nofun
  case dl =>
    have hget : s.dl.getD m 0 = x := by rw [List.getD_eq_getElem?_getD, hx, Option.getD_some]
    rw [step_readEntry hin (by omega) (by omega) (targetOf_firDl hm) (.inl hidle), ← hget]
    rfl
  case dlBusy => exact step_readEntryBusy hin (by omega) (by omega) (targetOf_firDl hm) hbusy rfl
  case dlWrite => exact step_writeEntry hin (by omega) (by omega) (targetOf_firDl hm) nofun

/-! ## The entries of the memories -/

theorem unwritten_mem (s : State) : Fault.unwritten ∈ (modelFault .unwritten (drawn s)).faults :=
  (mem_recordFault .unwritten .unwritten s.faults).mpr (.inl rfl)

/-- R56, R75: a target that reads the memory entry `get`, shown to the host by `shown`. -/
theorem step_readMemory {s : State} {a w : Nat} {rest : List Input} {t : Target} (get : State → Option (BitVec w))
    (shown : BitVec w → Word) (hread : ∀ u, readTarget t u = (shown (readOr (get u) u).1, (readOr (get u) u).2))
    (hget : get { s with inputs := rest } = get s) (hin : s.inputs = .hostRead (BitVec.ofNat 20 a) 32 :: rest)
    (ha : a < 2 ^ 20) (hal : a % 4 = 0) (ht : targetOf a = t) (hfree : s.eng = .idle ∨ unspecifiedWhileBusy t = false) :
    (∀ x, get s = some x → step s = .next { s with inputs := rest, resp := .data (shown x) }) ∧
      (get s = none → ∃ t, step s = .next t ∧ Fault.unwritten ∈ t.faults) := by
  rw [step_readEntry hin ha hal ht hfree, hread, hget]
  refine ⟨fun x hx => ?_, fun hx => ?_⟩ <;> rw [hx]
  · rfl
  · exact ⟨_, rfl, unwritten_mem s⟩

theorem hostWriteDec_idle {s : State} (hidle : s.eng = .idle) (j : Nat) (v : Word) :
    hostWriteDec j v s = writeDec j (v.extractLsb' 0 16) s :=
  if_neg fun h => busy_eq_true_iff.mp h hidle

theorem hostWriteDec_busy {s : State} (hbusy : s.eng ≠ .idle) (j : Nat) (v : Word) :
    hostWriteDec j v s = writeDec j (freeValue 16 s) (modelFault .decWriteWhileBusy (drawn s)) :=
  if_pos (busy_eq_true_iff.mpr hbusy)

theorem hostWriteSpec_idle {s : State} (hidle : s.eng = .idle) (k l : Nat) (v : Word) :
    hostWriteSpec k l v s = writeSpec k (setLimb ((s.spec k).getD 0) l v) s :=
  if_neg fun h => busy_eq_true_iff.mp h hidle

theorem hostWriteSpec_busy {s : State} (hbusy : s.eng ≠ .idle) (k l : Nat) (v : Word) :
    hostWriteSpec k l v s = writeSpec k (freeValue 128 s) (modelFault .specWriteWhileBusy (drawn s)) :=
  if_pos (busy_eq_true_iff.mpr hbusy)

/-- Settles O47: an entry of `DEC` is read by `readOr`, and written by `hostWriteDec`. -/
theorem decWindow : Obligations.DecWindow := by
  unfold Obligations.DecWindow
  intro s j v rest hj
  have ht : targetOf (0x4000 + 4 * j) = .dec j := targetOf_dec hj
  have hlt : 0x4000 + 4 * j < 2 ^ 20 := by omega
  have hal : (0x4000 + 4 * j) % 4 = 0 := by omega
  refine ⟨fun hin hidle => ?read, fun hin hbusy => step_readEntryBusy hin hlt hal ht hbusy rfl,
    fun hin hidle => ?write, fun hin hbusy => ?writeBusy⟩
  case read =>
    exact step_readMemory (fun u => u.dec j) sext32 (fun _ => rfl) rfl hin hlt hal ht (.inl hidle)
  case write =>
    rw [step_writeEntry hin hlt hal ht nofun, writeTarget,
      hostWriteDec_idle (s := { s with inputs := rest, resp := .ack }) hidle]
    exact ⟨_, rfl, dec_writeDec_same j _ _, fun a ha => byte_setEntry_of_outside ha, rfl⟩
  case writeBusy =>
    rw [step_writeEntry hin hlt hal ht nofun, writeTarget,
      hostWriteDec_busy (s := { s with inputs := rest, resp := .ack }) hbusy]
    exact ⟨_, rfl, (mem_recordFault _ _ s.faults).mpr (.inl rfl)⟩

/-- Settles O48: an entry of `SPEC` is read by `readOr`, and a limb of it written by `hostWriteSpec`. -/
theorem specWindow : Obligations.SpecWindow := by
  unfold Obligations.SpecWindow
  intro s k l v rest hk hl
  have ht : targetOf (0x8000 + 16 * k + 4 * l) = .spec k l := targetOf_spec hk hl
  have hlt : 0x8000 + 16 * k + 4 * l < 2 ^ 20 := by omega
  have hal : (0x8000 + 16 * k + 4 * l) % 4 = 0 := by omega
  refine ⟨fun hin hidle => ?read, fun hin hbusy => step_readEntryBusy hin hlt hal ht hbusy rfl,
    fun hin hidle => ?write, fun hin hbusy => ?writeBusy⟩
  case read =>
    exact step_readMemory (fun u => u.spec k) (limb · l) (fun _ => rfl) rfl hin hlt hal ht (.inl hidle)
  case write =>
    rw [step_writeEntry hin hlt hal ht nofun, writeTarget,
      hostWriteSpec_idle (s := { s with inputs := rest, resp := .ack }) hidle]
    exact ⟨_, _, rfl, spec_writeSpec_same k _ _, fun m hm => limb_setLimb ((s.spec k).getD 0) v hm,
      fun a ha => byte_setEntry_of_outside ha, rfl⟩
  case writeBusy =>
    rw [step_writeEntry hin hlt hal ht nofun, writeTarget,
      hostWriteSpec_busy (s := { s with inputs := rest, resp := .ack }) hbusy]
    exact ⟨_, rfl, (mem_recordFault _ _ s.faults).mpr (.inl rfl)⟩

/-- Settles O49: an entry of `IN` is read by `readOr`, busy or not, and ignores writes. -/
theorem inWindow : Obligations.InWindow := by
  unfold Obligations.InWindow
  intro s a v rest ha
  have ht : targetOf (0x80000 + 4 * a) = .inp a := targetOf_inp
  have hlt : 0x80000 + 4 * a < 2 ^ 20 := by omega
  have hal : (0x80000 + 4 * a) % 4 = 0 := by omega
  exact ⟨fun hin => step_readMemory (fun u => u.inp a) sext32 (fun _ => rfl) rfl hin hlt hal ht (.inr rfl),
    fun hin => step_writeEntry hin hlt hal ht nofun⟩

end Sys2Proof.Machine
end

section
/-! The mapper's bounds (44_mapper.md R198, R199), and the range of an HPS product of magnitudes (43_hps.md R183). -/

namespace Sys2Proof.Machine

/-! ## CENTS (R198) -/

/-- Settles O25: the cents of 32-bit operands fit a word, so the register holds the integer itself. -/
theorem centsCommandWritesDeviation : Obligations.CentsCommandWritesDeviation := by
  unfold Obligations.CentsCommandWritesDeviation
  intro s hexec h0 h1
  have hpos {x : Word} (hx : x ≠ 0) : 0 < x.toNat := Nat.pos_of_ne_zero fun h => hx (BitVec.eq_of_toNat_eq h)
  obtain ⟨hlo, hhi⟩ := abs_le.mp (abs_cents_le (hpos h0) (hpos h1) s.latched.arg0.isLt s.latched.arg1.isLt)
  have hword : (centsWord (cents s.latched.arg0.toNat s.latched.arg1.toNat)).toInt =
      cents s.latched.arg0.toNat s.latched.arg1.toNat :=
    BitVec.toInt_ofInt_eq_self (by decide) (by omega) (by omega)
  refine ⟨centsWord (cents s.latched.arg0.toNat s.latched.arg1.toNat), ?_, exec_of_executing hexec⟩
  rw [hword]
  exact cents_near (hpos h0) (hpos h1)

/-! ## The nearest note (R199) -/

section
variable {nt : List Word}

/-- R194: a frequency from the first note on and below the last lies between two neighbours. -/
theorem exists_between {f : Nat} (hlo : noteFreq nt 0 ≤ f) (hhi : f < noteFreq nt (nt.length - 1)) :
    ∃ u, 1 ≤ u ∧ u ≤ nt.length - 1 ∧ noteFreq nt (u - 1) ≤ f ∧ f < noteFreq nt u := by
  have hex : ∃ j, f < noteFreq nt j := ⟨_, hhi⟩
  have hne : Nat.find hex ≠ 0 := fun h => absurd (h ▸ Nat.find_spec hex) (Nat.not_lt.mpr hlo)
  exact ⟨Nat.find hex, Nat.one_le_iff_ne_zero.mpr hne, Nat.find_min' hex hhi,
    Nat.not_lt.mp (Nat.find_min hex (by omega)), Nat.find_spec hex⟩

/-- R191: notes at most 101 cents apart, in cents. -/
theorem logb_le_of_pow_le {x y : Nat} (hx : 0 < x) (hy : 0 < y) (h : y ^ 1200 ≤ x ^ 1200 * 2 ^ 101) :
    1200 * Real.logb 2 y ≤ 1200 * Real.logb 2 x + 101 := by
  have hx' : (0 : ℝ) < x := by exact_mod_cast hx
  have hy' : (0 : ℝ) < y := by exact_mod_cast hy
  have hpow : (y : ℝ) ^ 1200 ≤ (x : ℝ) ^ 1200 * 2 ^ 101 := by exact_mod_cast h
  have hlog := Real.logb_le_logb_of_le one_lt_two (by positivity) hpow
  rw [Real.logb_mul (by positivity) (by positivity), Real.logb_pow, Real.logb_pow, Real.logb_pow,
    Real.logb_self_eq_one one_lt_two] at hlog
  push_cast at hlog
  linarith

/-- R199 (b): more than 50 cents below the upper of two notes at most 101 cents apart is at most 50 above the lower. -/
theorem cents_lower_le {f x y : Nat} (hf : 0 < f) (hx : 0 < x) (hy : 0 < y) (hxy : y ^ 1200 ≤ x ^ 1200 * 2 ^ 101)
    (hupper : cents f y ≤ -51) : cents f x ≤ 50 := by
  have hdiv {r : Nat} (hr : 0 < r) : Real.logb 2 ((f : ℝ) / r) = Real.logb 2 f - Real.logb 2 r :=
    Real.logb_div (by exact_mod_cast hf.ne') (by exact_mod_cast hr.ne')
  obtain ⟨-, hcy⟩ := abs_lt.mp (cents_near hf hy)
  obtain ⟨hcx, -⟩ := abs_lt.mp (cents_near hf hx)
  rw [hdiv hy] at hcy
  rw [hdiv hx] at hcx
  have hgap := logb_le_of_pow_le hx hy hxy
  have hupper' : (cents f y : ℝ) ≤ -51 := by exact_mod_cast hupper
  have hlt : (cents f x : ℝ) < 51 := by linarith
  have hlt' : cents f x < 51 := by exact_mod_cast hlt
  omega

end

/-- Settles O27: the top note is 0 cents from itself, and between two neighbours each of the two choices is within 50. -/
theorem nearestNoteIsWithinFiftyCents : Obligations.NearestNoteIsWithinFiftyCents := by
  unfold Obligations.NearestNoteIsWithinFiftyCents
  intro nt f idx c hwf hgaps hnear
  refine ⟨nearest_lt hwf hnear, ?_⟩
  have hpos := wfNoteTable_length_pos hwf
  by_cases hout : f < noteFreq nt 0 ∨ noteFreq nt (nt.length - 1) < f
  · rw [nearest_of_outside hwf hout] at hnear
    cases hnear
  · obtain ⟨hlo, hhi⟩ := not_or.mp hout
    rcases (Nat.not_lt.mp hhi).eq_or_lt with rfl | hlt
    · rw [nearest_top hwf] at hnear
      cases hnear
      decide
    · obtain ⟨u, hu, hul, hbelow, habove⟩ := exists_between (Nat.not_lt.mp hlo) hlt
      have hlower := noteFreq_pos hwf (show u - 1 < nt.length by omega)
      have hupper := noteFreq_pos hwf (show u < nt.length by omega)
      rw [nearest_between hwf hu (by omega) hbelow habove] at hnear
      split_ifs at hnear with hchoice
      · cases hnear
        refine ⟨hchoice, ?_⟩
        rw [cents_of_lt (by omega) habove]
        omega
      · cases hnear
        have hf : 0 < f := hlower.trans_le hbelow
        have hfar : cents f (noteFreq nt u) ≤ -51 := by omega
        have hlow : -50 ≤ cents f (noteFreq nt (u - 1)) := by
          rw [cents_of_le hlower hbelow]
          omega
        have hgap := hgaps (u - 1) (by omega)
        rw [Nat.sub_add_cancel hu, ← noteFreq, ← noteFreq] at hgap
        exact ⟨hlow, cents_lower_le hf hlower hupper hgap hfar⟩

/-! ## HPS products of magnitudes (R183) -/

theorem hpsFactor_le {b : Nat} {S : Nat → SpecWord} (hS : ∀ x, x < b → (S x).toNat < 2 ^ 32) (i k : Nat) :
    hpsFactor b S i k ≤ 2 ^ 32 := by
  unfold hpsFactor
  split_ifs with hk
  · exact (hS _ hk).le
  · decide

/-- R183: four words below `2^32` do not reach `2^128`. -/
theorem hpsProduct_lt {b : Nat} {S : Nat → SpecWord} (hS : ∀ x, x < b → (S x).toNat < 2 ^ 32) {i : Nat} (hi : i < b) :
    hpsProduct b S i < 2 ^ 128 := by
  rw [hpsProduct_eq_factors]
  calc (S i).toNat * hpsFactor b S i 2 * hpsFactor b S i 3 * hpsFactor b S i 4
      ≤ (S i).toNat * 2 ^ 32 * 2 ^ 32 * 2 ^ 32 := by gcongr <;> exact hpsFactor_le hS i _
    _ < 2 ^ 32 * 2 ^ 32 * 2 ^ 32 * 2 ^ 32 := by
      have := hS i hi
      gcongr
    _ = 2 ^ 128 := by norm_num

/-- Settles O19: the closed form reduces a product modulo `2^128` that is smaller already. -/
theorem hpsOfMagnitudesNeverWraps : Obligations.HpsOfMagnitudesNeverWraps := by
  unfold Obligations.HpsOfMagnitudesNeverWraps
  intro s S hexec hspec
  obtain ⟨t, hstep, hcand, -⟩ := hpsClosedForm s S hexec fun x hx => (hspec x hx).1
  refine ⟨t, hstep, fun i hlo hi => ?_⟩
  obtain ⟨v, hv, hprod⟩ := hcand i hlo hi
  exact ⟨v, hv, hprod.trans (Nat.mod_eq_of_lt (hpsProduct_lt (fun x hx => (hspec x hx).2) (by omega)))⟩

end Sys2Proof.Machine
end

section
/-! `XFORM` on a written frame (42_transform.md R170 to R173) and `FILT` on a written frame (41_filter.md R150 to R153). -/

namespace Sys2Proof.Machine

open Safety

/-! ## XFORM -/

section
variable {s : State} {d : List Sample}

/-- R171: a written frame is read as it is, and nothing changes. -/
theorem readDec_of_written (hlen : d.length = s.cfg.n) (hdec : ∀ j, j < s.cfg.n → s.dec j = some (d.getD j 0)) :
    readDec s = (d, s) := by
  have hlist : (List.range s.cfg.n).map (fun j => d.getD j 0) = d := by
    refine List.ext_getElem (by simp [hlen]) fun j _ hj => ?_
    rw [List.getElem_map, List.getElem_range, List.getD_eq_getElem d 0 hj]
  rw [readDec, readAll_written fun j hj => hdec j (List.mem_range.mp hj), hlist]

theorem bodyXform_of_written (hlen : d.length = s.cfg.n) (hdec : ∀ j, j < s.cfg.n → s.dec j = some (d.getD j 0)) :
    bodyXform s = writeSpecs 0 (magnitudes s.cfg.n s.cfg.b d) s := by
  rw [bodyXform, readDec_of_written hlen hdec]

theorem spec_xform_of_written (hlen : d.length = s.cfg.n) (hdec : ∀ j, j < s.cfg.n → s.dec j = some (d.getD j 0))
    {k : Nat} (hk : k < s.cfg.b) : (complete (bodyXform s)).spec k =
      some (if k = 0 then 0 else (Config.mag s.cfg.n d k).setWidth 128) := by
  rw [spec_congr (complete_mem _), spec_bodyXform hk, readDec_of_written hlen hdec]

end

theorem getD_of_all_zero {d : List Sample} (hd : ∀ x ∈ d, x = 0) (n : Nat) : d.getD n 0 = 0 := by
  rcases Nat.lt_or_ge n d.length with hn | hn
  · rw [List.getD_eq_getElem d 0 hn]
    exact hd _ (List.getElem_mem hn)
  · exact List.getD_eq_default d 0 hn

/-- R172 M4: an all-zero frame has magnitudes 0. -/
theorem mag_of_silent {d : List Sample} (hd : ∀ x ∈ d, x = 0) (n k : Nat) : Config.mag n d k = 0 := by
  have hall : d.all (fun x => x == 0) = true := List.all_eq_true.mpr fun x hx => by rw [hd x hx]; rfl
  rw [Config.mag, if_pos hall]

/-- Settles O15: the body is one run of `SPEC` writes. -/
theorem xformWritesMagnitudes : Obligations.XformWritesMagnitudes := by
  unfold Obligations.XformWritesMagnitudes
  intro s d hexec hb hlen hdec
  have hspec {k : Nat} (hk : k < s.cfg.b) := spec_xform_of_written hlen hdec hk
  refine ⟨_, exec_of_executing hexec, fun hb => hspec hb, fun k h1 hk => ?bin, fun hzero k hk => ?silent,
    fun a ha => ?bytes, ?frame⟩
  case bin => exact (hspec hk).trans (by rw [if_neg (by omega)])
  case silent =>
    have hsilent : ∀ x ∈ d, x = 0 := fun x hx => by
      obtain ⟨j, hj, rfl⟩ := List.mem_iff_getElem.mp hx
      rw [← hzero j (hlen ▸ hj), List.getD_eq_getElem d 0 hj]
    refine (hspec hk).trans ?_
    rw [mag_of_silent hsilent]
    split_ifs <;> rfl
  case bytes =>
    refine (stores_bodyXform s).byte_eq fun hin => ?_
    obtain ⟨hlo, hhi⟩ := hin
    unfold specAddr at hlo hhi
    omega
  case frame =>
    obtain ⟨m, hm⟩ := writeSpecs_state (magnitudes s.cfg.n s.cfg.b d) 0 s
    rw [bodyOf, bodyXform_of_written hlen hdec, hm]
    rfl

/-! ## The accuracy of XFORM (R172 M2) -/

/-- M4 is in keeping with M2: the reference transform of silence is 0. -/
theorem nearReference_mag {tol : ℝ} {l : Nat} {d : List Sample} {k : Nat}
    (h : Config.NearReference (2 ^ l) d k tol (Config.magImpl (2 ^ l) d k).toNat) :
    Config.NearReference (2 ^ l) d k tol (Config.mag (2 ^ l) d k).toNat := by
  by_cases hsilent : ∀ x ∈ d, x = 0
  · have htol : 0 ≤ tol := (abs_nonneg _).trans h
    rw [mag_of_silent hsilent]
    simp only [Config.NearReference, getD_of_all_zero hsilent]
    simpa using htol
  · have hall : ¬d.all (fun x => x == 0) = true := fun hall => hsilent fun x hx =>
      beq_iff_eq.mp (List.all_eq_true.mp hall x hx)
    rwa [Config.mag, if_neg hall]

/-- Settles O16: a bin from 1 on holds the magnitude that M2 speaks of. -/
theorem xformIsNearTheReference : Obligations.XformIsNearTheReference := by
  unfold Obligations.XformIsNearTheReference
  intro tol s l d hacc hexec hlo hhi hn hb hlen hdec
  refine ⟨_, exec_of_executing hexec, fun k h1 hk => ⟨_, spec_xform_of_written (hlen.trans hn.symm) (hn ▸ hdec)
    (hb ▸ hk), ?_⟩⟩
  rw [if_neg (by omega), BitVec.toNat_setWidth, Nat.mod_eq_of_lt ((BitVec.isLt _).trans (by decide)), hn]
  exact nearReference_mag (hacc l d k hlo hhi hlen h1 hk)

/-! ## FILT -/

/-- R150: the accumulator as a sum over the taps. -/
theorem firSum_eq (w : Int → Sample) (n : Int) (k : Nat) (h : List Sample) :
    firSum w n k h = ∑ i ∈ Finset.range h.length, (h.getD i 0).toInt * (w (n - (k + i : Nat))).toInt := by
  induction h generalizing k with
  | nil => rfl
  | cons c cs ih =>
    rw [firSum, ih, List.length_cons, Finset.sum_range_succ', add_comm]
    congr 1
    refine Finset.sum_congr rfl fun i _ => ?_
    rw [List.getD_cons_succ, Nat.add_assoc, Nat.add_comm 1]

/-- The input sequence of R151, of the samples `x` of the frame and the delay line `dl`, as integers. -/
def rawSequence (x : Nat → Sample) (dl : List Sample) (n : Int) : Int :=
  if 0 ≤ n then (x n.toNat).toInt else (dl.getD (-n - 1).toNat 0).toInt

theorem toInt_firInput {x : Nat → Sample} {dl : List Sample} {nd : Nat} {n : Int} (hn : n < nd) :
    (firInput ((List.range nd).map x) dl n).toInt = rawSequence x dl n := by
  unfold firInput rawSequence
  split_ifs with hpos
  · rw [List.getD_eq_getElem _ 0 (by simp; omega), List.getElem_map, List.getElem_range]
  · rfl

/-- R150, R151: up to the frame's last sample the accumulator is the sum over its input sequence. -/
theorem firAcc_eq {h : List Sample} {x : Nat → Sample} {dl : List Sample} {nd : Nat} {n : Int} (hn : n < nd) :
    firAcc h (firInput ((List.range nd).map x) dl) n =
      ∑ k ∈ Finset.range h.length, (h.getD k 0).toInt * rawSequence x dl (n - k) := by
  rw [firAcc, firSum_eq]
  refine Finset.sum_congr rfl fun k _ => ?_
  rw [Nat.zero_add, toInt_firInput (by omega)]

/-- R152: the next delay line holds the sequence's last samples, the most recent first. -/
theorem getD_nextDl {h : List Sample} {w : Int → Sample} {nd m : Nat} (hm : m < h.length - 1) :
    (nextDl h w nd).getD m 0 = w ((nd : Int) - 1 - m) := by
  simp [nextDl, hm, ← List.map_eq_flatMap]

section
variable {s : State} {x : Nat → Sample}

/-- R151: a written frame is read as it is, and nothing changes. -/
theorem readFrame_of_written (hin : ∀ a, a < s.nd → s.inp (s.slotBase s.latched.slot + a) = some (x a)) :
    readFrame s = ((List.range s.nd).map x, s) := by
  have hval : ∀ i ∈ List.range' (s.slotBase s.latched.slot) s.nd,
      s.inp i = some (x (i - s.slotBase s.latched.slot)) := fun i hi => by
    obtain ⟨a, ha, rfl⟩ := List.mem_range'.mp hi
    rw [Nat.one_mul, hin a ha, Nat.add_sub_cancel_left]
  rw [readFrame, readAll_written hval, List.range'_eq_map_range, List.map_map]
  congr 2
  funext a
  simp

theorem bodyFilt_of_written (hin : ∀ a, a < s.nd → s.inp (s.slotBase s.latched.slot + a) = some (x a)) : bodyFilt s =
    { setSlot s.latched.slot .empty
        (writeDecs 0 (decimate s.rom.firCoef (firInput ((List.range s.nd).map x) s.dl) s.cfg.n s.cfg.d) s) with
      dl := nextDl s.rom.firCoef (firInput ((List.range s.nd).map x) s.dl) s.nd, rdslot := !s.rdslot } := by
  rw [bodyFilt_eq, readFrame_of_written hin]

theorem dec_bodyFilt_of_written (hin : ∀ a, a < s.nd → s.inp (s.slotBase s.latched.slot + a) = some (x a)) {j : Nat}
    (hj : j < s.cfg.n) : (bodyFilt s).dec j = some (BitVec.ofInt 16 (rnd16 (firAcc s.rom.firCoef
      (firInput ((List.range s.nd).map x) s.dl) ((j * s.cfg.d + s.cfg.d - 1 : Nat) : Int)))) := by
  rw [bodyFilt_of_written hin]
  show (writeDecs 0 (decimate s.rom.firCoef _ s.cfg.n s.cfg.d) s).dec j = _
  rw [dec_writeDecs, if_pos (by simpa [decimate] using hj)]
  simp [decimate, hj]

end

/-- Settles O14: the sums and the delay line are those of the input sequence, which agrees with that of the statement up
to the frame's last sample. -/
theorem filtDecimatesTheFrame : Obligations.FiltDecimatesTheFrame := by
  unfold Obligations.FiltDecimatesTheFrame
  intro s x hexec hd hn hin w acc
  have hframe : ∀ a, a < s.nd → s.inp (s.slotBase s.latched.slot + a) = some (x a) := hin
  refine ⟨_, exec_of_executing hexec, fun j hj => ?dec, ?length, fun m hm => ?dl, fun a ha => ?bytes, ?frame⟩
  case dec =>
    have hlast : (j : Int) * s.cfg.d + s.cfg.d - 1 = ((j * s.cfg.d + s.cfg.d - 1 : Nat) : Int) := by
      rw [Nat.cast_pred (by omega)]
      push_cast
      rfl
    have hlt : ((j * s.cfg.d + s.cfg.d - 1 : Nat) : Int) < s.nd := by
      have hmul : (j + 1) * s.cfg.d ≤ s.cfg.n * s.cfg.d := Nat.mul_le_mul_right _ hj
      rw [Nat.succ_mul] at hmul
      unfold State.nd
      omega
    refine (dec_bodyFilt_of_written hframe hj).trans ?_
    rw [firAcc_eq hlt, ← hlast]
    rfl
  case length => exact bodyFilt_dl_length s
  case dl =>
    rw [complete_dl, bodyOf, bodyFilt_of_written hframe]
    show ((nextDl s.rom.firCoef _ s.nd).getD m 0).toInt = _
    rw [getD_nextDl hm, toInt_firInput (by omega)]
    rfl
  case bytes =>
    refine (stores_bodyFilt s).byte_eq fun hinside => ?_
    obtain ⟨j, hj, hlo, hhi⟩ := hinside
    have := ha j hj
    unfold decAddr at hlo hhi
    omega
  case frame =>
    obtain ⟨m, hm⟩ := writeDecs_state
      (decimate s.rom.firCoef (firInput ((List.range s.nd).map x) s.dl) s.cfg.n s.cfg.d) 0 s
    rw [bodyOf, bodyFilt_of_written hframe, hm]
    rfl

end Sys2Proof.Machine
end

section
/-! Commands on unwritten entries (R56, log entry 10), and `RUN` on a silent frame (46_run.md R244 a). -/

namespace Sys2Proof.Machine

open Safety

/-! ## Reads of unwritten entries (R56) -/

theorem unwritten_mem_readOr_none {w : Nat} (s : State) :
    Fault.unwritten ∈ (readOr (none : Option (BitVec w)) s).2.faults :=
  (mem_recordFault .unwritten .unwritten s.faults).mpr (.inl rfl)

theorem unwritten_mem_readAll {w : Nat} {get : Nat → Option (BitVec w)} {is : List Nat} {i : Nat} (hi : i ∈ is)
    (hnone : get i = none) (s : State) : Fault.unwritten ∈ (readAll get is s).2.faults := by
  induction is generalizing s with
  | nil => cases hi
  | cons j is ih =>
    rcases List.mem_cons.mp hi with rfl | hmem
    · have hfirst : Fault.unwritten ∈ (readOr (get i) s).2.faults := by
        rw [hnone]
        exact unwritten_mem_readOr_none s
      exact readAll_faults (s := (readOr (get i) s).2) hfirst
    · exact ih hmem _

section
variable {s : State}

theorem unwritten_mem_bodyFilt {a : Nat} (ha : a < s.nd) (hnone : s.inp (s.slotBase s.latched.slot + a) = none) :
    Fault.unwritten ∈ (bodyFilt s).faults := by
  obtain ⟨m, hm⟩ := writeDecs_state
    (decimate s.rom.firCoef (firInput (readFrame s).1 s.dl) s.cfg.n s.cfg.d) 0 (readFrame s).2
  rw [bodyFilt_eq, hm]
  exact unwritten_mem_readAll (List.mem_range'.mpr ⟨a, ha, by rw [Nat.one_mul]⟩) hnone s

theorem unwritten_mem_bodyRun {a : Nat} (ha : a < s.nd) (hnone : s.inp (s.slotBase s.latched.slot + a) = none) :
    Fault.unwritten ∈ (bodyRun s).faults := by
  have hfilt := unwritten_mem_bodyFilt ha hnone
  have hhps := bodyHps_faults (bodyXform_faults hfilt)
  rw [bodyRun]
  exact bodyPeak_faults hhps

theorem unwritten_mem_bodyXform {j : Nat} (hj : j < s.cfg.n) (hnone : s.dec j = none) :
    Fault.unwritten ∈ (bodyXform s).faults := by
  obtain ⟨m, hm⟩ := writeSpecs_state (magnitudes s.cfg.n s.cfg.b (readDec s).1) 0 (readDec s).2
  rw [bodyXform, hm]
  exact unwritten_mem_readAll (List.mem_range.mpr hj) hnone s

theorem unwritten_mem_bodyPeak {k : Nat} (hk : k < s.cfg.b) (hnone : s.spec k = none) :
    Fault.unwritten ∈ (bodyPeak s).faults := by
  rw [bodyPeak_eq]
  exact unwritten_mem_readAll (List.mem_range.mpr hk) hnone s

theorem unwritten_mem_hpsHarmonic {i k : Nat} {p : SpecWord × State} (hp : SameButDraws s p.2) (hk : k * i < s.cfg.b)
    (hnone : s.spec (k * i) = none) : Fault.unwritten ∈ (hpsHarmonic i p k).2.faults := by
  have hspec := hp.spec_eq (k * i)
  have hcfg : p.2.cfg = s.cfg := by
    obtain ⟨fs, c, h⟩ := hp
    rw [h]
  rw [hpsHarmonic_in (by rwa [hcfg]), hspec, hnone]
  exact unwritten_mem_readOr_none (w := 128) p.2

/-- R181: a candidate reads its bin and its harmonics in range before it writes. -/
theorem unwritten_mem_hpsCandidate {i k : Nat} (h1 : 1 ≤ k) (h4 : k ≤ 4) (hk : k * i < s.cfg.b)
    (hnone : s.spec (k * i) = none) : Fault.unwritten ∈ (hpsCandidate s i).faults := by
  rw [hpsCandidate_chain, writeSpec_faults]
  generalize hp1 : readOr (s.spec i) s = p1
  have hread : SameButDraws s p1.2 := hp1 ▸ readOr_state (s.spec i) s
  have hsecond := hread.trans (hpsHarmonic_state i p1 2)
  obtain rfl | rfl | rfl | rfl : k = 1 ∨ k = 2 ∨ k = 3 ∨ k = 4 := by omega
  · have hfirst : Fault.unwritten ∈ p1.2.faults := by
      rw [← hp1, ← Nat.one_mul i, hnone]
      exact unwritten_mem_readOr_none (w := 128) s
    exact hpsHarmonic_faults (hpsHarmonic_faults (hpsHarmonic_faults hfirst))
  · exact hpsHarmonic_faults (hpsHarmonic_faults (unwritten_mem_hpsHarmonic hread hk hnone))
  · exact hpsHarmonic_faults (unwritten_mem_hpsHarmonic hsecond hk hnone)
  · exact unwritten_mem_hpsHarmonic (hsecond.trans (hpsHarmonic_state i _ 3)) hk hnone

/-- R181: the candidates before `i` write bins below `i`, so candidate `i` still finds its bins unwritten. -/
theorem unwritten_mem_foldl_hpsCandidate {is : List Nat} {i k : Nat} (hrising : is.Pairwise (· < ·)) (hi : i ∈ is)
    (h1 : 1 ≤ k) (h4 : k ≤ 4) (hk : k * i < s.cfg.b) (hnone : s.spec (k * i) = none) :
    Fault.unwritten ∈ (is.foldl hpsCandidate s).faults := by
  induction is generalizing s with
  | nil => cases hi
  | cons j is ih =>
    obtain ⟨hfirst, hrest⟩ := List.pairwise_cons.mp hrising
    rcases List.mem_cons.mp hi with rfl | hmem
    · exact foldl_hpsCandidate_faults (s := hpsCandidate s i) (unwritten_mem_hpsCandidate h1 h4 hk hnone)
    · have hcfg : (hpsCandidate s j).cfg = s.cfg := by
        obtain ⟨m, fs, c, h⟩ := hpsCandidate_state s j
        rw [h]
      have hne : k * i ≠ j := ((hfirst i hmem).trans_le (Nat.le_mul_of_pos_left i h1)).ne'
      exact ih hrest hmem (by rwa [hcfg]) (by rwa [spec_hpsCandidate_ne hne])

theorem unwritten_mem_bodyHps {i k : Nat} (hlo : s.cfg.hpslo ≤ i) (hcand : 2 * i < s.cfg.b) (h1 : 1 ≤ k) (h4 : k ≤ 4)
    (hk : k * i < s.cfg.b) (hnone : s.spec (k * i) = none) : Fault.unwritten ∈ (bodyHps s).faults :=
  unwritten_mem_foldl_hpsCandidate List.pairwise_lt_range' (mem_hpsScan.mpr ⟨hlo, hcand⟩) h1 h4 hk hnone

theorem not_inDec {n a : Nat} (ha : ∀ j, j < n → a < 0x4000 + 4 * j ∨ 0x4000 + 4 * j + 2 ≤ a) : ¬InDec n a := by
  rintro ⟨j, hj, hlo, hhi⟩
  have := ha j hj
  unfold decAddr at hlo hhi
  omega

theorem not_inSpec {b a : Nat} (ha : a < 0x8000 ∨ 0x8000 + 16 * b ≤ a) : ¬InSpec b a := by
  rintro ⟨hlo, hhi⟩
  unfold specAddr at hlo hhi
  omega

end

/-- Settles O29: a captured frame is written, and so is then all that the later stages read; an unwritten entry is recorded
when it is read, and a record stays. -/
theorem commandReadsOfUnwrittenEntries : Obligations.CommandReadsOfUnwrittenEntries := by
  unfold Obligations.CommandReadsOfUnwrittenEntries
  refine ⟨fun s t hc hw hen hexec hclaimed hstep => ?captured, fun s hexec => ?_⟩
  case captured =>
    rw [exec_of_executing hexec] at hstep
    cases hstep
    rw [complete_faults, bodyOf]
    exact bodyRun_written fun a ha => hw.wholly s.latched.slot (.inr hclaimed) a ha
  extract_lets sample outsideDec outsideSpec
  refine ⟨fun ⟨a, ha, hnone⟩ => ⟨?filt, ?run⟩, fun ⟨j, hj, hnone⟩ => ?xform,
    fun ⟨i, k, hlo, hcand, h1, h4, hk, hnone⟩ => ?hps, fun ⟨k, hk, hnone⟩ => ?peak⟩
  case filt =>
    refine ⟨_, exec_of_executing hexec, unwritten_mem_bodyFilt ha hnone,
      fun a ha => (stores_bodyFilt s).byte_eq (not_inDec ha), ?_⟩
    obtain ⟨m, fs, c, dl, h⟩ := bodyFilt_state s
    rw [bodyOf, h]
    cases hslot : s.latched.slot <;> rfl
  case run =>
    refine ⟨_, exec_of_executing hexec, ?_, fun a hdec hspec => ?_, ?_⟩
    · rw [complete_faults]
      exact unwritten_mem_bodyRun ha hnone
    · rw [complete_mem]
      exact (stores_bodyRun s).byte_eq fun h => h.elim (not_inDec hdec) (not_inSpec hspec)
    obtain ⟨m, fs, c, dl, pb, pm, f, r, ce, h⟩ := bodyRun_state s
    rw [bodyOf, h]
    cases hslot : s.latched.slot <;> rfl
  case xform =>
    refine ⟨_, exec_of_executing hexec, unwritten_mem_bodyXform hj hnone,
      fun a ha => (stores_bodyXform s).byte_eq (not_inSpec ha), ?_⟩
    obtain ⟨m, fs, c, h⟩ := bodyXform_state s
    rw [bodyOf, h]
    rfl
  case hps =>
    refine ⟨_, exec_of_executing hexec, unwritten_mem_bodyHps hlo hcand h1 h4 hk hnone,
      fun a ha => (stores_bodyHps s).byte_eq (not_inSpec ha), ?_⟩
    obtain ⟨m, fs, c, h⟩ := bodyHps_state s
    rw [bodyOf, h]
    rfl
  case peak =>
    refine ⟨_, exec_of_executing hexec, unwritten_mem_bodyPeak hk hnone, ?_⟩
    obtain ⟨fs, c, pb, pm, f, r, ce, h⟩ := bodyPeak_state s
    rw [bodyOf, h]
    rfl

/-! ## RUN on a silent frame (R244 a) -/

theorem firInput_of_silent {frame dl : List Sample} (hframe : ∀ x ∈ frame, x = 0) (hdl : ∀ x ∈ dl, x = 0) (n : Int) :
    firInput frame dl n = 0 := by
  unfold firInput
  split_ifs
  · exact getD_of_all_zero hframe _
  · exact getD_of_all_zero hdl _

/-- R150: silence is filtered to silence, whatever the coefficients. -/
theorem firAcc_of_silent {w : Int → Sample} (hw : ∀ n, w n = 0) (h : List Sample) (n : Int) : firAcc h w n = 0 := by
  rw [firAcc, firSum_eq]
  exact Finset.sum_eq_zero fun i _ => by rw [hw]; exact Int.mul_zero _

theorem rnd16_zero : rnd16 0 = 0 := by decide

section
variable {s : State}

theorem dec_bodyFilt_of_silent (hin : ∀ a, a < s.nd → s.inp (s.slotBase s.latched.slot + a) = some 0)
    (hdl : ∀ x ∈ s.dl, x = 0) {j : Nat} (hj : j < s.cfg.n) : (bodyFilt s).dec j = some 0 := by
  have hinput := firInput_of_silent (frame := (List.range s.nd).map fun _ => 0) (by simp) hdl
  rw [dec_bodyFilt_of_written (x := fun _ => 0) hin hj, firAcc_of_silent hinput, rnd16_zero]
  rfl

theorem spec_bodyXform_of_silent (hdec : ∀ j, j < s.cfg.n → s.dec j = some 0) {k : Nat} (hk : k < s.cfg.b) :
    (bodyXform s).spec k = some 0 := by
  have hread : readDec s = ((List.range s.cfg.n).map fun _ => 0, s) :=
    readAll_written (fun j hj => hdec j (List.mem_range.mp hj)) s
  rw [spec_bodyXform hk, hread, mag_of_silent (by simp)]
  split_ifs <;> rfl

theorem spec_bodyHps_of_silent (hspec : ∀ k, k < s.cfg.b → s.spec k = some 0) {k : Nat} (hk : k < s.cfg.b) :
    (bodyHps s).spec k = some 0 := by
  rw [spec_bodyHps (S := fun _ => 0) hspec hk, hpsWord_eq_zero rfl]

/-- R192: of all-zero words bin 0 is taken, and a threshold of at least 1 gates it. -/
theorem bodyPeak_of_silent (hspec : ∀ k, k < s.cfg.b → s.spec k = some 0) (hb : 1 ≤ s.cfg.b)
    (hthresh : s.latched.thresh ≠ 0) :
    bodyPeak s = { s with peakbin := 0, peakmag := 0, freq := 0, result := 0x40000000, cents := 0 } := by
  have hmax : FirstMax (fun _ => 0) s.cfg.b 0 := ⟨hb, fun x _ => le_rfl, nofun⟩
  have hgate : (0 : SpecWord).toNat < s.latched.thresh.toNat :=
    Nat.pos_of_ne_zero fun h => hthresh (BitVec.eq_of_toNat_eq h)
  have hfreq : b2f s.cfg.binw 0 = 0 := by rw [b2f, Nat.zero_mul]; rfl
  rw [bodyPeak_of_written hspec hmax, hfreq, pitchOf, if_pos hgate]
  rfl

end

/-- Settles O30: each stage makes zeros of zeros. -/
theorem silentFrameIsGated : Obligations.SilentFrameIsGated := by
  unfold Obligations.SilentFrameIsGated
  intro s hctl hen hexec hin hdl hthresh
  have hb : 1 ≤ s.cfg.b := by
    obtain ⟨l, -, -, -, hb, -, -⟩ := cfg_of_started hctl hen
    rw [hb]
    exact Nat.one_le_two_pow
  have hfilt := bodyFilt_cfg s
  have hxform := (bodyXform_cfg (bodyFilt s)).trans hfilt
  have hhps := (bodyHps_cfg (bodyXform (bodyFilt s))).trans hxform
  have hspec : ∀ k, k < s.cfg.b → (bodyHps (bodyXform (bodyFilt s))).spec k = some 0 := by
    have hdec : ∀ j, j < s.cfg.n → (bodyFilt s).dec j = some 0 := fun j => dec_bodyFilt_of_silent hin hdl
    rw [← hfilt] at hdec
    have hmags : ∀ k, k < (bodyFilt s).cfg.b → (bodyXform (bodyFilt s)).spec k = some 0 := fun k =>
      spec_bodyXform_of_silent hdec
    rw [hfilt, ← hxform] at hmags
    intro k hk
    exact spec_bodyHps_of_silent hmags (by rwa [hxform])
  have hlatched : (bodyHps (bodyXform (bodyFilt s))).latched = s.latched := by
    obtain ⟨m1, fs1, c1, dl, h1⟩ := bodyFilt_state s
    obtain ⟨m2, fs2, c2, h2⟩ := bodyXform_state (bodyFilt s)
    obtain ⟨m3, fs3, c3, h3⟩ := bodyHps_state (bodyXform (bodyFilt s))
    rw [h3, h2, h1]
    rfl
  have hpeak := bodyPeak_of_silent (by rwa [hhps]) (by rwa [hhps]) (by rwa [hlatched])
  refine ⟨_, exec_of_executing hexec, ?_⟩
  rw [bodyOf, bodyRun, hpeak]
  exact ⟨rfl, rfl, rfl, rfl, rfl, hspec⟩

end Sys2Proof.Machine
end

section
/-! Runs of queued inputs (R84), and `RUN` against its four stage commands with nothing in between (46_run.md R242). -/

namespace Sys2Proof.Machine

open Safety

/-! ## Runs of inputs -/

section
variable {s : State} {es : List Input}

/-- R84: whatever is queued, the run ends. -/
theorem exists_run (k : Nat) (s : State) : ∃ t, Sys2Proof.core.run k s = .next t := by
  induction k generalizing s with
  | zero => exact ⟨s, rfl⟩
  | succ k ih =>
    obtain ⟨u, hu⟩ := stepAlwaysAnswers s
    obtain ⟨t, ht⟩ := ih u
    exact ⟨t, (coreRun_succ Sys2Proof.core hu).trans ht⟩

/-- R121: the idle engine of a started block accepts a command other than `CENTS`. -/
theorem runInputs_command {w : Word} {i : Instr} (hd : decode w = .ok i) (hidle : s.eng = .idle)
    (hen : s.ctrl.en = true) (hi : i ≠ .cents) :
    runInputs (.hostWrite 0x018 32 w :: es) s = runInputs es (accept i { s with inputs := es, resp := .ack }) := by
  refine runInputs_cons ?_ rfl
  rw [runInput, hostWrite_good (by decide), if_pos (by rfl), offer_of_decode (s := { s with inputs := es, resp := .ack })
    hidle hd, exec_of_idle (s := { s with inputs := es, resp := .ack }) hidle]
  rcases offerDecoded_cases i { s with inputs := es, resp := .ack } with ⟨-, hstopped, -⟩ | ⟨hcents, -⟩ | ⟨-, -, ho⟩
  · exact absurd hstopped (Bool.not_eq_false _ ▸ hen)
  · exact absurd hcents hi
  · rw [ho]

theorem runInputs_read {addr : Offset} {width : Nat} : runInputs (.hostRead addr width :: es) s =
    runInputs es (hostRead addr width { s with inputs := es }) := by
  refine runInputs_cons rfl ?_
  by_cases hok : accessOk addr width = true
  · obtain ⟨fs, c, hread⟩ := memRead_state addr { s with inputs := es }
    simp only [hostRead, if_pos hok, hread]
  · rw [hostRead_bad (Bool.not_eq_true _ ▸ hok)]

theorem runInputs_capture {v : BitVec 16} : runInputs (.capture v :: es) s =
    runInputs es (captureEvent v { s with inputs := es }) := by
  refine runInputs_cons rfl ?_
  obtain ⟨m, sl0, sl1, fr, cu, fs, hcap⟩ := captureEvent_state v { s with inputs := es }
  rw [hcap]

theorem runInputs_engine_idle (hidle : s.eng = .idle) : runInputs (.engine :: es) s = runInputs es s := by
  have hturn := engineTurn_eq { s with inputs := es }
  rw [if_pos hidle] at hturn
  exact runInputs_cons (t := { s with inputs := es }) hturn rfl

theorem runInputs_engine_wait (hwait : s.eng = .wait) :
    runInputs (.engine :: es) s = runInputs es (claim { s with inputs := es }) := by
  have hturn := engineTurn_eq { s with inputs := es }
  rw [if_neg (by rw [hwait]; decide), exec_of_waiting (s := { s with inputs := es }) hwait] at hturn
  refine runInputs_cons hturn ?_
  rcases claim_cases { s with inputs := es } with ⟨-, hclaim⟩ | ⟨-, hclaim⟩
  · rw [hclaim]
    rfl
  · rw [hclaim]

theorem runInputs_engine_exec (hexec : s.eng = .exec) :
    runInputs (.engine :: es) s = runInputs es (complete (bodyOf s.latched.op { s with inputs := es })) := by
  have hturn := engineTurn_eq { s with inputs := es }
  rw [if_neg (by rw [hexec]; decide), exec_of_executing (s := { s with inputs := es }) hexec] at hturn
  refine runInputs_cons hturn ?_
  obtain ⟨m, dl, o0, o1, r, f, ce, pb, pm, fs, c, hbody⟩ := bodyOf_state s.latched.op { s with inputs := es }
  rw [hbody]
  rfl

end

/-! ## What the stages do not read -/

/-- The fields that the steps of the command lifecycle and of the bus write, and no stage reads or writes. -/
structure Control where
  eng : Engine
  done : Bool
  curcmd : Byte
  op : Instr
  resp : Response
  inputs : List Input

def withControl (c : Control) (s : State) : State :=
  { s with eng := c.eng, done := c.done, curcmd := c.curcmd, latched := { s.latched with op := c.op }, resp := c.resp,
           inputs := c.inputs }

section
variable (c : Control)

theorem readOr_withControl {w : Nat} (v : Option (BitVec w)) (s : State) :
    readOr v (withControl c s) = Prod.map id (withControl c) (readOr v s) := by
  cases v with
  | some x => rfl
  | none => rfl

theorem readAll_withControl {w : Nat} (get : Nat → Option (BitVec w)) (is : List Nat) (s : State) :
    readAll get is (withControl c s) = Prod.map id (withControl c) (readAll get is s) := by
  induction is generalizing s with
  | nil => rfl
  | cons i is ih =>
    rw [readAll, readOr_withControl, Prod.map_snd, ih]
    rfl

theorem writeDecs_withControl (vs : List Sample) (j : Nat) (s : State) :
    writeDecs j vs (withControl c s) = withControl c (writeDecs j vs s) := by
  induction vs generalizing j s with
  | nil => rfl
  | cons v vs ih => exact ih (j + 1) (writeDec j v s)

theorem writeSpecs_withControl (vs : List SpecWord) (k : Nat) (s : State) :
    writeSpecs k vs (withControl c s) = withControl c (writeSpecs k vs s) := by
  induction vs generalizing k s with
  | nil => rfl
  | cons v vs ih => exact ih (k + 1) (writeSpec k v s)

theorem bodyFilt_withControl (s : State) : bodyFilt (withControl c s) = withControl c (bodyFilt s) := by
  have hread : readFrame (withControl c s) = Prod.map id (withControl c) (readFrame s) :=
    readAll_withControl c s.inp _ s
  have hwrite := writeDecs_withControl c
    (decimate s.rom.firCoef (firInput (readFrame s).1 s.dl) s.cfg.n s.cfg.d) 0 (readFrame s).2
  rw [bodyFilt_eq, bodyFilt_eq, hread, Prod.map_snd]
  exact congrArg (fun u : State => { setSlot s.latched.slot .empty u with
    dl := nextDl s.rom.firCoef (firInput (readFrame s).1 s.dl) s.nd, rdslot := !s.rdslot }) hwrite

theorem bodyXform_withControl (s : State) : bodyXform (withControl c s) = withControl c (bodyXform s) := by
  have hread : readDec (withControl c s) = Prod.map id (withControl c) (readDec s) := readAll_withControl c s.dec _ s
  rw [bodyXform, hread]
  exact writeSpecs_withControl c _ 0 (readDec s).2

theorem hpsHarmonic_withControl (i : Nat) (p : SpecWord × State) (k : Nat) :
    hpsHarmonic i (Prod.map id (withControl c) p) k = Prod.map id (withControl c) (hpsHarmonic i p k) := by
  by_cases hk : k * i < p.2.cfg.b
  · have hread := readOr_withControl c (p.2.spec (k * i)) p.2
    rw [hpsHarmonic_in hk, hpsHarmonic_in (p := Prod.map id (withControl c) p) hk, Prod.map_snd]
    exact congrArg (Prod.map (p.1 * ·) id) hread
  · rw [hpsHarmonic_out hk, hpsHarmonic_out (p := Prod.map id (withControl c) p) hk]

theorem hpsCandidate_withControl (s : State) (i : Nat) :
    hpsCandidate (withControl c s) i = withControl c (hpsCandidate s i) := by
  have hread : readOr ((withControl c s).spec i) (withControl c s) =
      Prod.map id (withControl c) (readOr (s.spec i) s) := readOr_withControl c (s.spec i) s
  rw [hpsCandidate_eq, hpsCandidate_eq, hread, List.foldl_hom _ (hpsHarmonic_withControl c i)]
  generalize [2, 3, 4].foldl (hpsHarmonic i) (readOr (s.spec i) s) = p
  rfl

theorem bodyHps_withControl (s : State) : bodyHps (withControl c s) = withControl c (bodyHps s) :=
  List.foldl_hom (withControl c) (hpsCandidate_withControl c)

theorem bodyPeak_withControl (s : State) : bodyPeak (withControl c s) = withControl c (bodyPeak s) := by
  have hread : readSpec (withControl c s) = Prod.map id (withControl c) (readSpec s) := readAll_withControl c s.spec _ s
  rw [bodyPeak_eq, hread]
  rfl

end

/-- The commands of R242: `RUN` and its four stages. -/
inductive Staged : Instr → Prop
  | run : Staged .run
  | filt : Staged .filt
  | xform : Staged .xform
  | hps : Staged .hps
  | peak : Staged .peak

theorem Staged.ne_cents {i : Instr} (hi : Staged i) : i ≠ .cents := by
  cases hi <;> nofun

theorem Staged.bodyOf_withControl {i : Instr} (hi : Staged i) (c : Control) (s : State) :
    bodyOf i (withControl c s) = withControl c (bodyOf i s) := by
  cases hi with
  | run =>
    show bodyRun (withControl c s) = withControl c (bodyRun s)
    rw [bodyRun, bodyFilt_withControl, bodyXform_withControl, bodyHps_withControl, bodyPeak_withControl,
      bodyRun]
  | filt => exact bodyFilt_withControl c s
  | xform => exact bodyXform_withControl c s
  | hps => exact bodyHps_withControl c s
  | peak => exact bodyPeak_withControl c s

/-! ## The latched operands (R122) -/

/-- The latched operands are those the registers hold: to accept a command again would latch them again. -/
structure Fresh (s : State) : Prop where
  rnd : s.latched.rnd = s.ctrl.rnd
  thresh : s.latched.thresh = s.thresh
  arg0 : s.latched.arg0 = s.arg0
  arg1 : s.latched.arg1 = s.arg1

theorem fresh_accept (i : Instr) (s : State) : Fresh (accept i s) := ⟨rfl, rfl, rfl, rfl⟩

theorem Fresh.latch_eq {s : State} (h : Fresh s) (i : Instr) : latch i s = { s.latched with op := i } := by
  rw [latch, ← h.rnd, ← h.thresh, ← h.arg0, ← h.arg1]

theorem fresh_bodyOf {s : State} (h : Fresh s) (i : Instr) : Fresh (bodyOf i s) := by
  obtain ⟨m, dl, o0, o1, r, f, ce, pb, pm, fs, c, hbody⟩ := bodyOf_state i s
  rw [hbody]
  exact ⟨h.rnd, h.thresh, h.arg0, h.arg1⟩

theorem bodyOf_en (i : Instr) (s : State) : (bodyOf i s).ctrl.en = s.ctrl.en := by
  obtain ⟨m, dl, o0, o1, r, f, ce, pb, pm, fs, c, hbody⟩ := bodyOf_state i s
  rw [hbody]
  rfl

/-! ## Runs with nothing in between -/

/-- The control fields after command `i` has completed, the last access to the bus being its own. -/
def controlAfter (i : Instr) (es : List Input) : Control := ⟨.idle, true, opcode i, i, .ack, es⟩

section
variable {s : State} {w : Word} {i : Instr} {es : List Input}

/-- A stage that claims no slot runs in one engine turn. -/
theorem runInputs_stage {c : Control} (hd : decode w = .ok i) (hi : Staged i) (hclaims : claimsSlot i = false)
    (hc : c.eng = .idle) (hs : Fresh s) (hen : s.ctrl.en = true) :
    runInputs (.hostWrite 0x018 32 w :: .engine :: es) (withControl c s) =
      runInputs es (withControl (controlAfter i es) (bodyOf i s)) := by
  have haccept : accept i { withControl c s with inputs := .engine :: es, resp := .ack } =
      withControl ⟨.exec, false, opcode i, i, .ack, .engine :: es⟩ s := by
    have hlatch : latch i { withControl c s with inputs := .engine :: es, resp := .ack } = { s.latched with op := i } :=
      hs.latch_eq i
    rw [accept, hlatch, hclaims]
    rfl
  rw [runInputs_command (s := withControl c s) hd hc hen hi.ne_cents, haccept, runInputs_engine_exec rfl]
  exact congrArg (fun u => runInputs es (complete u)) (hi.bodyOf_withControl ⟨.exec, false, opcode i, i, .ack, es⟩ s)

/-- The state in which a command executes that was accepted with the read slot `READY` (R122, R229), but for its control
fields. -/
def claimedNow (s : State) : State :=
  { setSlot s.rdslot .claimed s with
    latched := { s.latched with rnd := s.ctrl.rnd, thresh := s.thresh, arg0 := s.arg0, arg1 := s.arg1, slot := s.rdslot } }

theorem fresh_claimedNow (s : State) : Fresh (claimedNow s) := ⟨rfl, rfl, rfl, rfl⟩

/-- A command that claims a `READY` slot runs in two engine turns. -/
theorem runInputs_claiming (hd : decode w = .ok i) (hi : Staged i) (hclaims : claimsSlot i = true)
    (hidle : s.eng = .idle) (hen : s.ctrl.en = true) (hready : s.slot s.rdslot = .ready) :
    runInputs (.hostWrite 0x018 32 w :: .engine :: .engine :: es) s =
      runInputs es (withControl (controlAfter i es) (bodyOf i (claimedNow s))) := by
  have hclaim : claim { accept i { s with inputs := .engine :: .engine :: es, resp := .ack } with
      inputs := .engine :: es } = withControl ⟨.exec, false, opcode i, i, .ack, .engine :: es⟩ (claimedNow s) :=
    claim_eq hready
  have hwait : (accept i { s with inputs := .engine :: .engine :: es, resp := .ack }).eng = .wait := if_pos hclaims
  rw [runInputs_command hd hidle hen hi.ne_cents, runInputs_engine_wait hwait, hclaim, runInputs_engine_exec rfl]
  exact congrArg (fun u => runInputs es (complete u))
    (hi.bodyOf_withControl ⟨.exec, false, opcode i, i, .ack, es⟩ (claimedNow s))

end

/-- The control fields after `RUN` and after the sequence (R242). -/
theorem withControl_peak (s : State) : withControl (controlAfter .peak []) s =
    { withControl (controlAfter .run []) s with
      curcmd := 0x05, latched := { (withControl (controlAfter .run []) s).latched with op := .peak } } := rfl

/-- R242 with nothing in between: the bodies run are the same. -/
theorem run_eq_stages {s : State} (hidle : s.eng = .idle) (hen : s.ctrl.en = true) (hready : s.slot s.rdslot = .ready) :
    ∃ t, runInputs [.hostWrite 0x018 32 0x01, .engine, .engine] s = .next t ∧
      runInputs [.hostWrite 0x018 32 0x02, .engine, .engine, .hostWrite 0x018 32 0x03, .engine,
         .hostWrite 0x018 32 0x04, .engine, .hostWrite 0x018 32 0x05, .engine] s =
        .next { t with curcmd := 0x05, latched := { t.latched with op := .peak } } ∧
      t.curcmd = 0x01 ∧ t.eng = .idle ∧ t.done = true := by
  have hfilt := fresh_bodyOf (fresh_claimedNow s) .filt
  have hxform := fresh_bodyOf hfilt .xform
  have hhps := fresh_bodyOf hxform .hps
  have henf : (bodyOf .filt (claimedNow s)).ctrl.en = true := (bodyOf_en .filt _).trans hen
  have henx := (bodyOf_en .xform _).trans henf
  have henh := (bodyOf_en .hps _).trans henx
  have hbody : bodyOf .peak (bodyOf .hps (bodyOf .xform (bodyOf .filt (claimedNow s)))) = bodyRun (claimedNow s) := rfl
  refine ⟨withControl (controlAfter .run []) (bodyRun (claimedNow s)), ?_, ?_, rfl, rfl, rfl⟩
  · rw [runInputs_claiming rfl .run rfl hidle hen hready, runInputs_nil rfl, bodyOf]
  · rw [runInputs_claiming rfl .filt rfl hidle hen hready, runInputs_stage rfl .xform rfl rfl hfilt henf,
      runInputs_stage rfl .hps rfl rfl hxform henx, runInputs_stage rfl .peak rfl rfl hhps henh, runInputs_nil rfl,
      hbody, withControl_peak]

end Sys2Proof.Machine
end

section
/-! What a capture event and a stage of `RUN` do to each other (46_run.md R242): in a started block, and while no fault is
recorded, they commute. -/

namespace Sys2Proof.Machine

open Safety

/-! ## The state without its control fields -/

/-- `s` but for the fields neither capture events nor stages read: two runs are compared on this. -/
def essence (s : State) : State := { withControl (controlAfter .peak []) s with freeCtr := 0 }

/-- The control fields in which two completed runs can differ. -/
def lifecycle (s : State) : Engine × Bool × Byte × Instr := (s.eng, s.done, s.curcmd, s.latched.op)

/-- A state is its essence and its control fields. -/
theorem eq_of_essence {s t : State} (h : essence s = essence t) : s =
    { t with eng := s.eng, done := s.done, curcmd := s.curcmd, latched := { t.latched with op := s.latched.op },
             resp := s.resp, inputs := s.inputs, freeCtr := s.freeCtr } :=
  congrArg (fun e : State => { e with
    eng := s.eng, done := s.done, curcmd := s.curcmd, latched := { e.latched with op := s.latched.op },
    resp := s.resp, inputs := s.inputs, freeCtr := s.freeCtr }) h

theorem captureEvent_essence (v : BitVec 16) (s : State) :
    captureEvent v (essence s) = essence (captureEvent v s) := by
  rw [captureEvent_explicit, captureEvent_explicit]
  change (if s.ctrl.en = true then _ else _) = _
  split <;> rfl

theorem captureEvent_of_start {s : State} (hen : s.ctrl.en = true) (hstart : s.curPos = 0 → s.slot s.curSlot = .empty)
    (v : BitVec 16) : captureEvent v s = captured v s := by
  have hoverrun : ¬(s.curPos = 0 ∧ s.slot s.curSlot ≠ .empty) := fun ⟨hpos, hslot⟩ => hslot (hstart hpos)
  rw [captureEvent_explicit, if_pos hen, if_neg hoverrun]
  rfl

/-! ## Blocks that are started and between two frames, or in the middle of one -/

/-- What holds of a started block with a command accepted, whatever the state of the engine. -/
structure Steady (s : State) : Prop where
  en : s.ctrl.en = true
  range : InRange s
  n : s.cfg.n ≤ 4096
  b : s.cfg.b ≤ 2048
  /-- A partly written slot is `FILLING` (R228 item 2). -/
  filling : s.curPos ≠ 0 → s.slot s.curSlot = .filling
  fresh : Fresh s

/-- What `Steady` speaks of but the slots. -/
def steadyPart (s : State) : Ctrl × BitVec 17 × Cfg × Bool × SpecWord × Word × Word × SpecWord × Word × Word :=
  (s.ctrl, s.cursor, s.cfg, s.latched.rnd, s.latched.thresh, s.latched.arg0, s.latched.arg1, s.thresh, s.arg0, s.arg1)

section
variable {s t : State} {v : BitVec 16}

theorem Steady.of_filling (hs : Steady s) (heq : steadyPart t = steadyPart s)
    (hfill : s.slot s.curSlot = .filling → t.slot s.curSlot = .filling) : Steady t := by
  simp only [steadyPart, Prod.mk.injEq] at heq
  obtain ⟨hctrl, hcursor, hcfg, hrnd, hlthresh, hlarg0, hlarg1, hthresh, harg0, harg1⟩ := heq
  have hnd : t.nd = s.nd := by rw [State.nd, State.nd, hcfg]
  have hslot : t.curSlot = s.curSlot := by rw [State.curSlot, State.curSlot, hcursor, hnd]
  have hpos : t.curPos = s.curPos := by rw [State.curPos, State.curPos, hcursor, hnd]
  obtain ⟨hrnd', hthresh', harg0', harg1'⟩ := hs.fresh
  refine ⟨hctrl ▸ hs.en, ⟨hnd ▸ hs.range.pos, hnd ▸ hs.range.fits, ?_⟩, hcfg ▸ hs.n, hcfg ▸ hs.b, fun hne => ?_, ⟨?_, ?_, ?_, ?_⟩⟩
  · rw [hcursor, hnd]
    exact hs.range.cursor
  · rw [hslot]
    exact hfill (hs.filling (hpos ▸ hne))
  · rw [hrnd, hctrl, hrnd']
  · rw [hlthresh, hthresh, hthresh']
  · rw [hlarg0, harg0, harg0']
  · rw [hlarg1, harg1, harg1']

theorem steady_essence (hs : Steady s) : Steady (essence s) := hs.of_filling rfl id

/-- R226: a sample that starts no slot but an `EMPTY` one goes to no full slot. -/
theorem Steady.curSlot_ne_of_full (hs : Steady s) (hstart : s.curPos = 0 → s.slot s.curSlot = .empty) {b : Bool}
    (hb : Full s b) : s.curSlot ≠ b := by
  rintro rfl
  have hfill : Filling s s.curSlot := by
    by_cases hpos : s.curPos = 0
    · exact .inl (hstart hpos)
    · exact .inr (hs.filling hpos)
  unfold Full at hb
  rcases hfill with hfill | hfill <;> simp [hfill] at hb

theorem steady_captured (hs : Steady s) (v : BitVec 16) : Steady (captured v s) where
  en := hs.en
  range := by
    refine ⟨hs.range.pos, hs.range.fits, ?_⟩
    rw [cursor_captured hs.range]
    exact Nat.mod_lt _ (by have := hs.range.pos; omega)
  n := hs.n
  b := hs.b
  filling hne := by
    have hinner : s.curPos + 1 ≠ s.nd := fun hlast => hne (position_captured_last hs.range v hlast).2
    rw [(position_captured_inner hs.range v hinner).1, slot_captured, if_pos rfl, nextSlot, if_neg hinner]
    split_ifs with hpos
    · rfl
    · exact hs.filling hpos
  fresh := ⟨hs.fresh.rnd, hs.fresh.thresh, hs.fresh.arg0, hs.fresh.arg1⟩

theorem steady_captureEvent (hs : Steady s) (hcap : (captureEvent v s).faults = []) : Steady (captureEvent v s) := by
  rw [(captureEvent_eq hs.en hcap).2]
  exact steady_captured hs v

/-- A capture event that records no fault leaves a full slot as it is. -/
theorem Steady.slot_captureEvent (hs : Steady s) (hcap : (captureEvent v s).faults = []) {b : Bool} (hb : Full s b) :
    (captureEvent v s).slot b = s.slot b := by
  obtain ⟨hstart, hcapt⟩ := captureEvent_eq hs.en hcap
  rw [hcapt, slot_captured, if_neg (hs.curSlot_ne_of_full hstart hb).symm]

theorem steady_claimedNow (hs : Steady s) (hready : s.slot s.rdslot = .ready) : Steady (claimedNow s) := by
  refine hs.of_filling ?_ fun hfill => ?_
  · simp only [steadyPart, hs.fresh.rnd, hs.fresh.thresh, hs.fresh.arg0, hs.fresh.arg1]
    rfl
  · refine (slot_setSlot s.rdslot s.curSlot .claimed s).trans ((if_neg fun hcur => ?_).trans hfill)
    rw [hcur, hready] at hfill
    cases hfill

theorem steady_bodyOf (hs : Steady s) {i : Instr} (hclaimed : claimsSlot i = true → s.slot s.latched.slot = .claimed) :
    Steady (bodyOf i s) := by
  obtain ⟨m, dl, o0, o1, r, f, ce, pb, pm, fs, c, hbody⟩ := bodyOf_state i s
  rw [hbody]
  refine hs.of_filling rfl fun hfill => ?_
  refine (slot_release i s s.curSlot).trans ((if_neg fun ⟨hi, hcur⟩ => ?_).trans hfill)
  rw [hcur, hclaimed hi] at hfill
  cases hfill

end

/-! ## The operands of a stage (R56) -/

/-- Every entry the command reads is written. -/
def Operands (i : Instr) (s : State) : Prop :=
  match i with
  | .run | .filt => ∀ a, a < s.nd → (s.inp (s.slotBase s.latched.slot + a)).isSome = true
  | .xform => ∀ j, j < s.cfg.n → (s.dec j).isSome = true
  | .hps | .peak => ∀ k, k < s.cfg.b → (s.spec k).isSome = true
  | .nop | .firclr | .b2f | .f2b | .note | .cents => True

section
variable {s : State} {i : Instr} {v : BitVec 16}

theorem Staged.faults_of_operands (hi : Staged i) (h : Operands i s) : (bodyOf i s).faults = s.faults := by
  cases hi with
  | run => exact bodyRun_written (s := s) h
  | filt => exact (bodyFilt_written (s := s) h).1
  | xform => exact (bodyXform_written (s := s) h).1
  | hps => exact (bodyHps_written (s := s) h).1
  | peak => exact bodyPeak_written (s := s) h

theorem operands_filt_of_faultFree (h : (bodyFilt s).faults = []) : Operands .filt s := by
  intro a ha
  by_contra hnone
  have hmem := unwritten_mem_bodyFilt ha (Option.not_isSome_iff_eq_none.mp hnone)
  rw [h] at hmem
  cases hmem

/-- R11: a claiming command that records no fault has found its frame written. -/
theorem Staged.operands_of_faultFree (hi : Staged i) (hclaims : claimsSlot i = true)
    (h : (bodyOf i s).faults = []) : Operands i s := by
  cases hi with
  | run =>
    have hhps := no_fault_of_subset (fun f => bodyPeak_faults) (show (bodyPeak _).faults = [] from h)
    have hxform := no_fault_of_subset (fun f => bodyHps_faults) hhps
    exact operands_filt_of_faultFree (no_fault_of_subset (fun f => bodyXform_faults) hxform)
  | filt => exact operands_filt_of_faultFree h
  | xform | hps | peak => cases hclaims

theorem operands_xform_bodyFilt (s : State) : Operands .xform (bodyFilt s) := by
  intro j hj
  rw [bodyFilt_cfg] at hj
  show ((writeDecs 0 _ (readFrame s).2).dec j).isSome = true
  rw [dec_writeDecs, if_pos (by simpa [decimate] using hj)]
  simpa [decimate] using hj

theorem operands_hps_bodyXform (s : State) : Operands .hps (bodyXform s) := by
  intro k hk
  rw [bodyXform_cfg] at hk
  rw [spec_bodyXform hk]
  rfl

theorem operands_peak_bodyHps (h : Operands .hps s) : Operands .peak (bodyHps s) := by
  intro k hk
  rw [bodyHps_cfg] at hk
  exact (bodyHps_written h).2 k hk

/-- A sample outside the slot that command `i` reads changes none of its operands. -/
theorem operands_captured_iff (hs : Steady s) (hne : claimsSlot i = true → s.curSlot ≠ s.latched.slot) :
    Operands i (captured v s) ↔ Operands i s := by
  have hframe (hcur : s.curSlot ≠ s.latched.slot) : Operands .filt (captured v s) ↔ Operands .filt s := by
    refine forall₂_congr fun a ha => ?_
    have hother : s.slotBase s.latched.slot + a ≠ s.cursor.toNat := by
      rw [cursor_eq hs.range.cursor]
      exact slotBase_add_ne hcur.symm ha (curPos_lt hs.range.pos)
    show ((captured v s).inp (s.slotBase s.latched.slot + a)).isSome = true ↔ _
    rw [inp_captured_ne v s hother]
  have haside : captured v s =
    aside (some (s.cursor.toNat, conv s.cfg.rawin s.cfg.adcw v)) (captured v s) s := rfl
  have hspec : Operands .hps (captured v s) ↔ Operands .hps s := by
    refine forall₂_congr fun k hk => ?_
    rw [haside, spec_aside (hk.trans_le hs.b)]
  cases i with
  | run => exact hframe (hne rfl)
  | filt => exact hframe (hne rfl)
  | xform =>
    refine forall₂_congr fun j hj => ?_
    rw [haside, dec_aside (hj.trans_le hs.n)]
  | hps => exact hspec
  | peak => exact hspec
  | nop | firclr | b2f | f2b | note | cents => exact Iff.rfl

end

/-! ## Stages and capture events commute -/

section
variable {s x : State} {i : Instr} {v : BitVec 16} {w : Option (Nat × Sample)}

theorem Staged.bodyOf_aside (hi : Staged i) (h : (bodyOf i s).faults = []) (hs : Steady s)
    (hx : x.latched.slot = s.latched.slot)
    (hw : claimsSlot i = true → ∀ p, w = some p →
      p.1 < s.slotBase s.latched.slot ∨ s.slotBase s.latched.slot + s.nd ≤ p.1) :
    bodyOf i (aside w x s) = aside w (release i x) (bodyOf i s) := by
  have hrelease (u : State) : aside w (setSlot s.latched.slot .empty x) u = aside w (release .run x) u := by
    rw [release, hx]
    rfl
  cases hi with
  | run => exact (bodyRun_aside h hs.n hs.b (hw rfl)).trans (hrelease _)
  | filt => exact (bodyFilt_aside h hs.n (hw rfl)).trans (hrelease _)
  | xform => exact bodyXform_aside h hs.n hs.b
  | hps => exact bodyHps_aside h hs.b
  | peak => exact bodyPeak_aside h hs.b

/-- A stage that records no fault draws no free value and leaves what it does not read. -/
theorem Staged.bodyOf_eq_aside (hi : Staged i) (h : (bodyOf i s).faults = []) (hs : Steady s) :
    bodyOf i s = aside none (release i s) (bodyOf i s) :=
  hi.bodyOf_aside (w := none) (x := s) h hs rfl nofun

theorem Staged.bodyOf_essence (hi : Staged i) (h : (bodyOf i s).faults = []) (hs : Steady s) :
    bodyOf i (essence s) = essence (bodyOf i s) := by
  have haside := hi.bodyOf_aside (w := none) (x := essence s) h hs rfl nofun
  have hself := hi.bodyOf_eq_aside h hs
  calc bodyOf i (essence s) = aside none (release i (essence s)) (bodyOf i s) := haside
    _ = essence (aside none (release i s) (bodyOf i s)) := rfl
    _ = essence (bodyOf i s) := by rw [← hself]

theorem bodyOf_cfg (i : Instr) (s : State) : (bodyOf i s).cfg = s.cfg := by
  obtain ⟨m, dl, o0, o1, r, f, ce, pb, pm, fs, c, hbody⟩ := bodyOf_state i s
  rw [hbody]
  rfl

theorem slot_bodyOf (i : Instr) (s : State) (b : Bool) : (bodyOf i s).slot b = (release i s).slot b := by
  obtain ⟨m, dl, o0, o1, r, f, ce, pb, pm, fs, c, hbody⟩ := bodyOf_state i s
  rw [hbody]
  rfl

/-- No stage moves the cursor. -/
theorem bodyOf_position (i : Instr) (s : State) :
    (bodyOf i s).curSlot = s.curSlot ∧ (bodyOf i s).curPos = s.curPos := by
  obtain ⟨m, dl, o0, o1, r, f, ce, pb, pm, fs, c, hbody⟩ := bodyOf_state i s
  rw [hbody]
  exact ⟨rfl, rfl⟩

theorem cursor_outside (hrange : InRange s) {b : Bool} (hne : s.curSlot ≠ b) :
    s.cursor.toNat < s.slotBase b ∨ s.slotBase b + s.nd ≤ s.cursor.toNat := by
  have hpos := curPos_lt hrange.pos
  have hcur : s.curSlot = !b := Bool.eq_not.mpr hne
  rw [cursor_eq hrange.cursor, hcur]
  cases b
  case false => simp [State.slotBase]
  case true =>
    left
    simpa [State.slotBase] using hpos

/-- The release of the claimed slot and a sample for the other slot commute. -/
theorem slots_release_captured (hne : claimsSlot i = true → s.curSlot ≠ s.latched.slot) :
    (release i (captured v s)).slot0 = (if s.curSlot then (release i s).slot0 else nextSlot s) ∧
      (release i (captured v s)).slot1 = (if s.curSlot then nextSlot s else (release i s).slot1) := by
  cases hi : claimsSlot i with
  | false => simp [release, hi, captured]
  | true =>
    have hcur : s.curSlot = !s.latched.slot := Bool.eq_not.mpr (hne hi)
    cases hl : s.latched.slot <;> simp [release, hi, captured, setSlot, hcur, hl]

theorem captured_aside {b : State} (hcfg : b.cfg = s.cfg) (hne : claimsSlot i = true → s.curSlot ≠ s.latched.slot) :
    captured v (aside none (release i s) b) =
      aside (some (s.cursor.toNat, conv s.cfg.rawin s.cfg.adcw v)) (release i (captured v s)) b := by
  have hnd : (aside none (release i s) b).nd = s.nd := by
    show b.nd = s.nd
    rw [State.nd, State.nd, hcfg]
  have hslot : (aside none (release i s) b).curSlot = s.curSlot := by
    rw [State.curSlot, hnd]
    rfl
  have hpos : (aside none (release i s) b).curPos = s.curPos := by
    rw [State.curPos, hnd]
    rfl
  have hnext : nextSlot (aside none (release i s) b) = nextSlot s := by
    have hsame : (aside none (release i s) b).slot s.curSlot = s.slot s.curSlot :=
      (slot_release i s s.curSlot).trans (if_neg fun ⟨hi, hcur⟩ => hne hi hcur)
    rw [nextSlot, nextSlot, hnd, hpos, hslot, hsame]
  have hright : aside (some (s.cursor.toNat, conv s.cfg.rawin s.cfg.adcw v)) (release i (captured v s)) b = { b with
      mem := b.mem.setEntry 2 (inAddr s.cursor.toNat) (conv s.cfg.rawin s.cfg.adcw v)
      slot0 := (release i (captured v s)).slot0
      slot1 := (release i (captured v s)).slot1
      frdy := s.frdy || decide (s.curPos + 1 = s.nd)
      cursor := BitVec.ofNat 17 ((s.cursor.toNat + 1) % (2 * s.nd))
      eng := s.eng, done := s.done, curcmd := s.curcmd, latched := { b.latched with op := s.latched.op }
      resp := s.resp, freeCtr := s.freeCtr, inputs := s.inputs } := rfl
  obtain ⟨h0, h1⟩ := slots_release_captured (v := v) hne
  rw [hright, h0, h1, captured, hnd, hslot, hpos, hnext, aside_cfg, hcfg]
  rfl

/-- R242: a stage on written operands, and a capture event that records no fault, can change places. -/
theorem Staged.bodyOf_captureEvent (hi : Staged i) (hs : Steady s)
    (hclaimed : claimsSlot i = true → s.slot s.latched.slot = .claimed) (hcap : (captureEvent v s).faults = [])
    (hop : Operands i s) : bodyOf i (captureEvent v s) = captureEvent v (bodyOf i s) := by
  obtain ⟨hstart, hcapt⟩ := captureEvent_eq hs.en hcap
  have hfree : (bodyOf i s).faults = [] :=
    (hi.faults_of_operands hop).trans (no_fault_of_subset (fun f => captureEvent_faults v) hcap)
  have hne (hi' : claimsSlot i = true) : s.curSlot ≠ s.latched.slot :=
    hs.curSlot_ne_of_full hstart (.inr (hclaimed hi'))
  have hself := hi.bodyOf_eq_aside hfree hs
  have hleft : bodyOf i (captured v s) =
      aside (some (s.cursor.toNat, conv s.cfg.rawin s.cfg.adcw v)) (release i (captured v s)) (bodyOf i s) := by
    refine hi.bodyOf_aside (w := some (s.cursor.toNat, conv s.cfg.rawin s.cfg.adcw v)) (x := captured v s) hfree hs rfl fun hi' p hp => ?_
    cases hp
    exact cursor_outside hs.range (hne hi')
  have hright : captureEvent v (bodyOf i s) = captured v (bodyOf i s) := by
    refine captureEvent_of_start ((bodyOf_en i s).trans hs.en) (fun hpos => ?_) v
    obtain ⟨hcurSlot, hcurPos⟩ := bodyOf_position i s
    rw [hcurSlot, slot_bodyOf, slot_release, if_neg fun ⟨hi', hcur⟩ => hne hi' hcur]
    exact hstart (hcurPos ▸ hpos)
  rw [hcapt, hleft, hright, ← captured_aside (bodyOf_cfg i s) hne, ← hself]

end

end Sys2Proof.Machine
end

section
/-! `RUN` against its four stage commands with engine turns, capture events and host reads in between (46_run.md R242):
both runs end where the one does that executes each stage as soon as it can. -/

namespace Sys2Proof.Machine

open Safety

/-! ## Runs without host writes -/

/-- What a run without host writes does, its inputs and bus accesses left out but for the capture events. -/
inductive QuietRun : List (BitVec 16) → State → State → Prop
  | done (s : State) : QuietRun [] s s
  /-- An input is taken, entries are read, the bus answers. -/
  | byAccess {vs : List (BitVec 16)} {s t : State} (es : List Input) (fs : List Fault) (c : Nat) (r : Response)
      (hkept : ∀ f ∈ s.faults, f ∈ fs)
      (h : QuietRun vs { s with inputs := es, faults := fs, freeCtr := c, resp := r } t) : QuietRun vs s t
  | byCapture {vs : List (BitVec 16)} {s t : State} (v : BitVec 16) (h : QuietRun vs (captureEvent v s) t) :
      QuietRun (v :: vs) s t
  | byClaim {vs : List (BitVec 16)} {s t : State} (hwait : s.eng = .wait) (h : QuietRun vs (claim s) t) : QuietRun vs s t
  | byCompletion {vs : List (BitVec 16)} {s t : State} (hexec : s.eng = .exec)
      (h : QuietRun vs (complete (bodyOf s.latched.op s)) t) : QuietRun vs s t

section
variable {vs : List (BitVec 16)} {s t : State}

theorem QuietRun.take (es : List Input) (h : QuietRun vs { s with inputs := es } t) : QuietRun vs s t :=
  .byAccess es s.faults s.freeCtr s.resp (fun _ => id) h

theorem QuietRun.read {addr : Offset} {width : Nat} (h : QuietRun vs (hostRead addr width s) t) : QuietRun vs s t := by
  by_cases hok : accessOk addr width = true
  · obtain ⟨fs, c, hread⟩ := memRead_state addr s
    have hkept : ∀ f ∈ s.faults, f ∈ fs := fun f hf => by
      have := memRead_faults (addr := addr) hf
      rwa [hread] at this
    simp only [hostRead, if_pos hok, hread] at h
    exact .byAccess s.inputs fs c _ hkept h
  · rw [hostRead_bad (Bool.not_eq_true _ ▸ hok)] at h
    exact .byAccess s.inputs s.faults s.freeCtr _ (fun _ => id) h

theorem quietRun_of_runInputs {es : List Input} (hq : NoHostWrite es) (h : runInputs es s = .next t) :
    QuietRun (captures es) s t ∧ t.inputs = [] := by
  induction es generalizing s with
  | nil =>
    cases h
    exact ⟨.take [] (.done _), rfl⟩
  | cons e es ih =>
    have hq' : NoHostWrite es := fun e' he' => hq e' (List.mem_cons_of_mem e he')
    rcases hq e List.mem_cons_self with rfl | ⟨v, rfl⟩ | ⟨addr, width, rfl⟩
    · cases heng : s.eng with
      | idle =>
        rw [runInputs_engine_idle heng] at h
        exact ih hq' h
      | wait =>
        rw [runInputs_engine_wait heng] at h
        obtain ⟨hrun, hin⟩ := ih hq' h
        exact ⟨.take es (.byClaim heng hrun), hin⟩
      | exec =>
        rw [runInputs_engine_exec heng] at h
        obtain ⟨hrun, hin⟩ := ih hq' h
        exact ⟨.take es (.byCompletion heng hrun), hin⟩
    · rw [runInputs_capture] at h
      obtain ⟨hrun, hin⟩ := ih hq' h
      exact ⟨.take es (.byCapture v hrun), hin⟩
    · rw [runInputs_read] at h
      obtain ⟨hrun, hin⟩ := ih hq' h
      exact ⟨.take es hrun.read, hin⟩

theorem QuietRun.faults (h : QuietRun vs s t) {f : Fault} (hf : f ∈ s.faults) : f ∈ t.faults := by
  induction h with
  | done => exact hf
  | byAccess es fs c r hkept _ ih => exact ih (hkept f hf)
  | byCapture v _ ih => exact ih (captureEvent_faults v hf)
  | @byClaim _ s _ _ _ ih =>
    refine ih ?_
    rcases claim_cases s with ⟨-, hclaim⟩ | ⟨-, hclaim⟩
    · rw [hclaim]
      exact hf
    · rwa [hclaim]
  | byCompletion _ _ ih => exact ih (bodyOf_faults _ hf)

theorem QuietRun.faultFree (h : QuietRun vs s t) (ht : FaultFree t) : FaultFree s :=
  no_fault_of_subset (fun _ => h.faults) ht

end

/-! ## Capture events in a row -/

/-- The capture events `vs`, one after another. -/
def captureAll (vs : List (BitVec 16)) (s : State) : State := vs.foldl (fun u v => captureEvent v u) s

section
variable {vs : List (BitVec 16)} {s t : State} {i : Instr} {v : BitVec 16}

theorem captureAll_append (us vs : List (BitVec 16)) (s : State) :
    captureAll (us ++ vs) s = captureAll vs (captureAll us s) := List.foldl_append

theorem captureAll_faults {f : Fault} (hf : f ∈ s.faults) : f ∈ (captureAll vs s).faults := by
  induction vs generalizing s with
  | nil => exact hf
  | cons v vs ih => exact ih (captureEvent_faults v hf)

theorem captureEvent_faultFree (h : (captureAll (v :: vs) s).faults = []) : (captureEvent v s).faults = [] :=
  no_fault_of_subset (fun _ => captureAll_faults (vs := vs)) h

theorem operands_captureEvent_iff (hs : Steady s) (hclaimed : claimsSlot i = true → s.slot s.latched.slot = .claimed)
    (hcap : (captureEvent v s).faults = []) : Operands i (captureEvent v s) ↔ Operands i s := by
  obtain ⟨hstart, hcapt⟩ := captureEvent_eq hs.en hcap
  rw [hcapt]
  exact operands_captured_iff hs fun hi => hs.curSlot_ne_of_full hstart (.inr (hclaimed hi))

/-- Capture events keep the block steady, and the operands of a stage that claims no slot written. -/
theorem captureAll_keeps (hs : Steady s) (hi : claimsSlot i = false) (hop : Operands i s)
    (hfree : (captureAll vs s).faults = []) : Steady (captureAll vs s) ∧ Operands i (captureAll vs s) := by
  induction vs generalizing s with
  | nil => exact ⟨hs, hop⟩
  | cons v vs ih =>
    have hcap := captureEvent_faultFree hfree
    exact ih (steady_captureEvent hs hcap)
      ((operands_captureEvent_iff hs (fun hi' => by rw [hi] at hi'; cases hi') hcap).mpr hop) hfree

/-- R242: a stage that claims no slot can be moved to before the capture events. -/
theorem Staged.bodyOf_captureAll (hst : Staged i) (hi : claimsSlot i = false) (hs : Steady s) (hop : Operands i s)
    (hfree : (captureAll vs s).faults = []) : bodyOf i (captureAll vs s) = captureAll vs (bodyOf i s) := by
  induction vs generalizing s with
  | nil => rfl
  | cons v vs ih =>
    have hcap := captureEvent_faultFree hfree
    have hnot : claimsSlot i = true → s.slot s.latched.slot = .claimed := fun hi' => by rw [hi] at hi'; cases hi'
    calc bodyOf i (captureAll vs (captureEvent v s))
        = captureAll vs (bodyOf i (captureEvent v s)) :=
          ih (steady_captureEvent hs hcap) ((operands_captureEvent_iff hs hnot hcap).mpr hop) hfree
      _ = captureAll vs (captureEvent v (bodyOf i s)) := by rw [hst.bodyOf_captureEvent hs hnot hcap hop]

/-! ## The phases of a command (R123) -/

/-- R11: an access that records no fault changes none of what two runs are compared on. -/
theorem essence_access {es : List Input} {c : Nat} {r : Response} {fs : List Fault} (hs : s.faults = []) (hfs : fs = []) :
    essence { s with inputs := es, faults := fs, freeCtr := c, resp := r } = essence s := by
  rw [hfs, ← hs]
  rfl

/-- An idle engine only lets the capture events pass. -/
theorem QuietRun.of_idle (h : QuietRun vs s t) (hidle : s.eng = .idle) (hfree : FaultFree t) :
    essence t = captureAll vs (essence s) ∧ lifecycle t = lifecycle s := by
  induction h with
  | done => exact ⟨rfl, rfl⟩
  | byAccess es fs c r hkept h ih =>
    obtain ⟨hess, hlife⟩ := ih hidle hfree
    have hfs : fs = [] := h.faultFree hfree
    exact ⟨hess.trans (by rw [essence_access (no_fault_of_subset hkept hfs) hfs]), hlife⟩
  | @byCapture _ s _ v h ih =>
    obtain ⟨m, sl0, sl1, fr, cu, fs, hcap⟩ := captureEvent_state v s
    have hlifecycle : lifecycle (captureEvent v s) = lifecycle s := by
      rw [hcap]
      rfl
    obtain ⟨hess, hlife⟩ := ih (by rw [hcap]; exact hidle) hfree
    exact ⟨by rw [hess, ← captureEvent_essence]; rfl, hlife.trans hlifecycle⟩
  | byClaim hwait => rw [hidle] at hwait; cases hwait
  | byCompletion hexec => rw [hidle] at hexec; cases hexec

/-- R124: an executing command completes, and might as well have done so before the capture events. -/
theorem QuietRun.of_exec (h : QuietRun vs s t) (hst : Staged i) (hexec : s.eng = .exec) (hi : s.latched.op = i)
    (hs : Steady s) (hclaimed : claimsSlot i = true → s.slot s.latched.slot = .claimed)
    (hop : claimsSlot i = false → Operands i s) (hfree : FaultFree t) (hidle : t.eng = .idle) :
    Operands i s ∧ essence t = captureAll vs (bodyOf i (essence s)) ∧ lifecycle t = (.idle, true, s.curcmd, i) := by
  induction h with
  | done => rw [hexec] at hidle; cases hidle
  | @byAccess _ s _ es fs c r hkept h ih =>
    have hfs : fs = [] := h.faultFree hfree
    obtain ⟨hops, hess, hlife⟩ := ih hexec hi (hs.of_filling rfl id) hclaimed hop hfree hidle
    rw [essence_access (no_fault_of_subset hkept hfs) hfs] at hess
    exact ⟨hops, hess, hlife⟩
  | @byCapture vs s t v h ih =>
    have hcap : (captureEvent v s).faults = [] := h.faultFree hfree
    have hiff := operands_captureEvent_iff (i := i) hs hclaimed hcap
    have hfields : (captureEvent v s).eng = s.eng ∧ (captureEvent v s).latched = s.latched ∧
        (captureEvent v s).curcmd = s.curcmd := by
      obtain ⟨m, sl0, sl1, fr, cu, fs, hc⟩ := captureEvent_state v s
      rw [hc]
      exact ⟨rfl, rfl, rfl⟩
    obtain ⟨heng, hlatched, hcurcmd⟩ := hfields
    have hclaimed' (hi' : claimsSlot i = true) : (captureEvent v s).slot (captureEvent v s).latched.slot = .claimed := by
      rw [hlatched, hs.slot_captureEvent hcap (.inr (hclaimed hi')), hclaimed hi']
    obtain ⟨hops, hess, hlife⟩ := ih (heng.trans hexec) (by rw [hlatched, hi]) (steady_captureEvent hs hcap) hclaimed'
      (fun hi' => hiff.mpr (hop hi')) hfree hidle
    have hcap' : (captureEvent v (essence s)).faults = [] := by rw [captureEvent_essence]; exact hcap
    have hcommute : bodyOf i (captureEvent v (essence s)) = captureEvent v (bodyOf i (essence s)) :=
      hst.bodyOf_captureEvent (steady_essence hs) hclaimed hcap' (hiff.mp hops)
    rw [← captureEvent_essence, hcommute] at hess
    exact ⟨hiff.mp hops, hess, hlife.trans (by rw [hcurcmd])⟩
  | byClaim hwait => rw [hexec] at hwait; cases hwait
  | @byCompletion vs s t _ h ih =>
    subst hi
    have hbody : (bodyOf s.latched.op s).faults = [] := h.faultFree hfree
    have hops : Operands s.latched.op s := by
      cases hclaims : claimsSlot s.latched.op with
      | false => exact hop hclaims
      | true => exact hst.operands_of_faultFree hclaims hbody
    obtain ⟨hess, hlife⟩ := h.of_idle rfl hfree
    refine ⟨hops, ?_, ?_⟩
    · rw [hst.bodyOf_essence hbody hs]
      exact hess
    · obtain ⟨m, dl, o0, o1, r, f, ce, pb, pm, fs, c, hb⟩ := bodyOf_state s.latched.op s
      rw [hlife, hb]
      rfl

/-- The run of a command that claims a slot in which the claim and the body come as soon as the read slot is `READY`. -/
inductive Fired (i : Instr) : List (BitVec 16) → State → State → Prop
  | now {vs : List (BitVec 16)} {s : State} (hready : s.slot s.rdslot = .ready) (hop : Operands i (claimedNow s)) :
      Fired i vs s (captureAll vs (bodyOf i (claimedNow s)))
  | later {v : BitVec 16} {vs : List (BitVec 16)} {s t : State} (hnot : s.slot s.rdslot ≠ .ready)
      (h : Fired i vs (captureEvent v s) t) : Fired i (v :: vs) s t

theorem slot_claimedNow (s : State) : (claimedNow s).slot (claimedNow s).latched.slot = .claimed :=
  (slot_setSlot s.rdslot s.rdslot .claimed s).trans (if_pos rfl)

theorem captureEvent_rdslot (v : BitVec 16) (s : State) : (captureEvent v s).rdslot = s.rdslot := by
  obtain ⟨m, sl0, sl1, fr, cu, fs, hcap⟩ := captureEvent_state v s
  rw [hcap]

theorem slots_claimedNow_captured (hne : s.curSlot ≠ s.rdslot) :
    (claimedNow (captured v s)).slot0 = (if s.curSlot then (claimedNow s).slot0 else nextSlot s) ∧
      (claimedNow (captured v s)).slot1 = (if s.curSlot then nextSlot s else (claimedNow s).slot1) := by
  have hcur : s.curSlot = !s.rdslot := Bool.eq_not.mpr hne
  cases hrd : s.rdslot <;> simp [claimedNow, captured, setSlot, hcur, hrd]

/-- R229: the claim of a `READY` slot, and a sample for the other slot, can change places. -/
theorem claimedNow_captureEvent (hs : Steady s) (hready : s.slot s.rdslot = .ready)
    (hcap : (captureEvent v s).faults = []) : claimedNow (captureEvent v s) = captureEvent v (claimedNow s) := by
  obtain ⟨hstart, hcapt⟩ := captureEvent_eq hs.en hcap
  have hne := hs.curSlot_ne_of_full hstart (.inl hready)
  have hslot : (claimedNow s).slot s.curSlot = s.slot s.curSlot :=
    (slot_setSlot s.rdslot s.curSlot .claimed s).trans (if_neg hne)
  have hright : captureEvent v (claimedNow s) = captured v (claimedNow s) :=
    captureEvent_of_start (s := claimedNow s) hs.en (fun hpos => hslot.trans (hstart hpos)) v
  have hnext : nextSlot (claimedNow s) = nextSlot s :=
    if_congr Iff.rfl rfl (if_congr Iff.rfl rfl hslot)
  have hfields : captured v (claimedNow s) = { claimedNow (captured v s) with
      slot0 := if s.curSlot then (claimedNow s).slot0 else nextSlot (claimedNow s)
      slot1 := if s.curSlot then nextSlot (claimedNow s) else (claimedNow s).slot1 } := rfl
  obtain ⟨h0, h1⟩ := slots_claimedNow_captured (v := v) hne
  rw [hcapt, hright, hfields, hnext, ← h0, ← h1]

/-- A claiming run that begins with a capture event fires the sooner if the slot is `READY` before it. -/
theorem Fired.capture (hst : Staged i) (hs : Steady s) (hcap : (captureEvent v s).faults = [])
    (h : Fired i vs (captureEvent v s) t) : Fired i (v :: vs) s t := by
  by_cases hready : s.slot s.rdslot = .ready
  · have hready' : (captureEvent v s).slot (captureEvent v s).rdslot = .ready := by
      rw [captureEvent_rdslot, hs.slot_captureEvent hcap (.inl hready), hready]
    cases h with
    | now _ hop =>
      rw [claimedNow_captureEvent hs hready hcap] at hop ⊢
      have hs' := steady_claimedNow hs hready
      have hcap' : (captureEvent v (claimedNow s)).faults = [] := by
        rw [← claimedNow_captureEvent hs hready hcap]
        exact hcap
      have hop' := (operands_captureEvent_iff hs' (fun _ => slot_claimedNow s) hcap').mp hop
      rw [hst.bodyOf_captureEvent hs' (fun _ => slot_claimedNow s) hcap' hop']
      exact .now hready hop'
    | later hnot => exact absurd hready' hnot
  · exact .later hready h

/-- R229: a waiting command claims its slot and completes, and might as well have done so when the slot was `READY`. -/
theorem QuietRun.of_wait (h : QuietRun vs s t) (hst : Staged i) (hclaims : claimsSlot i = true) (hwait : s.eng = .wait)
    (hi : s.latched.op = i) (hs : Steady s) (hfree : FaultFree t) (hidle : t.eng = .idle) :
    Fired i vs (essence s) (essence t) ∧ lifecycle t = (.idle, true, s.curcmd, i) := by
  induction h with
  | done => rw [hwait] at hidle; cases hidle
  | @byAccess _ s _ es fs c r hkept h ih =>
    have hfs : fs = [] := h.faultFree hfree
    obtain ⟨hfired, hlife⟩ := ih hwait hi (hs.of_filling rfl id) hfree hidle
    rw [essence_access (no_fault_of_subset hkept hfs) hfs] at hfired
    exact ⟨hfired, hlife⟩
  | @byCapture vs s t v h ih =>
    have hcap : (captureEvent v s).faults = [] := h.faultFree hfree
    have hfields : (captureEvent v s).eng = s.eng ∧ (captureEvent v s).latched = s.latched ∧
        (captureEvent v s).curcmd = s.curcmd := by
      obtain ⟨m, sl0, sl1, fr, cu, fs, hc⟩ := captureEvent_state v s
      rw [hc]
      exact ⟨rfl, rfl, rfl⟩
    obtain ⟨heng, hlatched, hcurcmd⟩ := hfields
    obtain ⟨hfired, hlife⟩ := ih (heng.trans hwait) (by rw [hlatched, hi]) (steady_captureEvent hs hcap) hfree hidle
    rw [← captureEvent_essence] at hfired
    have hcap' : (captureEvent v (essence s)).faults = [] := by rw [captureEvent_essence]; exact hcap
    exact ⟨hfired.capture hst (steady_essence hs) hcap', hlife.trans (by rw [hcurcmd])⟩
  | @byClaim vs s t _ h ih =>
    rcases claim_cases s with ⟨hready, hclaim⟩ | ⟨-, hclaim⟩
    · rw [hclaim] at h
      have hlatched : { setSlot s.rdslot .claimed s with latched := { s.latched with slot := s.rdslot }, eng := .exec } =
          { claimedNow s with eng := .exec } := by
        rw [claimedNow, ← hs.fresh.rnd, ← hs.fresh.thresh, ← hs.fresh.arg0, ← hs.fresh.arg1]
      rw [hlatched] at h
      obtain ⟨hop, hess, hlife⟩ := h.of_exec hst rfl hi ((steady_claimedNow hs hready).of_filling rfl id)
        (fun _ => slot_claimedNow s) (fun hno => by rw [hclaims] at hno; cases hno) hfree hidle
      rw [hess]
      exact ⟨.now hready hop, hlife⟩
    · rw [hclaim] at ih
      exact ih hwait hi hs hfree hidle
  | byCompletion hexec => rw [hwait] at hexec; cases hexec

end

end Sys2Proof.Machine
end

section
/-! `RUN` equals the sequence `FILT`, `XFORM`, `HPS`, `PEAK` (46_run.md R242). -/

namespace Sys2Proof.Machine

open Safety

/-! ## The stages after `FILT` -/

/-- What `RUN` does after its filter (R240). -/
def laterStages (s : State) : State := bodyPeak (bodyHps (bodyXform s))

section
variable {us vs : List (BitVec 16)} {s t u : State} {i : Instr} {v : BitVec 16}

theorem steady_stage (hs : Steady s) (hi : claimsSlot i = false) : Steady (bodyOf i s) :=
  steady_bodyOf hs fun hclaims => by rw [hi] at hclaims; cases hclaims

/-- Capture events after a stage record a fault only if they did before it. -/
theorem Staged.captureAll_faultFree (hst : Staged i) (hi : claimsSlot i = false) (hs : Steady s) (hop : Operands i s)
    (hfree : (captureAll vs s).faults = []) : (captureAll vs (bodyOf i s)).faults = [] := by
  obtain ⟨-, hops⟩ := captureAll_keeps hs hi hop hfree
  rw [← hst.bodyOf_captureAll hi hs hop hfree, hst.faults_of_operands hops, hfree]

/-- R242: the stages after `FILT` can be moved to before the capture events. -/
theorem laterStages_captureAll (hs : Steady s) (hop : Operands .xform s) (hfree : (captureAll vs s).faults = []) :
    laterStages (captureAll vs s) = captureAll vs (laterStages s) := by
  have hs' := steady_stage (i := .xform) hs rfl
  have hop' := operands_hps_bodyXform s
  have hfree' := Staged.xform.captureAll_faultFree rfl hs hop hfree
  have hs'' := steady_stage (i := .hps) hs' rfl
  have hfree'' := Staged.hps.captureAll_faultFree rfl hs' hop' hfree'
  have hxform : bodyXform (captureAll vs s) = captureAll vs (bodyXform s) :=
    Staged.xform.bodyOf_captureAll rfl hs hop hfree
  have hhps : bodyHps (captureAll vs (bodyXform s)) = captureAll vs (bodyHps (bodyXform s)) :=
    Staged.hps.bodyOf_captureAll rfl hs' hop' hfree'
  have hpeak : bodyPeak (captureAll vs (bodyHps (bodyXform s))) = captureAll vs (bodyPeak (bodyHps (bodyXform s))) :=
    Staged.peak.bodyOf_captureAll rfl hs'' (operands_peak_bodyHps hop') hfree''
  rw [laterStages, hxform, hhps, hpeak, laterStages]

/-! ## `RUN` and `FILT` -/

theorem Fired.faults (h : Fired i vs s t) {f : Fault} (hf : f ∈ s.faults) : f ∈ t.faults := by
  induction h with
  | now => exact captureAll_faults (bodyOf_faults i hf)
  | later _ _ ih => exact ih (captureEvent_faults _ hf)

theorem Fired.of_ready (h : Fired i vs s t) (hready : s.slot s.rdslot = .ready) :
    t = captureAll vs (bodyOf i (claimedNow s)) := by
  cases h with
  | now => rfl
  | later hnot => exact absurd hready hnot

theorem Fired.of_not_ready (h : Fired i (v :: vs) s t) (hnot : s.slot s.rdslot ≠ .ready) :
    Fired i vs (captureEvent v s) t := by
  cases h with
  | now hready => exact absurd hready hnot
  | later _ h => exact h

/-- After `FILT` the block is steady and `DEC` is written. -/
theorem Fired.filt_keeps (h : Fired .filt vs s t) (hs : Steady s) (hfree : t.faults = []) :
    Steady t ∧ Operands .xform t := by
  induction h with
  | @now vs s hready _ =>
    exact captureAll_keeps (steady_bodyOf (steady_claimedNow hs hready) fun _ => slot_claimedNow s) rfl
      (operands_xform_bodyFilt (claimedNow s)) hfree
  | later _ h ih => exact ih (steady_captureEvent hs (no_fault_of_subset (fun _ => h.faults) hfree)) hfree

/-- R242: `RUN` claims when `FILT` does, and what it does more than `FILT` it might as well have done later. -/
theorem Fired.run_of_filt (h : Fired .filt us s u) (hrun : Fired .run (us ++ vs) s t) (hs : Steady s)
    (hfree : u.faults = []) : t = captureAll vs (laterStages u) := by
  induction h with
  | @now us s hready _ =>
    have hlater : laterStages (captureAll us (bodyFilt (claimedNow s))) = captureAll us (bodyRun (claimedNow s)) :=
      laterStages_captureAll (steady_bodyOf (i := .filt) (steady_claimedNow hs hready) fun _ => slot_claimedNow s)
        (operands_xform_bodyFilt (claimedNow s)) hfree
    calc t = captureAll (us ++ vs) (bodyRun (claimedNow s)) := hrun.of_ready hready
      _ = captureAll vs (captureAll us (bodyRun (claimedNow s))) := captureAll_append us vs _
      _ = captureAll vs (laterStages (captureAll us (bodyFilt (claimedNow s)))) := by rw [hlater]
  | later hnot h ih =>
    exact ih (hrun.of_not_ready hnot) (steady_captureEvent hs (no_fault_of_subset (fun _ => h.faults) hfree)) hfree

theorem QuietRun.en (h : QuietRun vs s t) : t.ctrl.en = s.ctrl.en := by
  induction h with
  | done => rfl
  | byAccess _ _ _ _ _ _ ih => exact ih
  | @byCapture _ s _ v _ ih =>
    obtain ⟨m, sl0, sl1, fr, cu, fs, hcap⟩ := captureEvent_state v s
    rw [hcap] at ih
    exact ih
  | @byClaim _ s _ _ _ ih =>
    rcases claim_cases s with ⟨-, hclaim⟩ | ⟨-, hclaim⟩ <;> rw [hclaim] at ih <;> exact ih
  | byCompletion _ _ ih => exact ih.trans (bodyOf_en _ _)

/-! ## Commands and the runs after them -/

theorem essence_accept (hs : Fresh s) (es : List Input) :
    essence (accept i { s with inputs := es, resp := .ack }) = essence s := by
  rw [accept, show latch i { s with inputs := es, resp := .ack } = { s.latched with op := i } from hs.latch_eq i]
  rfl

theorem steady_accept (hen : s.ctrl.en = true) (hrange : InRange s) (hn : s.cfg.n ≤ 4096) (hb : s.cfg.b ≤ 2048)
    (hfill : s.curPos ≠ 0 → s.slot s.curSlot = .filling) (i : Instr) (es : List Input) :
    Steady (accept i { s with inputs := es, resp := .ack }) :=
  ⟨hen, ⟨hrange.pos, hrange.fits, hrange.cursor⟩, hn, hb, hfill, fresh_accept i _⟩

section
variable {w : Word} {es : List Input} (hd : decode w = .ok i) (hst : Staged i) (hidle : s.eng = .idle)
  (hq : NoHostWrite es) (hrun : runInputs (.hostWrite 0x018 32 w :: es) s = .next t) (hfree : FaultFree t)
  (hidle' : t.eng = .idle)
include hd hst hidle hq hrun

/-- A command and the run after it keep the block started, and what faults there are. -/
theorem en_and_faults_of_command (hen : s.ctrl.en = true) : t.ctrl.en = true ∧ (FaultFree t → FaultFree s) := by
  rw [runInputs_command hd hidle hen hst.ne_cents] at hrun
  obtain ⟨hquiet, -⟩ := quietRun_of_runInputs hq hrun
  exact ⟨hquiet.en.trans hen, hquiet.faultFree⟩

include hfree hidle'

/-- What the run of a stage that claims no slot ends in. -/
theorem essence_of_stage (hi : claimsSlot i = false) (hs : Steady s) (hop : Operands i s) :
    essence t = captureAll (captures es) (bodyOf i (essence s)) ∧ lifecycle t = (.idle, true, opcode i, i) ∧
      t.inputs = [] := by
  rw [runInputs_command hd hidle hs.en hst.ne_cents] at hrun
  obtain ⟨hquiet, hin⟩ := quietRun_of_runInputs hq hrun
  have hexec : (accept i { s with inputs := es, resp := .ack }).eng = .exec := if_neg (by rw [hi]; decide)
  obtain ⟨-, hess, hlife⟩ := hquiet.of_exec hst hexec rfl (steady_accept hs.en hs.range hs.n hs.b hs.filling i es)
    (fun hi' => by rw [hi] at hi'; cases hi') (fun _ => hop) hfree hidle'
  rw [essence_accept hs.fresh] at hess
  exact ⟨hess, hlife, hin⟩

/-- R242: the stage comes to the state from which the capture events before it led, and they after it. -/
theorem captureAll_stage (hi : claimsSlot i = false) {e : State} (hess : essence s = captureAll vs e) (hs : Steady e)
    (hop : Operands i e) (hfrees : FaultFree s) :
    essence t = captureAll (vs ++ captures es) (bodyOf i e) ∧ lifecycle t = (.idle, true, opcode i, i) ∧
      t.inputs = [] := by
  have hfreee : (captureAll vs e).faults = [] := hess ▸ hfrees
  obtain ⟨hs', hop'⟩ := captureAll_keeps hs hi hop hfreee
  rw [← hess] at hs' hop'
  obtain ⟨hend, hrest⟩ := essence_of_stage hd hst hidle hq hrun hfree hidle' hi (hs'.of_filling rfl id) hop'
  rw [hess, hst.bodyOf_captureAll hi hs hop hfreee, ← captureAll_append] at hend
  exact ⟨hend, hrest⟩

/-- What the run of a command that claims a slot ends in, of any such command begun in the same state. -/
theorem fired_of_command (hi : claimsSlot i = true) (hs : Steady (accept i { s with inputs := es, resp := .ack })) :
    Fired i (captures es) (essence (accept .run s)) (essence t) ∧ lifecycle t = (.idle, true, opcode i, i) ∧
      t.inputs = [] := by
  rw [runInputs_command hd hidle hs.en hst.ne_cents] at hrun
  obtain ⟨hquiet, hin⟩ := quietRun_of_runInputs hq hrun
  obtain ⟨hfired, hlife⟩ := hquiet.of_wait hst hi (if_pos hi) rfl hs hfree hidle'
  exact ⟨hfired, hlife, hin⟩

end

end

/-! ## The two runs -/

theorem noHostWrite_append {es es' : List Input} : NoHostWrite (es ++ es') ↔ NoHostWrite es ∧ NoHostWrite es' :=
  List.forall_mem_append

theorem captures_append (es es' : List Input) : captures (es ++ es') = captures es ++ captures es' :=
  List.filterMap_append

/-- R131, R228: a command accepted by a started block. -/
theorem steady_of_controlOk {s : State} (hctl : ControlOk s) (hh : HandoffOk s) (hen : s.ctrl.en = true) (i : Instr)
    (es : List Input) : Steady (accept i { s with inputs := es, resp := .ack }) := by
  obtain ⟨l, hlo, hhi, hn, hb, -, -⟩ := cfg_of_started hctl hen
  have hn' : 2 ^ l ≤ 2 ^ 12 := Nat.pow_le_pow_right two_pos hhi
  have hb' : 2 ^ (l - 1) ≤ 2 ^ 11 := Nat.pow_le_pow_right two_pos (by omega)
  exact steady_accept hen (inRange_of_started hctl hen) (by omega) (by omega) (hh.filling hen) i es

/-- R242 with engine turns, capture events and host reads in between. -/
theorem essence_run_eq_stages {s t u1 u2 u3 u4 : State} {r r1 r2 r3 r4 : List Input} (hctl : ControlOk s)
    (hh : HandoffOk s) (hidle : s.eng = .idle) (hen : s.ctrl.en = true) (hq : NoHostWrite (r ++ r1 ++ r2 ++ r3 ++ r4))
    (hcap : captures r = captures (r1 ++ r2 ++ r3 ++ r4))
    (hrun : runInputs (.hostWrite 0x018 32 0x01 :: r) s = .next t)
    (hrun1 : runInputs (.hostWrite 0x018 32 0x02 :: r1) s = .next u1)
    (hrun2 : runInputs (.hostWrite 0x018 32 0x03 :: r2) u1 = .next u2)
    (hrun3 : runInputs (.hostWrite 0x018 32 0x04 :: r3) u2 = .next u3)
    (hrun4 : runInputs (.hostWrite 0x018 32 0x05 :: r4) u3 = .next u4)
    (ht : t.eng = .idle) (h1 : u1.eng = .idle) (h2 : u2.eng = .idle) (h3 : u3.eng = .idle) (h4 : u4.eng = .idle)
    (hfree : FaultFree t) (hfree4 : FaultFree u4) :
    essence u4 = essence t ∧ lifecycle t = (.idle, true, 0x01, .run) ∧ lifecycle u4 = (.idle, true, 0x05, .peak) ∧
      t.inputs = [] ∧ u4.inputs = [] := by
  simp only [noHostWrite_append, and_assoc] at hq
  obtain ⟨hq0, hq1, hq2, hq3, hq4⟩ := hq
  obtain ⟨hen1, -⟩ := en_and_faults_of_command rfl .filt hidle hq1 hrun1 hen
  obtain ⟨hen2, hback2⟩ := en_and_faults_of_command rfl .xform h1 hq2 hrun2 hen1
  obtain ⟨hen3, hback3⟩ := en_and_faults_of_command rfl .hps h2 hq3 hrun3 hen2
  obtain ⟨-, hback4⟩ := en_and_faults_of_command rfl .peak h3 hq4 hrun4 hen3
  have hfree3 := hback4 hfree4
  have hfree2 := hback3 hfree3
  have hfree1 := hback2 hfree2
  obtain ⟨hfired, hlife, hin⟩ := fired_of_command rfl .run hidle hq0 hrun hfree ht rfl
    (steady_of_controlOk hctl hh hen .run r)
  obtain ⟨hfired1, -, -⟩ := fired_of_command rfl .filt hidle hq1 hrun1 hfree1 h1 rfl
    (steady_of_controlOk hctl hh hen .filt r1)
  have hstart : Steady (essence (accept .run s)) := (steady_of_controlOk hctl hh hen .run []).of_filling rfl id
  have hstages : essence t = captureAll (captures r2 ++ captures r3 ++ captures r4) (laterStages (essence u1)) := by
    rw [hcap, captures_append, captures_append, captures_append, List.append_assoc, List.append_assoc] at hfired
    rw [List.append_assoc]
    exact hfired1.run_of_filt hfired hstart hfree1
  obtain ⟨hs1, hop1⟩ := hfired1.filt_keeps hstart hfree1
  have hs2 := steady_stage (i := .xform) hs1 rfl
  have hop2 : Operands .hps (bodyOf .xform (essence u1)) := operands_hps_bodyXform (essence u1)
  obtain ⟨hess2, -, -⟩ := captureAll_stage (vs := []) rfl .xform h1 hq2 hrun2 hfree2 h2 rfl rfl hs1 hop1 hfree1
  obtain ⟨hess3, -, -⟩ := captureAll_stage rfl .hps h2 hq3 hrun3 hfree3 h3 rfl hess2 hs2 hop2 hfree2
  obtain ⟨hess4, hlife4, hin4⟩ := captureAll_stage rfl .peak h3 hq4 hrun4 hfree4 h4 rfl hess3
    (steady_stage (i := .hps) hs2 rfl) (operands_peak_bodyHps hop2) hfree3
  exact ⟨hess4.trans hstages.symm, hlife, hlife4, hin, hin4⟩

/-- Settles O31: with nothing in between the bodies run are the same, and otherwise the two runs end in the same essence. -/
theorem runEqualsStageCommands : Obligations.RunEqualsStageCommands := by
  unfold Obligations.RunEqualsStageCommands
  refine ⟨fun s hidle hen hready => run_eq_stages hidle hen hready, fun s r r1 r2 r3 r4 hctl hh hidle hen hq hcap => ?_⟩
  obtain ⟨t, ht⟩ := exists_run _ { s with inputs := .hostWrite 0x018 32 0x01 :: r }
  obtain ⟨u1, h1⟩ := exists_run _ { s with inputs := .hostWrite 0x018 32 0x02 :: r1 }
  obtain ⟨u2, h2⟩ := exists_run _ { u1 with inputs := .hostWrite 0x018 32 0x03 :: r2 }
  obtain ⟨u3, h3⟩ := exists_run _ { u2 with inputs := .hostWrite 0x018 32 0x04 :: r3 }
  obtain ⟨u4, h4⟩ := exists_run _ { u3 with inputs := .hostWrite 0x018 32 0x05 :: r4 }
  refine ⟨t, u1, u2, u3, u4, ht, h1, h2, h3, h4, fun hidle0 hidle1 hidle2 hidle3 hidle4 hfree hfree4 => ?_⟩
  obtain ⟨hess, hlife, hlife4, hin, hin4⟩ := essence_run_eq_stages hctl hh hidle hen hq hcap ht h1 h2 h3 h4 hidle0
    hidle1 hidle2 hidle3 hidle4 hfree hfree4
  simp only [lifecycle, Prod.mk.injEq] at hlife hlife4
  obtain ⟨-, hdone, hcurcmd, -⟩ := hlife
  obtain ⟨-, hdone4, hcurcmd4, hop4⟩ := hlife4
  refine ⟨?_, hcurcmd, hdone⟩
  rw [eq_of_essence hess, hidle4, hdone4, hcurcmd4, hop4, hin4, ← hidle0, ← hdone, ← hin]

end Sys2Proof.Machine
end
